-- ==== Sys2Proof/Word.lean ====
section
/-! DEFINITION. The data types of the machine: bytes of statement text, 16-bit addresses, data words, accumulators,
and the widths the spec leaves open. -/

namespace Sys2Proof

/-- One character of statement text, as a byte. -/
abbrev Byte := BitVec 8

/-- The text of one assembler statement, or one word of it (R50, R53). -/
abbrev Text := List Byte

/-- A 16-bit address; also the width of every `Rn`, `Nn`, `Mn` (R3, R11). -/
abbrev Addr := BitVec 16

/-! The widths the spec leaves open (R3, D3, D4): constants with no body, so that nothing is known of a width but what is
said here, and a claim holds for every width. -/

/-- `W` less one: a word has at least one bit (DESIGN CHOICE, log entry 2). -/
opaque Config.wordBitsLessOne : Nat
/-- `W`, the width of a data word and of x1, x0, y1, y0 (R3, D3, D4). -/
def Config.wordBits : Nat := Config.wordBitsLessOne + 1
/-- The width of `a2` and of `b2` (D4). -/
opaque Config.extBits : Nat
/-- The width of `a1` and of `b1` (D4). -/
opaque Config.highBits : Nat
/-- The width of `a0` and of `b0` (D4). -/
opaque Config.lowBits : Nat
/-- `PCW`, the width of the hardware's pc (R3, R16). -/
opaque Config.pcBits : Nat

/-- A data word (R3, R31). -/
abbrev Word := BitVec Config.wordBits

/-- The kinds of place a transfer can move bits between (R112). -/
inductive Width
  | agu | word | ext | high | low | status | mr | pc
  deriving DecidableEq, Repr

/-- How many bits a place holds. -/
abbrev Width.bits : Width → Nat
  | .agu => 16
  | .word => Config.wordBits
  | .ext => Config.extBits
  | .high => Config.highBits
  | .low => Config.lowBits
  | .status => 16
  | .mr => 8
  | .pc => Config.pcBits

/-- The status register `sr`: 16 bits, `mr` its upper byte (PRESUMED, log entry 2). -/
abbrev Status := BitVec 16

/-- An accumulator, held as its three parts (R15): `p2` is `a2` or `b2`, `p1` is `a1` or `b1`, `p0` is `a0` or `b0`.
`ACCW` is the sum of their widths (D4). -/
structure Acc where
  p2 : BitVec Config.extBits
  p1 : BitVec Config.highBits
  p0 : BitVec Config.lowBits
  deriving DecidableEq, Repr, Inhabited

/-- The all-zero accumulator. -/
def Acc.zero : Acc := ⟨0, 0, 0⟩

end Sys2Proof
end

