-- ==== Sys2Proof/Syntax.lean ====
section
/-! DEFINITION. The instructions, one constructor per row of the opcode table, and their operands (R53 to R58). -/

namespace Sys2Proof

/-- The number of an address register and of its offset and modifier register (R11). -/
abbrev AguNum := Fin 8

/-- The two accumulators (R15). -/
inductive AccName
  | a | b
  deriving DecidableEq, Repr

/-- The multiplier inputs (R15). -/
inductive MulReg
  | x0 | x1 | y0 | y1
  deriving DecidableEq, Repr

/-- A register a data move can name (R10, R56): an AGU register, a multiplier input, a whole accumulator or a part, `sr`
or its part `mr`, `pc`. Which of them a move may write and read is WellFormed's matter. -/
inductive Reg
  | r (k : AguNum)
  | n (k : AguNum)
  | m (k : AguNum)
  | mul (q : MulReg)
  | acc (d : AccName)    -- a, b
  | ext (d : AccName)    -- a2, b2
  | high (d : AccName)   -- a1, b1
  | low (d : AccName)    -- a0, b0
  | sr
  | mr
  | pc
  deriving DecidableEq, Repr

/-- The two data memory spaces (R30). -/
inductive Space
  | x | y
  deriving DecidableEq, Repr

/-- The seven address-register-indirect modes (R54, R72 to R78). -/
inductive Mode
  | noUpdate     -- (Rn)
  | postInc      -- (Rn)+
  | postDec      -- (Rn)-
  | postIncN     -- (Rn)+Nn
  | postDecN     -- (Rn)-Nn
  | indexed      -- (Rn+Nn)
  | preDec       -- -(Rn)
  deriving DecidableEq, Repr

/-- An operand address: a mode and the number of its registers. -/
structure Ea where
  mode : Mode
  k : AguNum
  deriving DecidableEq, Repr

/-- The four steps a mode can ask the address ALU for (R70). -/
inductive AguStep
  | plusOne | minusOne | plusN | minusN
  deriving DecidableEq, Repr

/-- An immediate operand (R55): an integer, or the decimal fraction `mantissa / 10 ^ (places + 1)` (D28). -/
inductive Imm
  | int (v : Int)
  | frac (mantissa : Int) (places : Nat)
  deriving DecidableEq, Repr

/-- A one-space memory move (forms X and Y of R57): memory to register, or register to memory. -/
inductive MemMove
  | load (e : Ea) (dst : Reg)
  | store (src : Reg) (e : Ea)
  deriving DecidableEq, Repr

/-- The operand address of a memory move. -/
def MemMove.ea : MemMove → Ea
  | .load e _ => e
  | .store _ e => e

/-- The data-move field after a data-ALU opcode (R57, R58, R114): forms I, R, U, X, Y, XY, RY, or none. -/
inductive Moves
  | none
  | i (v : Imm) (dst : Reg)
  | r (src dst : Reg)
  | u (e : Ea)
  | x (mm : MemMove)
  | y (mm : MemMove)
  | xy (mx my : MemMove)
  | ry (src dst : Reg) (my : MemMove)
  deriving DecidableEq, Repr

/-- The instructions: one constructor per row of `spec/opcode_table.json` (R58). -/
inductive Instr
  | moveI (v : Imm) (dst : Reg)                                    -- move #expr,D
  | moveR (src dst : Reg)                                          -- move S,D
  | moveU (e : Ea)                                                 -- move ea
  | moveX (mm : MemMove)                                           -- move x:ea,D | move S,x:ea
  | moveY (mm : MemMove)                                           -- move y:ea,D | move S,y:ea
  | moveXY (mx my : MemMove)                                       -- move <X form> <Y form>
  | clr (d : AccName) (mv : Moves)                                 -- clr D [moves]
  | mac (neg : Bool) (p q : MulReg) (d : AccName) (mv : Moves)     -- mac [-]S1,S2,D [moves]
  | macr (neg : Bool) (p q : MulReg) (d : AccName) (mv : Moves)    -- macr [-]S1,S2,D [moves]
  | mpy (neg : Bool) (p q : MulReg) (d : AccName) (mv : Moves)     -- mpy [-]S1,S2,D [moves]
  | rnd (d : AccName) (mv : Moves)                                 -- rnd D [moves]
  | subl (src d : AccName) (mv : Moves)                            -- subl S,D [moves]
  | lsl (d : AccName) (mv : Moves)                                 -- lsl D [moves]
  | lsr (d : AccName) (mv : Moves)                                 -- lsr D [moves]
  | movepReg (pp : Addr) (dst : Reg)                               -- movep y:pp,D
  | movepMem (pp : Addr) (e : Ea)                                  -- movep y:pp,x:ea
  | movepOut (src : Reg) (pp : Addr)                               -- movep S,y:pp
  | lua (e : Ea) (d : AguNum)                                      -- lua ea,Rd
  | rep (count : Nat)                                              -- rep #expr
  | doImm (count target : Nat)                                     -- do #expr,label
  | doReg (src : Reg) (target : Nat)                               -- do S,label
  | jmp (target : Nat)                                             -- jmp label
  | ori (mask : BitVec 8)                                          -- ori #mask,mr
  deriving DecidableEq, Repr

end Sys2Proof
end

