-- ==== Sys2Proof/Config.lean ====
section
/-! DEFINITION. What the spec leaves as a parameter: the data ALU's functions, transfers between places of unequal
width, the undecided reverse-carry sums, and draws. A function here has no body: no proof can see a value of it (D5, D7,
D9, D26). (The open widths stand in Word.lean; the depth of the system stack is a launch parameter, in State.) -/

namespace Sys2Proof

/-- Where a transferred value comes from or goes to: the `srcKind` and `dstKind` of `xfer` (R112). -/
inductive Place
  | reg (q : Reg)
  | word                -- a word of X: or Y: memory, or of a peripheral
  | immInt              -- an integer immediate
  | immFrac             -- a fractional immediate
  deriving DecidableEq, Repr

/-- A value on its way from one place to another, tagged with its width. -/
inductive Value
  | bits (w : Width) (v : BitVec w.bits)
  | acc (v : Acc)
  | int (v : Int)
  | frac (v : Rat)

namespace Config

/-- `xfer` into a place of width `w` from a place of another width (R112, D5). -/
opaque xferBits : (w : Width) → Place → Place → Value → BitVec w.bits
/-- `xfer` into a whole accumulator from a place of another width (R112, D5). -/
opaque xferAcc : Place → Place → Value → Acc

/-- The `sr` half of `alu_clr` (R115); its accumulator half is zero, as R115 derives. -/
opaque aluClrStatus : Status → Status
/-- `alu_mac (sign, S1, S2, D, sr)` (R116, D5); the sign is `true` where `-` is written. -/
opaque aluMac : Bool → Word → Word → Acc → Status → Acc × Status
/-- `alu_macr (sign, S1, S2, D, sr)` (R117, D5). -/
opaque aluMacr : Bool → Word → Word → Acc → Status → Acc × Status
/-- `alu_mpy (sign, S1, S2, sr)` (R118, D5). -/
opaque aluMpy : Bool → Word → Word → Status → Acc × Status
/-- `alu_rnd (D, sr)` (R119, D5). -/
opaque aluRnd : Acc → Status → Acc × Status
/-- `alu_subl (S, D, sr)` (R120, D5). -/
opaque aluSubl : Acc → Acc → Status → Acc × Status
/-- `alu_lsl (D, sr)` (R121, D5); the `a1` part of the result is fixed by R121 and not taken from here. -/
opaque aluLsl : Acc → Status → Acc × Status
/-- `alu_lsr (D, sr)` (R122, D5); of the `a1` part of the result only the top bit can come from here. -/
opaque aluLsr : Acc → Status → Acc × Status

/-- What DO leaves in `sr`: R10's table has DO write `sr` and no rule says what (log entry 12). -/
opaque doStatus : Status → Status

/-- `revCarryOther (r, step, N)`: reverse-carry arithmetic for the steps `+1`, `-1`, `-N` (R96, R98, D9) and, with the
step `+N`, the sum of `(Rn+Nn)` (U4). -/
opaque revCarryOther : Addr → AguStep → Addr → Addr

/-- The `i`-th unpredictable address-register value: `DRAW(16)` (R96, R97, D7, D8). -/
opaque drawAddr : Nat → Addr
/-- The `i`-th word read from a peripheral: `DRAW(W)` (R36, R123, D26). -/
opaque drawWord : Nat → Word
/-- The value the `i`-th statement reads in `pc`, of which nothing is claimed (R16, D1; log entry 25). -/
opaque drawPc : Nat → BitVec pcBits

/-- What a word of X: or Y: that nothing has written reads as (DESIGN CHOICE, log entry 5). -/
def blankWord : Word := 0

end Config
end Sys2Proof
end

