-- ==== Sys2Proof/WellFormed.lean ====
section
/-! DEFINITION. Which instructions are well formed: the combinations the spec refuses before a run (R17, R35, R59, R79,
R81, R111, R124, D27), each refused by name. -/

namespace Sys2Proof

/-- Why an instruction is refused at well-formedness. Each is safe: the model gives the form no meaning. -/
inductive IllFormed
  /-- `(Rn)`, `(Rn+Nn)` or `-(Rn)` as an update with no data move, or as the source of LUA (R59, R79, R124). -/
  | modeUpdatesNothingAlone
  /-- `(Rn)-Nn`, `(Rn+Nn)` or `-(Rn)` in an XY: reference (R59, R80). -/
  | modeNotInXY
  /-- The two address registers of an XY: reference are in the same half of the file (R35, D23). -/
  | xyBank
  /-- Two writes to one register in one statement (R111, D24). -/
  | twoWrites
  /-- An `Rn` updated by a mode while the statement loads `Rn`, `Nn` or `Mn` of that number (R81, D24). -/
  | updateAndLoad
  /-- LUA whose destination is its own address register (R124). -/
  | luaSelf
  /-- An immediate count above 65535 (D27). -/
  | countRange
  /-- `sr` or `mr` as the source of a move or the count of DO: nothing in the admitted instruction set reads `sr`
  (R17). -/
  | statusRead
  /-- `pc` as the destination of a move: every statement writes it already (R10, R16, R111, D24; log entry 25). -/
  | pcWritten
  deriving DecidableEq, Repr

/-- The mode writes its own address register (R73 to R76, R78). -/
def Mode.updates : Mode → Bool
  | .noUpdate | .indexed => false
  | .postInc | .postDec | .postIncN | .postDecN | .preDec => true

/-- The mode may stand with no data move (R32, R79); LUA takes the same four (R124). -/
def Mode.standsAlone : Mode → Bool
  | .postInc | .postDec | .postIncN | .postDecN => true
  | .noUpdate | .indexed | .preDec => false

/-- The mode may be used in an XY: reference (R32, R80). -/
def Mode.inXY : Mode → Bool
  | .noUpdate | .postInc | .postDec | .postIncN => true
  | .postDecN | .indexed | .preDec => false

/-- The AGU number of a register of the AGU file. -/
def Reg.aguNum : Reg → Option AguNum
  | .r k | .n k | .m k => some k
  | .mul _ | .acc _ | .ext _ | .high _ | .low _ | .sr | .mr | .pc => none

/-- The accumulator a register name stands for or is a part of (R15). -/
def Reg.accOf : Reg → Option AccName
  | .acc d | .ext d | .high d | .low d => some d
  | .r _ | .n _ | .m _ | .mul _ | .sr | .mr | .pc => none

/-- Two register names share storage: they are equal, or one is a part of the other (R15, R17). -/
def Reg.overlaps (p q : Reg) : Bool :=
  p == q || (match p, q with
    | .acc d, q => q.accOf == some d
    | p, .acc d => p.accOf == some d
    | .sr, .mr | .mr, .sr => true
    | _, _ => false)

/-- The register a memory move loads. -/
def MemMove.dst : MemMove → List Reg
  | .load _ d => [d]
  | .store _ _ => []

/-- The registers the move field names as destinations, in the order written. -/
def Moves.dsts : Moves → List Reg
  | .none => []
  | .i _ d => [d]
  | .r _ d => [d]
  | .u _ => []
  | .x mm | .y mm => mm.dst
  | .xy mx my => mx.dst ++ my.dst
  | .ry _ d my => d :: my.dst

/-- A move may read the register: of `sr` and its part `mr` nothing is read (R17). -/
def Reg.readable : Reg → Bool
  | .sr | .mr => false
  | .r _ | .n _ | .m _ | .mul _ | .acc _ | .ext _ | .high _ | .low _ | .pc => true

/-- A move may write the register: `pc` the statement writes already (R16, R111). -/
def Reg.writable : Reg → Bool
  | .pc => false
  | .r _ | .n _ | .m _ | .mul _ | .acc _ | .ext _ | .high _ | .low _ | .sr | .mr => true

/-- The register a memory move stores. -/
def MemMove.src : MemMove → List Reg
  | .load _ _ => []
  | .store q _ => [q]

/-- The registers the move field names as sources. -/
def Moves.srcs : Moves → List Reg
  | .none | .i _ _ | .u _ => []
  | .r q _ => [q]
  | .x mm | .y mm => mm.src
  | .xy mx my => mx.src ++ my.src
  | .ry q _ my => q :: my.src

/-- The operand addresses of the move field. -/
def Moves.eas : Moves → List Ea
  | .none | .i _ _ | .r _ _ => []
  | .u e => [e]
  | .x mm | .y mm => [mm.ea]
  | .xy mx my => [mx.ea, my.ea]
  | .ry _ _ my => [my.ea]

/-- Two registers of the list share storage. -/
def clash : List Reg → Bool
  | [] => false
  | d :: ds => ds.any d.overlaps || clash ds

/-- Some mode updates `Rn` while some destination is `Rn`, `Nn` or `Mn` of that number (R81). -/
def updateClash (es : List Ea) (ds : List Reg) : Bool :=
  es.any fun e => e.mode.updates && ds.any fun d => d.aguNum == some e.k

/-- The half of the address-register file a number lies in (R35): `R0` to `R3`, or `R4` to `R7`. -/
def upperHalf (k : AguNum) : Bool := 4 ≤ k.val

/-- What is wrong with a pair of memory moves made as one XY: reference (R35, R59). -/
def xyIllFormed (mx my : MemMove) : Option IllFormed :=
  if !(mx.ea.mode.inXY && my.ea.mode.inXY) then some .modeNotInXY
  else if upperHalf mx.ea.k == upperHalf my.ea.k then some .xyBank
  else none

/-- What is wrong with the modes a move field uses, if anything. -/
def Moves.modesIllFormed (mv : Moves) : Option IllFormed :=
  match mv with
  | .u e => if e.mode.standsAlone then Option.none else some .modeUpdatesNothingAlone
  | .xy mx my => xyIllFormed mx my
  | .none | .i _ _ | .r _ _ | .x _ | .y _ | .ry _ _ _ => Option.none

/-- What is wrong with the registers a statement's moves read and write. -/
def regsIllFormed (srcs dsts : List Reg) : Option IllFormed :=
  if !srcs.all Reg.readable then some .statusRead
  else if !dsts.all Reg.writable then some .pcWritten
  else none

/-- What a data-ALU operation on the accumulator `d` writes: `d` and `sr` (R115 to R122). -/
def aluDsts (d : AccName) : List Reg := [.acc d, .sr]

/-- What is wrong with a move field beside the destinations `alu` of the statement's data-ALU operation. -/
def movesIllFormed (alu : List Reg) (mv : Moves) : Option IllFormed :=
  match mv.modesIllFormed with
  | some f => some f
  | none =>
    match regsIllFormed mv.srcs mv.dsts with
    | some f => some f
    | none =>
      if clash (alu ++ mv.dsts) then some .twoWrites
      else if updateClash mv.eas mv.dsts then some .updateAndLoad
      else none

/-- An immediate count must fit 1 to 65535 (D27); a count of zero is refused when it executes (R126, R127). -/
def countIllFormed (c : Nat) : Option IllFormed :=
  if c ≤ 65535 then none else some .countRange

/-- What is wrong with an instruction, if anything. Of several reasons the one named is the model's choice (log entry
33). -/
def Instr.illFormed : Instr → Option IllFormed
  | .moveI v d => movesIllFormed [] (.i v d)
  | .moveR s d => movesIllFormed [] (.r s d)
  | .moveU e => movesIllFormed [] (.u e)
  | .moveX mm => movesIllFormed [] (.x mm)
  | .moveY mm => movesIllFormed [] (.y mm)
  | .moveXY mx my => movesIllFormed [] (.xy mx my)
  | .clr d mv => movesIllFormed (aluDsts d) mv
  | .mac _ _ _ d mv => movesIllFormed (aluDsts d) mv
  | .macr _ _ _ d mv => movesIllFormed (aluDsts d) mv
  | .mpy _ _ _ d mv => movesIllFormed (aluDsts d) mv
  | .rnd d mv => movesIllFormed (aluDsts d) mv
  | .subl _ d mv => movesIllFormed (aluDsts d) mv
  | .lsl d mv => movesIllFormed (aluDsts d) mv
  | .lsr d mv => movesIllFormed (aluDsts d) mv
  | .movepReg _ d => regsIllFormed [] [d]
  | .movepMem _ _ => none
  | .movepOut q _ => regsIllFormed [q] []
  | .lua e d =>
    if !e.mode.standsAlone then some .modeUpdatesNothingAlone
    else if e.k == d then some .luaSelf
    else none
  | .rep c => countIllFormed c
  | .doImm c _ => countIllFormed c
  | .doReg q _ => regsIllFormed [q] []
  | .jmp _ => none
  | .ori _ => none

/-- The instruction is well formed. -/
def Instr.wf (i : Instr) : Bool := i.illFormed.isNone

end Sys2Proof
end

