-- ==== Sys2Proof/Decode.lean ====
section
/-! DEFINITION. The decoder and the encoder. The spec gives no instruction bit pattern (R50); the encoding of an
instruction is its assembler text (R53 to R58, D1), one byte a character. `decode` reads the text of one statement and
is total: what it does not read it rejects by name. `encode` writes an instruction as the text R53 to R57 give it. -/

namespace Sys2Proof

/-- The bytes of a name or a piece of text. -/
def text (s : String) : Text := s.toList.map fun c => BitVec.ofNat 8 c.toNat

/-! ### Words and punctuation (R53) -/

/-- What a statement's text is made of. -/
inductive Token
  | word (w : Text)     -- a name or a number, in lower case
  | hash | comma | colon | lparen | rparen | plus | minus | star | slash
  | gap                 -- a blank
  | other (c : Byte)    -- a character no statement uses
  deriving DecidableEq, Repr

/-- Blank characters; a zero byte after the text counts as one, so that padding changes nothing. -/
def isBlank (c : Byte) : Bool := c == 32 || c == 9 || c == 10 || c == 13 || c == 0

/-- Characters of names and numbers: letters, digits, `_`, `$`, `.`, `@`. -/
def isWordChar (c : Byte) : Bool :=
  (97 ≤ c && c ≤ 122) || (48 ≤ c && c ≤ 57) || (65 ≤ c && c ≤ 90) || c == 95 || c == 36 || c == 46 || c == 64

/-- "Mnemonics and register names are written in either case" (R53). -/
def toLower (c : Byte) : Byte := if 65 ≤ c && c ≤ 90 then c + 32 else c

/-- The token of one character that is neither blank nor part of a word. -/
def punct (c : Byte) : Token :=
  if c == 35 then .hash else if c == 44 then .comma else if c == 58 then .colon
  else if c == 40 then .lparen else if c == 41 then .rparen else if c == 43 then .plus
  else if c == 45 then .minus else if c == 42 then .star else if c == 47 then .slash else .other c

/-- The word read so far, as a token if there is one. -/
def flushWord (w : Text) : List Token := if w.isEmpty then [] else [.word w]

/-- Read the text into tokens, `w` being the word read so far; a comment runs from `;` to the end (R53). -/
def lexGo (w : Text) : Text → List Token
  | [] => flushWord w
  | c :: cs =>
    if isWordChar c then lexGo (w ++ [toLower c]) cs
    else if c == 59 then flushWord w
    else if isBlank c then flushWord w ++ .gap :: lexGo [] cs
    else flushWord w ++ punct c :: lexGo [] cs

/-- Drop the blanks that separate nothing: all but one after a sign. Which of those separate is the readers' matter:
`settle` and `dropGaps`. -/
def squeeze : List Token → List Token
  | [] => []
  | .gap :: ts => squeeze ts
  | .plus :: .gap :: ts => .plus :: .gap :: squeeze ts
  | .minus :: .gap :: ts => .minus :: .gap :: squeeze ts
  | t :: ts => t :: squeeze ts

/-- The token is a blank. -/
def Token.isGap : Token → Bool
  | .gap => true
  | .word _ | .hash | .comma | .colon | .lparen | .rparen | .plus | .minus | .star | .slash | .other _ => false

/-- Drop every blank: where one word must follow a sign, `(r0) + n0` and `(r0)+n0` are one (the FFT listing writes
both). -/
def dropGaps (ts : List Token) : List Token := ts.filter fun t => !t.isGap

/-- The tokens of a statement's text. -/
def lex (t : Text) : List Token := squeeze (lexGo [] t)

/-! ### Names (R54, R56, R58) -/

/-- The fifteen mnemonics (R58). -/
inductive Mnemonic
  | move | clr | mac | macr | mpy | rnd | subl | lsl | lsr | movep | lua | rep | do_ | jmp | ori
  deriving DecidableEq, Repr

/-- A mnemonic as it is written. -/
def Mnemonic.name : Mnemonic → Text
  | .move => text "move"
  | .clr => text "clr"
  | .mac => text "mac"
  | .macr => text "macr"
  | .mpy => text "mpy"
  | .rnd => text "rnd"
  | .subl => text "subl"
  | .lsl => text "lsl"
  | .lsr => text "lsr"
  | .movep => text "movep"
  | .lua => text "lua"
  | .rep => text "rep"
  | .do_ => text "do"
  | .jmp => text "jmp"
  | .ori => text "ori"

/-- All mnemonics. -/
def Mnemonic.all : List Mnemonic :=
  [.move, .clr, .mac, .macr, .mpy, .rnd, .subl, .lsl, .lsr, .movep, .lua, .rep, .do_, .jmp, .ori]

/-- The mnemonic a word spells. -/
def mnemonicOf (w : Text) : Option Mnemonic := Mnemonic.all.find? fun q => q.name == w

/-- An accumulator's letter. -/
def AccName.letter : AccName → Byte
  | .a => 97
  | .b => 98

/-- A register as it is written (R10). -/
def Reg.name : Reg → Text
  | .r k => [114, BitVec.ofNat 8 (48 + k.val)]
  | .n k => [110, BitVec.ofNat 8 (48 + k.val)]
  | .m k => [109, BitVec.ofNat 8 (48 + k.val)]
  | .mul .x0 => [120, 48]
  | .mul .x1 => [120, 49]
  | .mul .y0 => [121, 48]
  | .mul .y1 => [121, 49]
  | .acc d => [d.letter]
  | .ext d => [d.letter, 50]
  | .high d => [d.letter, 49]
  | .low d => [d.letter, 48]
  | .sr => [115, 114]
  | .mr => [109, 114]
  | .pc => [112, 99]

/-- All AGU register numbers. -/
def aguNums : List AguNum := [0, 1, 2, 3, 4, 5, 6, 7]

/-- All registers a data move can name. -/
def Reg.all : List Reg :=
  aguNums.map .r ++ aguNums.map .n ++ aguNums.map .m ++
  [.mul .x0, .mul .x1, .mul .y0, .mul .y1,
   .acc .a, .acc .b, .ext .a, .ext .b, .high .a, .high .b, .low .a, .low .b, .sr, .mr, .pc]

/-- The register a word names. -/
def regOf (w : Text) : Option Reg := Reg.all.find? fun q => q.name == w

/-- A memory space's letter (R54). -/
def Space.name : Space → Text
  | .x => [120]
  | .y => [121]

/-! ### Numbers and expressions (R55, D27, D28) -/

/-- The value of a digit in base 10 or 16. -/
def digitOf (base : Nat) (c : Byte) : Option Nat :=
  let d := if 48 ≤ c && c ≤ 57 then c.toNat - 48 else if 97 ≤ c && c ≤ 102 then c.toNat - 87 else 16
  if d < base then some d else none

/-- Digits read after the value `v`. -/
def digitsFrom (base : Nat) (v : Nat) : Text → Option Nat
  | [] => some v
  | c :: cs =>
    match digitOf base c with
    | some d => digitsFrom base (v * base + d) cs
    | none => none

/-- A number: decimal digits, or `$` and hexadecimal digits (R4). -/
def numberOf : Text → Option Nat
  | [] => none
  | c :: cs =>
    if c == 36 then (if cs.isEmpty then none else digitsFrom 16 0 cs)
    else digitsFrom 10 0 (c :: cs)

/-- A decimal fraction `digits.digits`: its digits as one number, and how many follow the point less one (D28). -/
def fractionOf (w : Text) : Option (Nat × Nat) :=
  let whole := w.takeWhile (· != 46)
  match w.dropWhile (· != 46) with
  | _ :: c :: cs =>
    if whole.isEmpty then none
    else (digitsFrom 10 0 (whole ++ c :: cs)).map fun v => (v, cs.length)
  | _ => none

/-- The values of symbols: `equ` names and labels (R7, R60). -/
abbrev Symbols := List (Text × Imm)

/-- The value of a symbol. -/
def symbolOf (env : Symbols) (w : Text) : Option Imm := (env.find? fun p => p.1 == w).map (·.2)

/-- The integer a word stands for in an expression. -/
def integerOf (env : Symbols) (w : Text) : Option Int :=
  match numberOf w with
  | some v => some v
  | none =>
    match symbolOf env w with
    | some (.int v) => some v
    | some (.frac _ _) => none
    | none => none

/-- Exact integer division; a division that is not exact is refused (D27). -/
def exactDiv (u v : Int) : Option Int := if v ≠ 0 ∧ u % v = 0 then some (u / v) else none

/-- `@cvi(@log(p)/@log(2)+0.5)` is `log2 p` for `p` a power of two and is refused otherwise (D27). -/
def exactLog2 (p : Int) : Option Int :=
  if 0 < p ∧ (2 : Int) ^ p.toNat.log2 = p then some p.toNat.log2 else none

/-- What part of an expression is being read: a sum, a product, a factor, or the rest of a sum or product. -/
inductive ExprPart
  | sum
  | sumRest (v : Int)
  | product
  | productRest (v : Int)
  | factor

/-- Read an integer expression of `+ - * /`, parentheses, numbers, symbols and the `@cvi` idiom (R55), with its
value and the tokens after it. The first argument bounds the depth. -/
def readExpr (env : Symbols) : Nat → ExprPart → List Token → Option (Int × List Token)
  | 0, _, _ => none
  | f + 1, .sum, ts =>
    match readExpr env f .product ts with
    | some (v, ts) => readExpr env f (.sumRest v) ts
    | none => none
  | f + 1, .sumRest v, ts =>
    match ts with
    | .plus :: ts =>
      match readExpr env f .product ts with
      | some (u, ts) => readExpr env f (.sumRest (v + u)) ts
      | none => none
    | .minus :: ts =>
      match readExpr env f .product ts with
      | some (u, ts) => readExpr env f (.sumRest (v - u)) ts
      | none => none
    | ts => some (v, ts)
  | f + 1, .product, ts =>
    match readExpr env f .factor ts with
    | some (v, ts) => readExpr env f (.productRest v) ts
    | none => none
  | f + 1, .productRest v, ts =>
    match ts with
    | .star :: ts =>
      match readExpr env f .factor ts with
      | some (u, ts) => readExpr env f (.productRest (v * u)) ts
      | none => none
    | .slash :: ts =>
      match readExpr env f .factor ts with
      | some (u, ts) =>
        match exactDiv v u with
        | some w => readExpr env f (.productRest w) ts
        | none => none
      | none => none
    | ts => some (v, ts)
  | f + 1, .factor, ts =>
    match ts with
    | .minus :: ts =>
      match readExpr env f .factor ts with
      | some (v, ts) => some (-v, ts)
      | none => none
    | .lparen :: ts =>
      match readExpr env f .sum ts with
      | some (v, .rparen :: ts) => some (v, ts)
      | _ => none
    | .word w :: .lparen :: .word g :: .lparen :: ts =>
      if w == text "@cvi" && g == text "@log" then
        match readExpr env f .sum ts with
        | some (p, .rparen :: .slash :: .word h :: .lparen :: .word two :: .rparen :: .plus :: .word half :: .rparen :: ts) =>
          if h == text "@log" && two == text "2" && half == text "0.5" then
            (exactLog2 p).map fun v => (v, ts)
          else none
        | _ => none
      else none
    | .word w :: ts => (integerOf env w).map fun v => (v, ts)
    | _ => none

/-- Read an integer expression. -/
def readInt (env : Symbols) (ts : List Token) : Option (Int × List Token) :=
  readExpr env (4 * ts.length + 8) .sum (dropGaps ts)

/-- Read an integer expression whose value is not negative. -/
def readNat (env : Symbols) (ts : List Token) : Option (Nat × List Token) :=
  match readInt env ts with
  | some (.ofNat v, ts) => some (v, ts)
  | some (.negSucc _, _) => none
  | none => none

/-- A fraction: a decimal literal, or a symbol that has a fractional value. -/
def readFraction (env : Symbols) (w : Text) : Option (Int × Nat) :=
  match fractionOf w with
  | some (v, k) => some (v, k)
  | none =>
    match symbolOf env w with
    | some (.frac v k) => some (v, k)
    | some (.int _) => none
    | none => none

/-- Read an immediate's expression: a fraction with an optional minus sign, or an integer expression (R55). -/
def readImm (env : Symbols) (ts : List Token) : Option (Imm × List Token) :=
  let asInt := (readInt env ts).map fun p => (Imm.int p.1, p.2)
  match dropGaps ts with
  | .minus :: .word w :: rest =>
    match readFraction env w with
    | some (v, k) => some (.frac (-v) k, rest)
    | none => asInt
  | .word w :: rest =>
    match readFraction env w with
    | some (v, k) => some (.frac v k, rest)
    | none => asInt
  | _ => asInt

/-! ### Operands (R54, R56, R57) -/

/-- Why a statement's text is rejected. Each is safe: the model gives the text no meaning. -/
inductive DecodeError
  /-- No statement stands in the text. -/
  | emptyStatement
  /-- The mnemonic is not one of the fifteen of R58: `REFUSE(notInSource)` (R129, D1). -/
  | notInSource
  /-- The operands are of no shape that R55 to R57 list: `REFUSE(notInSource)` (D1). -/
  | operandShape
  /-- An L: reference: `REFUSE(longSpace)` (R33, R57, D13). -/
  | longSpace
  /-- A P: data reference (R40, R57, D16). -/
  | programSpace
  /-- The instruction is of a shape of the source but not well formed. -/
  | illFormed (f : IllFormed)
  deriving DecidableEq, Repr

/-- Read a register name. -/
def readReg : List Token → Option (Reg × List Token)
  | .word w :: ts => (regOf w).map fun q => (q, ts)
  | _ => none

/-- Read a multiplier input. -/
def readMul : List Token → Option (MulReg × List Token)
  | .word w :: ts =>
    match regOf w with
    | some (.mul q) => some (q, ts)
    | _ => none
  | _ => none

/-- Read a whole accumulator. -/
def readAcc : List Token → Option (AccName × List Token)
  | .word w :: ts =>
    match regOf w with
    | some (.acc d) => some (d, ts)
    | _ => none
  | _ => none

/-- The word names an offset register. -/
def isOffset (w : Text) : Bool :=
  match regOf w with
  | some (.n _) => true
  | _ => false

/-- The next token is a comma. -/
def startsComma : List Token → Bool
  | .comma :: _ => true
  | _ => false

/-- After the mode of a store a second move may follow, so that a blank after a sign can separate: it does unless an
offset register follows that is not itself the source of a move. `a,x:(r5) + n5 y:(r1)+,y1` names the offset `n5`;
`a,x:(r5)+ n5,y:(r1)` stores `n5` in Y: (DESIGN CHOICE, log entry 27). -/
def settle : List Token → List Token
  | [] => []
  | .gap :: .word w :: ts =>
    if isOffset w && !startsComma ts then .word w :: settle ts else .gap :: .word w :: settle ts
  | .gap :: ts => settle ts
  | t :: ts => t :: settle ts

/-- What follows the closing parenthesis of `(Rn)`: `+`, `-`, `+Nn`, `-Nn` or nothing (R54). -/
def readUpdate (k : AguNum) (ts : List Token) : Option (Ea × List Token) :=
  match ts with
  | .plus :: .gap :: rest => some (⟨.postInc, k⟩, rest)
  | .plus :: .word w :: rest => if regOf w = some (.n k) then some (⟨.postIncN, k⟩, rest) else none
  | .plus :: rest => some (⟨.postInc, k⟩, rest)
  | .minus :: .gap :: rest => some (⟨.postDec, k⟩, rest)
  | .minus :: .word w :: rest => if regOf w = some (.n k) then some (⟨.postDecN, k⟩, rest) else none
  | .minus :: rest => some (⟨.postDec, k⟩, rest)
  | rest => some (⟨.noUpdate, k⟩, rest)

/-- Read an addressing mode (R54). -/
def readEa (ts : List Token) : Option (Ea × List Token) :=
  match ts with
  | .minus :: .lparen :: .word w :: .rparen :: rest =>
    match regOf w with
    | some (.r k) => some (⟨.preDec, k⟩, rest)
    | _ => none
  | .lparen :: .word w :: .plus :: .word v :: .rparen :: rest =>
    match regOf w, regOf v with
    | some (.r k), some (.n j) => if j = k then some (⟨.indexed, k⟩, rest) else none
    | _, _ => none
  | .lparen :: .word w :: .rparen :: rest =>
    match regOf w with
    | some (.r k) => readUpdate k rest
    | _ => none
  | _ => none

/-- The memory space a prefix names; `l:` and `p:` are rejected by name (R33, R40). -/
def spaceOf (w : Text) : Except DecodeError Space :=
  if w == text "x" then .ok .x
  else if w == text "y" then .ok .y
  else if w == text "l" then .error .longSpace
  else if w == text "p" then .error .programSpace
  else .error .operandShape

/-- One data move: a register-to-register transfer or a memory move in one space. -/
inductive OneMove
  | regs (src dst : Reg)
  | mem (sp : Space) (mm : MemMove)

/-- Read the addressing mode after a space prefix. -/
def readSpaced (w : Text) (ts : List Token) : Except DecodeError ((Space × Ea) × List Token) :=
  match spaceOf w with
  | .error e => .error e
  | .ok sp =>
    match readEa ts with
    | some (e, ts) => .ok ((sp, e), ts)
    | none => .error .operandShape

/-- Read one data move: `x:ea,D`, `S,x:ea`, the same in Y:, or `S,D` (R57). -/
def readOneMove (ts : List Token) : Except DecodeError (OneMove × List Token) :=
  match ts with
  | .word w :: .colon :: rest =>
    match readSpaced w (dropGaps rest) with
    | .error e => .error e
    | .ok ((sp, e), .comma :: rest) =>
      match readReg rest with
      | some (d, rest) => .ok (.mem sp (.load e d), rest)
      | none => .error .operandShape
    | .ok _ => .error .operandShape
  | .word w :: .comma :: .word v :: .colon :: rest =>
    match regOf w with
    | none => .error .operandShape
    | some s =>
      match readSpaced v (settle rest) with
      | .error e => .error e
      | .ok ((sp, e), rest) => .ok (.mem sp (.store s e), rest)
  | .word w :: .comma :: .word v :: rest =>
    match regOf w, regOf v with
    | some s, some d => .ok (.regs s d, rest)
    | _, _ => .error .operandShape
  | _ => .error .operandShape

/-- Read the move field to the end of the statement: forms I, R, U, X, Y, XY, RY, or none (R57). -/
def readMoves (env : Symbols) (ts : List Token) : Except DecodeError Moves :=
  match ts with
  | [] => .ok .none
  | .hash :: ts =>
    match readImm env ts with
    | some (v, .comma :: ts) =>
      match readReg ts with
      | some (d, []) => .ok (.i v d)
      | _ => .error .operandShape
    | _ => .error .operandShape
  | .lparen :: _ | .minus :: _ =>
    match readEa (dropGaps ts) with
    | some (e, []) => .ok (.u e)
    | _ => .error .operandShape
  | ts =>
    match readOneMove ts with
    | .error e => .error e
    | .ok (.regs s d, []) => .ok (.r s d)
    | .ok (.mem .x mm, []) => .ok (.x mm)
    | .ok (.mem .y mm, []) => .ok (.y mm)
    | .ok (.regs s d, rest) =>
      match readOneMove rest with
      | .error e => .error e
      | .ok (.mem .y my, []) => .ok (.ry s d my)
      | .ok _ => .error .operandShape
    | .ok (.mem .x mx, rest) =>
      match readOneMove rest with
      | .error e => .error e
      | .ok (.mem .y my, []) => .ok (.xy mx my)
      | .ok _ => .error .operandShape
    | .ok (.mem .y _, _) => .error .operandShape

/-! ### Statements (R53, R113 to R128) -/

/-- The operands of MOVE: a move field of any form but RY (R113). -/
def readMove (env : Symbols) (ts : List Token) : Except DecodeError Instr :=
  match readMoves env ts with
  | .error e => .error e
  | .ok (.i v d) => .ok (.moveI v d)
  | .ok (.r s d) => .ok (.moveR s d)
  | .ok (.u e) => .ok (.moveU e)
  | .ok (.x mm) => .ok (.moveX mm)
  | .ok (.y mm) => .ok (.moveY mm)
  | .ok (.xy mx my) => .ok (.moveXY mx my)
  | .ok .none => .error .operandShape
  | .ok (.ry _ _ _) => .error .operandShape

/-- An optional minus sign before a product (R56). -/
def readSign : List Token → Bool × List Token
  | .minus :: .gap :: ts => (true, ts)
  | .minus :: ts => (true, ts)
  | ts => (false, ts)

/-- The operands `[-]S1,S2,D [moves]` of MAC, MACR and MPY. -/
def readProduct (env : Symbols) (mk : Bool → MulReg → MulReg → AccName → Moves → Instr) (ts : List Token) :
    Except DecodeError Instr :=
  match readSign ts with
  | (neg, ts) =>
    match readMul ts with
    | some (p, .comma :: ts) =>
      match readMul ts with
      | some (q, .comma :: ts) =>
        match readAcc ts with
        | some (d, ts) => (readMoves env ts).map (mk neg p q d)
        | none => .error .operandShape
      | _ => .error .operandShape
    | _ => .error .operandShape

/-- The operands `D [moves]` of CLR, RND, LSL and LSR. -/
def readOneAcc (env : Symbols) (mk : AccName → Moves → Instr) (ts : List Token) : Except DecodeError Instr :=
  match readAcc ts with
  | some (d, ts) => (readMoves env ts).map (mk d)
  | none => .error .operandShape

/-- The operands `S,D [moves]` of SUBL. -/
def readTwoAcc (env : Symbols) (ts : List Token) : Except DecodeError Instr :=
  match readAcc ts with
  | some (s, .comma :: ts) =>
    match readAcc ts with
    | some (d, ts) => (readMoves env ts).map (.subl s d)
    | none => .error .operandShape
  | _ => .error .operandShape

/-- A 16-bit absolute address to the end of an operand (R56). -/
def readAddress (env : Symbols) (ts : List Token) : Option (Addr × List Token) :=
  match readNat env ts with
  | some (v, ts) => if v < 65536 then some (BitVec.ofNat 16 v, ts) else none
  | none => none

/-- The operands of MOVEP: `y:pp,D`, `y:pp,x:ea` or `S,y:pp` (R123). -/
def readMovep (env : Symbols) (ts : List Token) : Except DecodeError Instr :=
  match ts with
  | .word w :: .colon :: ts =>
    if w == text "y" then
      match readAddress env ts with
      | some (pp, .comma :: .word v :: .colon :: ts) =>
        match readSpaced v ts with
        | .error e => .error e
        | .ok ((.x, e), []) => .ok (.movepMem pp e)
        | .ok _ => .error .operandShape
      | some (pp, .comma :: ts) =>
        match readReg ts with
        | some (d, []) => .ok (.movepReg pp d)
        | _ => .error .operandShape
      | _ => .error .operandShape
    else .error .operandShape
  | .word w :: .comma :: .word v :: .colon :: ts =>
    if v == text "y" then
      match regOf w, readAddress env ts with
      | some s, some (pp, []) => .ok (.movepOut s pp)
      | _, _ => .error .operandShape
    else .error .operandShape
  | _ => .error .operandShape

/-- The operands `ea,Rd` of LUA (R124). -/
def readLua (ts : List Token) : Except DecodeError Instr :=
  match readEa (dropGaps ts) with
  | some (e, .comma :: ts) =>
    match readReg ts with
    | some (.r d, []) => .ok (.lua e d)
    | _ => .error .operandShape
  | _ => .error .operandShape

/-- The operand `#expr` of REP (R126). -/
def readRep (env : Symbols) (ts : List Token) : Except DecodeError Instr :=
  match ts with
  | .hash :: ts =>
    match readNat env ts with
    | some (c, []) => .ok (.rep c)
    | _ => .error .operandShape
  | _ => .error .operandShape

/-- The operands `#expr,label` or `S,label` of DO (R127). The rule shows labels only: whatever the target is written as,
a label, a number, an expression or an `equ` symbol, its value is the number of a statement (DESIGN CHOICE, log entry
13). -/
def readDo (env : Symbols) (ts : List Token) : Except DecodeError Instr :=
  match ts with
  | .hash :: ts =>
    match readNat env ts with
    | some (c, .comma :: ts) =>
      match readNat env ts with
      | some (l, []) => .ok (.doImm c l)
      | _ => .error .operandShape
    | _ => .error .operandShape
  | ts =>
    match readReg ts with
    | some (s, .comma :: ts) =>
      match readNat env ts with
      | some (l, []) => .ok (.doReg s l)
      | _ => .error .operandShape
    | _ => .error .operandShape

/-- The operand `label` of JMP (R128). The rule shows labels only: whatever the target is written as, its value is the
number of a statement (DESIGN CHOICE, log entry 13). -/
def readJmp (env : Symbols) (ts : List Token) : Except DecodeError Instr :=
  match readNat env ts with
  | some (l, []) => .ok (.jmp l)
  | _ => .error .operandShape

/-- The operands `#mask,mr` of ORI (R125). -/
def readOri (env : Symbols) (ts : List Token) : Except DecodeError Instr :=
  match ts with
  | .hash :: ts =>
    match readNat env ts with
    | some (v, [.comma, .word w]) =>
      if w == text "mr" && v < 256 then .ok (.ori (BitVec.ofNat 8 v)) else .error .operandShape
    | _ => .error .operandShape
  | _ => .error .operandShape

/-- The operands of each mnemonic. -/
def readOperands (env : Symbols) (q : Mnemonic) (ts : List Token) : Except DecodeError Instr :=
  match q with
  | .move => readMove env ts
  | .clr => readOneAcc env .clr ts
  | .mac => readProduct env .mac ts
  | .macr => readProduct env .macr ts
  | .mpy => readProduct env .mpy ts
  | .rnd => readOneAcc env .rnd ts
  | .subl => readTwoAcc env ts
  | .lsl => readOneAcc env .lsl ts
  | .lsr => readOneAcc env .lsr ts
  | .movep => readMovep env ts
  | .lua => readLua ts
  | .rep => readRep env ts
  | .do_ => readDo env ts
  | .jmp => readJmp env ts
  | .ori => readOri env ts

/-- The text starts at the left margin. -/
def atMargin : Text → Bool
  | [] => false
  | c :: _ => !isBlank c

/-- Drop the label field: a first word that is no mnemonic, before one that is (R53). -/
def dropLabel (ts : List Token) : List Token :=
  match ts with
  | .word w :: .word v :: rest =>
    if (mnemonicOf w).isNone && (mnemonicOf v).isSome then .word v :: rest else ts
  | ts => ts

/-- The tokens of one statement's text, without the label field, which stands at the left margin only (R53). -/
def statementTokens (t : Text) : List Token := if atMargin t then dropLabel (lex t) else lex t

/-- Read the tokens of one statement, without its label, into an instruction, well formed or not. -/
def parse (env : Symbols) (ts : List Token) : Except DecodeError Instr :=
  match ts with
  | [] => .error .emptyStatement
  | .word w :: rest =>
    match mnemonicOf w with
    | some q => readOperands env q rest
    | none => .error .notInSource
  | _ => .error .notInSource

/-- Keep an instruction only if it is well formed. -/
def checked (i : Instr) : Except DecodeError Instr :=
  match i.illFormed with
  | some f => .error (.illFormed f)
  | none => .ok i

/-- Decode the text of one statement, its symbols standing for the values `env` gives them. -/
def decodeWith (env : Symbols) (t : Text) : Except DecodeError Instr :=
  match parse env (statementTokens t) with
  | .error e => .error e
  | .ok i => checked i

/-- Decode the text of one statement whose symbols are all resolved, as a program in memory holds it. -/
def decode (t : Text) : Except DecodeError Instr := decodeWith [] t

/-! ### The encoder -/

/-- The characters of a token. -/
def Token.text : Token → Text
  | .word w => w
  | .hash => [35]
  | .comma => [44]
  | .colon => [58]
  | .lparen => [40]
  | .rparen => [41]
  | .plus => [43]
  | .minus => [45]
  | .star => [42]
  | .slash => [47]
  | .gap => [32]
  | .other c => [c]

/-- The text of a list of tokens. -/
def render (ts : List Token) : Text := ts.flatMap Token.text

/-- Decimal digits of `n`, the first argument bounding their number. -/
def decimalGo : Nat → Nat → Text
  | 0, _ => []
  | f + 1, n =>
    if n < 10 then [BitVec.ofNat 8 (48 + n)]
    else decimalGo f (n / 10) ++ [BitVec.ofNat 8 (48 + n % 10)]

/-- A natural number in decimal. -/
def decimal (n : Nat) : Text := decimalGo (n + 1) n

/-- The last `k` decimal digits of `n`. -/
def lastDigits : Nat → Nat → Text
  | 0, _ => []
  | k + 1, n => lastDigits k (n / 10) ++ [BitVec.ofNat 8 (48 + n % 10)]

/-- A number. -/
def natTokens (n : Nat) : List Token := [.word (decimal n)]

/-- The minus sign of a negative number. -/
def signTokens (neg : Bool) : List Token := if neg then [.minus] else []

/-- An immediate's expression (R55). -/
def Imm.tokens : Imm → List Token
  | .int v => signTokens (decide (v < 0)) ++ natTokens v.natAbs
  | .frac v k =>
    signTokens (decide (v < 0)) ++
      [.word (decimal (v.natAbs / 10 ^ (k + 1)) ++ 46 :: lastDigits (k + 1) v.natAbs)]

/-- An addressing mode (R54). -/
def Ea.tokens (e : Ea) : List Token :=
  let r := Token.word (Reg.r e.k).name
  let n := Token.word (Reg.n e.k).name
  match e.mode with
  | .noUpdate => [.lparen, r, .rparen]
  | .postInc => [.lparen, r, .rparen, .plus]
  | .postDec => [.lparen, r, .rparen, .minus]
  | .postIncN => [.lparen, r, .rparen, .plus, n]
  | .postDecN => [.lparen, r, .rparen, .minus, n]
  | .indexed => [.lparen, r, .plus, n, .rparen]
  | .preDec => [.minus, .lparen, r, .rparen]

/-- A register name. -/
def regToken (q : Reg) : Token := .word q.name

/-- A memory move in one space (R57). -/
def MemMove.tokens (sp : Space) : MemMove → List Token
  | .load e d => [.word sp.name, .colon] ++ e.tokens ++ [.comma, regToken d]
  | .store s e => [regToken s, .comma, .word sp.name, .colon] ++ e.tokens

/-- The move field, without the blank before it. -/
def Moves.tokens : Moves → List Token
  | .none => []
  | .i v d => [.hash] ++ v.tokens ++ [.comma, regToken d]
  | .r s d => [regToken s, .comma, regToken d]
  | .u e => e.tokens
  | .x mm => mm.tokens .x
  | .y mm => mm.tokens .y
  | .xy mx my => mx.tokens .x ++ [.gap] ++ my.tokens .y
  | .ry s d my => [regToken s, .comma, regToken d, .gap] ++ my.tokens .y

/-- The move field after an operand field, with the blank between them (R53). -/
def Moves.field : Moves → List Token
  | .none => []
  | mv => .gap :: mv.tokens

/-- The operands of a product instruction. -/
def productTokens (neg : Bool) (p q : MulReg) (d : AccName) (mv : Moves) : List Token :=
  signTokens neg ++ [regToken (.mul p), .comma, regToken (.mul q), .comma, regToken (.acc d)] ++ mv.field

/-- An instruction's mnemonic. -/
def Instr.mnemonic : Instr → Mnemonic
  | .moveI _ _ | .moveR _ _ | .moveU _ | .moveX _ | .moveY _ | .moveXY _ _ => .move
  | .clr _ _ => .clr
  | .mac _ _ _ _ _ => .mac
  | .macr _ _ _ _ _ => .macr
  | .mpy _ _ _ _ _ => .mpy
  | .rnd _ _ => .rnd
  | .subl _ _ _ => .subl
  | .lsl _ _ => .lsl
  | .lsr _ _ => .lsr
  | .movepReg _ _ | .movepMem _ _ | .movepOut _ _ => .movep
  | .lua _ _ => .lua
  | .rep _ => .rep
  | .doImm _ _ | .doReg _ _ => .do_
  | .jmp _ => .jmp
  | .ori _ => .ori

/-- An instruction's operands and move field. -/
def Instr.operands : Instr → List Token
  | .moveI v d => (Moves.i v d).tokens
  | .moveR s d => (Moves.r s d).tokens
  | .moveU e => (Moves.u e).tokens
  | .moveX mm => (Moves.x mm).tokens
  | .moveY mm => (Moves.y mm).tokens
  | .moveXY mx my => (Moves.xy mx my).tokens
  | .clr d mv | .rnd d mv | .lsl d mv | .lsr d mv => [regToken (.acc d)] ++ mv.field
  | .mac neg p q d mv | .macr neg p q d mv | .mpy neg p q d mv => productTokens neg p q d mv
  | .subl s d mv => [regToken (.acc s), .comma, regToken (.acc d)] ++ mv.field
  | .movepReg pp d => [.word Space.y.name, .colon] ++ natTokens pp.toNat ++ [.comma, regToken d]
  | .movepMem pp e =>
    [.word Space.y.name, .colon] ++ natTokens pp.toNat ++ [.comma, .word Space.x.name, .colon] ++ e.tokens
  | .movepOut s pp => [regToken s, .comma, .word Space.y.name, .colon] ++ natTokens pp.toNat
  | .lua e d => e.tokens ++ [.comma, regToken (.r d)]
  | .rep c => [.hash] ++ natTokens c
  | .doImm c l => [.hash] ++ natTokens c ++ [.comma] ++ natTokens l
  | .doReg s l => [regToken s, .comma] ++ natTokens l
  | .jmp l => natTokens l
  | .ori v => [.hash] ++ natTokens v.toNat ++ [.comma, .word (text "mr")]

/-- The whole statement. -/
def Instr.tokens (i : Instr) : List Token := [.word i.mnemonic.name, .gap] ++ i.operands

/-- Encode an instruction as the text of one statement. -/
def encode (i : Instr) : Text := render i.tokens

/-! ### Words numbered as the opcode table numbers them -/

/-- The first `n` bytes of a word, its least significant byte first. -/
def bytesOf : Nat → Nat → Text
  | 0, _ => []
  | n + 1, w => BitVec.ofNat 8 (w % 256) :: bytesOf n (w / 256)

/-- The instruction read from a statement's text given as one number, its first character in the lowest eight bits.
The opcode table gives no bit of any row (R50), so no word of it decodes (log entry 1). -/
def decodeTableWord (nbits w : Nat) : Option Instr :=
  match decode (bytesOf (nbits / 8) w) with
  | .ok i => some i
  | .error _ => none

end Sys2Proof
end

