-- ==== Sys2Proof/Machine/State.lean ====
section
/-! DEFINITION. The state of the machine as plain data, the reasons a step can stop, and the state at the start of a
run (R10 to R19, R28, R36, R160, R161). -/

namespace Sys2Proof.Machine

/-- A data memory: the words that differ from what an unlisted address reads as, at strictly rising addresses. -/
abbrev Memory := List (Nat × Word)

/-- What the launch state fixes for a whole run (R3, R31, R36, R37, R161, D15, D19, D22, D26): which addresses of X: and
Y: hold memory, as ranges `(first, last)`; which addresses are device registers; where the program text stands in P:
(`ENTRY`); how many locations the system stack has (`STACKDEPTH`). -/
structure Launch where
  xRam : List (Nat × Nat)
  yRam : List (Nat × Nat)
  periph : List (Space × Nat)
  entry : Addr
  stackDepth : Nat
  deriving DecidableEq, Repr

/-- One active DO loop: how many times its body has still to run, and its first and last statement (R19, R127). -/
structure LoopRecord where
  count : Nat
  first : Nat
  last : Nat
  deriving DecidableEq, Repr

/-- What the outside world sees of an access to a device register (R36, R148). -/
inductive Event
  | input (sp : Space) (a : Addr) (v : Word)
  | output (sp : Space) (a : Addr) (v : Word)
  deriving DecidableEq, Repr

/-- The machine. -/
structure State where
  /-- The address registers `R0` to `R7` (R11, R12). -/
  r : Vector Addr 8
  /-- The offset registers `N0` to `N7` (R11, R13). -/
  n : Vector Addr 8
  /-- The modifier registers `M0` to `M7` (R11, R14). -/
  m : Vector Addr 8
  /-- The multiplier inputs (R15). -/
  x0 : Word
  x1 : Word
  y0 : Word
  y1 : Word
  /-- The accumulators, each in its three parts (R15). -/
  a : Acc
  b : Acc
  /-- The number of the next statement (R16, D1). -/
  pc : Nat
  /-- The status register; `mr` is its upper byte (R17). -/
  sr : Status
  /-- The active DO loops, innermost first (R18, R19). -/
  loops : List LoopRecord
  /-- How many times the statement at `pc` has still to run under REP (R19, R126). -/
  rep : Option Nat
  /-- The AGU numbers the statement before wrote by a data move or LUA (R165). -/
  aguWritten : List AguNum
  /-- The program: the text of each statement, symbols resolved (R50, D1). -/
  prog : List Text
  /-- X: and Y: data memory (R30, R31). -/
  xmem : Memory
  ymem : Memory
  /-- Accesses to device registers, oldest first (R36). -/
  events : List Event
  /-- The model's own: how many statements have run, from which every draw takes its number (log entry 4). -/
  draws : Nat
  /-- What the launch fixed. -/
  launch : Launch
  deriving DecidableEq, Repr

/-- Why a run stops with no step (the spec's "stuck"). -/
inductive Fault
  /-- An access to an address that is neither allocated memory nor a device register (R114, R37, D15). Raised by data
  moves and MOVEP. Safe: the model lacks a step the chip may have. -/
  | unallocated (sp : Space) (a : Addr)
  /-- The pc has passed the last statement of the program (R162, D21). Raised by `step`. Safe: nothing is claimed of
  the chip beyond that point. -/
  | endOfRun
  deriving DecidableEq, Repr

/-- Why the model gives a statement no meaning (the spec's `REFUSE`). All are safe. -/
inductive Refusal
  /-- An instruction whose arm of `exec` has no meaning yet; no arm is one. -/
  | notModelled (mnemonic : String)
  /-- The text at the pc is not a statement of the source (R57 to R59, R129). Raised by `step`. -/
  | undecoded (e : DecodeError)
  /-- Address arithmetic with a modifier of `$8000` to `$FFFE` (R95). Raised by modes that compute, and LUA. -/
  | reservedModifier
  /-- The address of the access in mode `(Rn+Nn)` is unpredictable (R77, R97). Raised by data moves and MOVEP. -/
  | unpredictableAddress
  /-- Address generation with registers of a number the statement before wrote (R165). Raised by modes and LUA. -/
  | aguWriteThenUse
  /-- DO with count zero (R127). -/
  | doCountZero
  /-- REP with count zero (R126). -/
  | repCountZero
  /-- DO with no free system-stack locations (R127). -/
  | stackOverflow
  /-- REP, DO or JMP as the last or next-to-last statement of a DO body; a DO that is its own body's end (R166). -/
  | loopEndRestriction
  /-- DO whose last statement is that of an active loop (R127, R166). -/
  | sharedLoopEnd
  /-- DO whose label stands at or before it (R127). -/
  | labelBeforeDo
  /-- JMP while a loop is active (R128, R166). -/
  | jumpFromLoop
  /-- REP, DO, JMP or MOVEP repeated by REP (R126, R166). -/
  | repeatedControl
  /-- MOVEP to an address that is no device register (R123). -/
  | notPeripheral
  /-- An ordinary move to or from a device register (D26, U21). Raised by data moves. -/
  | peripheralMove
  deriving DecidableEq, Repr

/-- The launch parameters at the start of a run with nothing placed, each the model's choice where the spec has an open
parameter: all of X: and Y: is memory (DESIGN CHOICE, log entry 5); the device registers are the four addresses the
listings use (R37, R148; DESIGN CHOICE, log entry 6); `ENTRY` is `$40`, as in the listings (D19; DESIGN CHOICE, log
entry 7); the system stack has 15 locations (D22; PRESUMED, G12, log entry 14). -/
def Launch.reset : Launch where
  xRam := [(0, 65535)]
  yRam := [(0, 65535)]
  periph := [(.y, 0xFFC0), (.y, 0xFFC1), (.y, 0xFFE0), (.y, 0xFFE1)]
  entry := 0x40
  stackDepth := 15

/-- The machine at the start of a run. The source gives no reset value (R28, R160); log entry 3 names each value taken
here: `Mn` linear and `mr` = 3 (PRESUMED, the family's), every other register zero (DESIGN CHOICE). No loop is active,
no repeat is active, no program is loaded. -/
def State.reset : State where
  r := Vector.replicate 8 0
  n := Vector.replicate 8 0
  m := Vector.replicate 8 0xFFFF
  x0 := 0
  x1 := 0
  y0 := 0
  y1 := 0
  a := Acc.zero
  b := Acc.zero
  pc := 0
  sr := 0x0300
  loops := []
  rep := none
  aguWritten := []
  prog := []
  xmem := []
  ymem := []
  events := []
  draws := 0
  launch := Launch.reset

end Sys2Proof.Machine
end

