-- ==== Sys2Proof/Machine/Ops.lean ====
section
/-! DEFINITION. The shared operations over registers, memory, device registers and the pc: named updates, reading and
writing a register through `xfer`, reading and writing a word, the writes of a statement made together at its end,
and what follows a statement (the REP counter, the end of a DO body). The spec defines no exception and no return from
one (R140, R143, R144), so there is no such operation. -/

namespace Sys2Proof.Machine

/-! ### Named updates -/

def State.setR (s : State) (k : AguNum) (v : Addr) : State := { s with r := s.r.set k.val v }
def State.setN (s : State) (k : AguNum) (v : Addr) : State := { s with n := s.n.set k.val v }
def State.setM (s : State) (k : AguNum) (v : Addr) : State := { s with m := s.m.set k.val v }

/-- Write a multiplier input. -/
def State.setMul (s : State) (q : MulReg) (v : Word) : State :=
  match q with
  | .x0 => { s with x0 := v }
  | .x1 => { s with x1 := v }
  | .y0 => { s with y0 := v }
  | .y1 => { s with y1 := v }

/-- Write a whole accumulator. -/
def State.setAcc (s : State) (d : AccName) (v : Acc) : State :=
  match d with
  | .a => { s with a := v }
  | .b => { s with b := v }

def State.setSr (s : State) (v : Status) : State := { s with sr := v }

/-- Replace a data memory. -/
def State.setMem (s : State) (sp : Space) (mem : Memory) : State :=
  match sp with
  | .x => { s with xmem := mem }
  | .y => { s with ymem := mem }

def State.addEvent (s : State) (e : Event) : State := { s with events := s.events ++ [e] }
def State.setPc (s : State) (v : Nat) : State := { s with pc := v }
def State.setLoops (s : State) (v : List LoopRecord) : State := { s with loops := v }
def State.setRep (s : State) (v : Option Nat) : State := { s with rep := v }

/-- One more statement has run, and it wrote the AGU numbers `w` by a data move or LUA (R165). -/
def State.ran (s : State) (w : List AguNum) : State := { s with aguWritten := w, draws := s.draws + 1 }

/-! ### Reading registers -/

/-- `R[k]`, `N[k]`, `M[k]`: the AGU registers (R5, R11). -/
def State.R (s : State) (k : AguNum) : Addr := s.r[k.val]
def State.N (s : State) (k : AguNum) : Addr := s.n[k.val]
def State.M (s : State) (k : AguNum) : Addr := s.m[k.val]

/-- The multiplier input `q`. -/
def State.mul (s : State) : MulReg → Word
  | .x0 => s.x0
  | .x1 => s.x1
  | .y0 => s.y0
  | .y1 => s.y1

/-- The accumulator `d`. -/
def State.acc (s : State) : AccName → Acc
  | .a => s.a
  | .b => s.b

/-- `mr`, the upper byte of `sr` (R17; its place is PRESUMED, log entry 2). -/
def mrOf (sr : Status) : BitVec 8 := sr.extractLsb' 8 8

/-- `sr` with `mr` replaced. -/
def withMr (sr : Status) (v : BitVec 8) : Status := v ++ sr.extractLsb' 0 8

/-- The value of a register, tagged with its width (R10 to R17). What a statement reads in `pc` is drawn, the pc being
the number of a statement and no address (R16, D1; DESIGN CHOICE, log entry 25). No well-formed instruction reads `sr`
or `mr`. -/
def State.read (s : State) : Reg → Value
  | .r k => .bits .agu (s.R k)
  | .n k => .bits .agu (s.N k)
  | .m k => .bits .agu (s.M k)
  | .mul q => .bits .word (s.mul q)
  | .acc d => .acc (s.acc d)
  | .ext d => .bits .ext (s.acc d).p2
  | .high d => .bits .high (s.acc d).p1
  | .low d => .bits .low (s.acc d).p0
  | .sr => .bits .status s.sr
  | .mr => .bits .mr (mrOf s.sr)
  | .pc => .bits .pc (Config.drawPc s.draws)

/-- A register's value as an unsigned integer, for the count of DO (R127). -/
def State.unsigned (s : State) : Reg → Nat
  | .r k => (s.R k).toNat
  | .n k => (s.N k).toNat
  | .m k => (s.M k).toNat
  | .mul q => (s.mul q).toNat
  | .acc d => ((s.acc d).p2 ++ (s.acc d).p1 ++ (s.acc d).p0).toNat
  | .ext d => (s.acc d).p2.toNat
  | .high d => (s.acc d).p1.toNat
  | .low d => (s.acc d).p0.toNat
  | .sr => s.sr.toNat
  | .mr => (mrOf s.sr).toNat
  | .pc => (Config.drawPc s.draws).toNat

/-! ### `xfer` (R112) -/

/-- `xfer` into a place of width `w`: the identity on a value of that many bits. (That places of one kind have one
width is tested first, as it can be decided whatever the widths are.) -/
def toBits (w : Width) (src dst : Place) : Value → BitVec w.bits
  | .bits u v =>
    if h : u = w then v.cast (congrArg Width.bits h)
    else if h : u.bits = w.bits then v.cast h
    else Config.xferBits w src dst (.bits u v)
  | .acc v => Config.xferBits w src dst (.acc v)
  | .int i => Config.xferBits w src dst (.int i)
  | .frac q => Config.xferBits w src dst (.frac q)

/-- `xfer` into a 16-bit AGU register: an integer immediate is taken modulo 65536 (R55). -/
def toAgu (src dst : Place) : Value → Addr
  | .int i => BitVec.ofInt 16 i
  | v => toBits .agu src dst v

/-- `xfer` into a word of memory, a multiplier input or a device register. -/
def toWord (src dst : Place) (v : Value) : Word := toBits .word src dst v

/-- `xfer` into a whole accumulator: the identity on an accumulator. -/
def toAcc (src dst : Place) : Value → Acc
  | .acc v => v
  | v => Config.xferAcc src dst v

/-- Write a register with a value transferred from `src`; a part of an accumulator or of `sr` leaves the other parts
(R112). No well-formed instruction writes `pc` so. -/
def State.write (s : State) (d : Reg) (src : Place) (v : Value) : State :=
  match d with
  | .r k => s.setR k (toAgu src (.reg (.r k)) v)
  | .n k => s.setN k (toAgu src (.reg (.n k)) v)
  | .m k => s.setM k (toAgu src (.reg (.m k)) v)
  | .mul q => s.setMul q (toWord src (.reg (.mul q)) v)
  | .acc e => s.setAcc e (toAcc src (.reg (.acc e)) v)
  | .ext e => s.setAcc e { s.acc e with p2 := toBits .ext src (.reg (.ext e)) v }
  | .high e => s.setAcc e { s.acc e with p1 := toBits .high src (.reg (.high e)) v }
  | .low e => s.setAcc e { s.acc e with p0 := toBits .low src (.reg (.low e)) v }
  | .sr => s.setSr (toBits .status src (.reg .sr) v)
  | .mr => s.setSr (withMr s.sr (toBits .mr src (.reg .mr) v))
  | .pc => s

/-! ### Memory (R31, R35 to R39) -/

/-- The word at an address; an unlisted address reads as `Config.blankWord`. -/
def Memory.get : Memory → Nat → Word
  | [], _ => Config.blankWord
  | (k, v) :: rest, a => if k = a then v else Memory.get rest a

/-- The memory without the entry for an address, which then reads as unlisted. -/
def Memory.erase : Memory → Nat → Memory
  | [], _ => []
  | (k, u) :: rest, a => if k = a then Memory.erase rest a else (k, u) :: Memory.erase rest a

/-- The memory with an entry for an address, in its place. -/
def Memory.insert : Memory → Nat → Word → Memory
  | [], a, v => [(a, v)]
  | (k, u) :: rest, a, v =>
    if k < a then (k, u) :: Memory.insert rest a v
    else if k = a then (a, v) :: rest
    else (a, v) :: (k, u) :: rest

/-- Write the word at an address, keeping the canonical form: what an unlisted address reads as is not listed. -/
def Memory.put (mem : Memory) (a : Nat) (v : Word) : Memory :=
  if v = Config.blankWord then mem.erase a else mem.insert a v

/-- The entries lie at strictly rising addresses from `lo` on, below 65536, and none reads as unlisted. -/
def Memory.wfFrom : Nat → Memory → Bool
  | _, [] => true
  | lo, (k, v) :: rest => lo ≤ k && k < 65536 && v != Config.blankWord && Memory.wfFrom (k + 1) rest

/-- The canonical form of a data memory. -/
def Memory.wf (mem : Memory) : Bool := Memory.wfFrom 0 mem

/-- The memory of a space. -/
def State.mem (s : State) : Space → Memory
  | .x => s.xmem
  | .y => s.ymem

/-- The word that memory of a space holds at an address, device registers left aside. -/
def State.peek (s : State) (sp : Space) (a : Addr) : Word := (s.mem sp).get a.toNat

/-- The address is a device register (R36). -/
def State.isPeriph (s : State) (sp : Space) (a : Addr) : Bool := s.launch.periph.contains (sp, a.toNat)

/-- The address ranges of a space that hold memory. -/
def Launch.ram (g : Launch) : Space → List (Nat × Nat)
  | .x => g.xRam
  | .y => g.yRam

/-- The address is allocated memory (R31, R37). -/
def State.isRam (s : State) (sp : Space) (a : Addr) : Bool :=
  (s.launch.ram sp).any fun g => g.1 ≤ a.toNat && a.toNat ≤ g.2

/-- An access has a step only at allocated memory or at a device register (R114, D15). That only MOVEP may make one at a
device register (R123, D26) is `State.memMoveStops`' matter. -/
def State.accessStops (s : State) (sp : Space) (a : Addr) : Option Fault :=
  if s.isPeriph sp a || s.isRam sp a then none else some (.unallocated sp a)

/-- The number of the draw this statement makes on behalf of a space: two for each statement, never used twice. -/
def State.drawIndex (s : State) : Space → Nat
  | .x => 2 * s.draws
  | .y => 2 * s.draws + 1

/-- `MemRead`: the word at an address, a draw at a device register (R36, R114). -/
def State.memRead (s : State) (sp : Space) (a : Addr) : Word :=
  if s.isPeriph sp a then Config.drawWord (s.drawIndex sp) else s.peek sp a

/-! ### The writes of a statement (R111) -/

/-- One write of a statement. -/
inductive Write
  | reg (d : Reg) (src : Place) (v : Value)   -- a data move's destination register
  | acc (d : AccName) (v : Acc)               -- the data ALU's destination
  | status (v : Status)                       -- `sr`
  | ptr (k : AguNum) (v : Addr)               -- an address register updated by a mode or LUA
  | mem (sp : Space) (a : Addr) (v : Word)    -- a word of memory
  | event (e : Event)                         -- an access to a device register

/-- Make one write. -/
def State.apply (s : State) : Write → State
  | .reg d src v => s.write d src v
  | .acc d v => s.setAcc d v
  | .status v => s.setSr v
  | .ptr k v => s.setR k v
  | .mem sp a v => s.setMem sp ((s.mem sp).put a.toNat v)
  | .event e => s.addEvent e

/-- Make the writes of a statement, all computed from the state before it (R111). -/
def State.commit (s : State) (ws : List Write) : State := ws.foldl State.apply s

/-- What a read of an address records: an input event at a device register (R36). -/
def State.readWrites (s : State) (sp : Space) (a : Addr) : List Write :=
  if s.isPeriph sp a then [.event (.input sp a (s.memRead sp a))] else []

/-- `MemWrite`: a word of memory, or an output event at a device register (R36, R114). -/
def State.memWrites (s : State) (sp : Space) (a : Addr) (v : Word) : List Write :=
  if s.isPeriph sp a then [.event (.output sp a v)] else [.mem sp a v]

/-! ### After a statement (R126, R127) -/

/-- Go on to the next statement: back to the first statement of the innermost loop if this was its last and the loop
has more to run; out of the loop if it has not. -/
def State.leave (s : State) : State :=
  match s.loops with
  | top :: rest =>
    if top.last = s.pc then
      if 1 < top.count then (s.setLoops ({ top with count := top.count - 1 } :: rest)).setPc top.first
      else (s.setLoops rest).setPc (s.pc + 1)
    else s.setPc (s.pc + 1)
  | [] => s.setPc (s.pc + 1)

/-- After a statement that does not itself change the pc: run it again while REP has repetitions left. -/
def State.advance (s : State) : State :=
  match s.rep with
  | some c => if 1 < c then s.setRep (some (c - 1)) else (s.setRep none).leave
  | none => s.leave

/-- End a statement that made the writes `ws` and wrote the AGU numbers `w` by a data move or LUA. -/
def State.retire (s : State) (ws : List Write) (w : List AguNum) : State := ((s.commit ws).advance).ran w

/-! ### Stopping -/

/-- Why a statement stops. -/
inductive Halt
  | fault (f : Fault)
  | refuse (f : Refusal)
  deriving DecidableEq, Repr

/-- The outcome of a statement: its stop, or the state after it. -/
def outcome (h : Option Halt) (t : State) : Host.Outcome State Fault Refusal :=
  match h with
  | some (.fault f) => .fault f
  | some (.refuse f) => .refused f
  | none => .next t

/-- The first of two reasons to stop. Which is first is the model's choice, the spec giving no order (log entry 33). -/
def firstHalt (h k : Option Halt) : Option Halt :=
  match h with
  | some x => some x
  | none => k

/-! ### Fetch (D1) -/

/-- The text of the statement at the pc, if the pc has not passed the last one. -/
def State.fetch (s : State) : Option Text := s.prog[s.pc]?

/-- The program with the text `t` at statement `k`. -/
def placeText (p : List Text) (k : Nat) (t : Text) : List Text :=
  p.take k ++ List.replicate (k - p.length) [] ++ t :: p.drop (k + 1)

end Sys2Proof.Machine
end

