-- ==== Sys2Proof/Machine/Agu.lean ====
section
/-! DEFINITION. The address arithmetic `AguAdd` (R90 to R100): linear, modulo and reverse carry, as the modifier selects. -/

namespace Sys2Proof.Machine

/-- What address arithmetic answers (R96). -/
inductive AguResult
  | value (v : Addr)
  | draw             -- `DRAW(16)`: unpredictable, any value
  | reserved         -- `REFUSE(reservedModifier)`
  deriving DecidableEq, Repr

/-- Linear arithmetic, 16 bits, wrapping (R91). -/
def aguLinear (r : Addr) (step : AguStep) (n : Addr) : Addr :=
  match step with
  | .plusOne => r + 1
  | .minusOne => r - 1
  | .plusN => r + n
  | .minusN => r - n

/-- `k`, the least exponent with `2 ^ k ≥ M`, from the modifier `m = M - 1` (R93, D11). -/
def blockBits (m : Addr) : Nat := m.toNat.log2 + 1

/-- `B = 2 ^ k`, the length of a block. -/
def blockSize (m : Addr) : Nat := 2 ^ blockBits m

/-- `M`, the modulus (R92). -/
def modulus (m : Addr) : Nat := m.toNat + 1

/-- The lower boundary: `r` with its `k` low bits cleared (R93). -/
def bufferBase (r m : Addr) : Nat := r.toNat - r.toNat % blockSize m

/-- The upper boundary: the base plus `M - 1` (R92). -/
def bufferUpper (r m : Addr) : Nat := bufferBase r m + m.toNat

/-- A modulo step by `d` with `|d| ≤ M` (R94); a pointer in the gap above the buffer stepped down is a draw (D8). -/
def aguWrap (r : Addr) (d : Int) (m : Addr) : AguResult :=
  if bufferUpper r m < r.toNat ∧ d < 0 then .draw
  else
    let t : Int := r.toNat + d
    if (bufferUpper r m : Int) < t then .value (BitVec.ofInt 16 (t - modulus m))
    else if t < bufferBase r m then .value (BitVec.ofInt 16 (t + modulus m))
    else .value (BitVec.ofInt 16 t)

/-- The offset is a block jump: larger than the modulus and a positive multiple of the block length (R97). -/
def isBlockJump (n m : Addr) : Bool :=
  decide ((modulus m : Int) < n.toInt ∧ n.toInt % blockSize m = 0)

/-- The offset is within the modulus in absolute value (R94). -/
def isProperOffset (n m : Addr) : Bool := n.toInt.natAbs ≤ modulus m

/-- Modulo arithmetic (R92 to R94, R97, R100). -/
def aguModulo (r : Addr) (step : AguStep) (n m : Addr) : AguResult :=
  match step with
  | .plusOne => aguWrap r 1 m
  | .minusOne => aguWrap r (-1) m
  | .plusN =>
    if isProperOffset n m then aguWrap r n.toInt m
    else if isBlockJump n m then .value (r + n) else .draw
  | .minusN =>
    if isProperOffset n m then aguWrap r (-n.toInt) m
    else if isBlockJump n m then .value (r - n) else .draw

/-- Reverse-carry arithmetic (R98): step `+N` adds with the carry going down; the other steps are a parameter, to which
the steps of one give no offset, as they ignore it (R96). -/
def aguReverse (r : Addr) (step : AguStep) (n : Addr) : Addr :=
  match step with
  | .plusN => (r.reverse + n.reverse).reverse
  | .plusOne => Config.revCarryOther r .plusOne 0
  | .minusOne => Config.revCarryOther r .minusOne 0
  | .minusN => Config.revCarryOther r .minusN n

/-- The modifier selects linear arithmetic (R14, R90). -/
def isLinear (m : Addr) : Bool := m == 0xFFFF
/-- The modifier selects modulo arithmetic (R14, R90). -/
def isModulo (m : Addr) : Bool := 1 ≤ m.toNat && m.toNat ≤ 0x7FFF
/-- The modifier selects reverse-carry arithmetic (R14, R90). -/
def isReverse (m : Addr) : Bool := m == 0
/-- The modifier is reserved (R14, R95). -/
def isReserved (m : Addr) : Bool := 0x8000 ≤ m.toNat && m.toNat ≤ 0xFFFE

/-- `AguAdd (r, step, N, m)` (R96). -/
def aguAdd (r : Addr) (step : AguStep) (n m : Addr) : AguResult :=
  if isLinear m then .value (aguLinear r step n)
  else if isModulo m then aguModulo r step n m
  else if isReverse m then .value (aguReverse r step n)
  else .reserved

/-- The sum of mode `(Rn+Nn)`: `AguAdd` with the step `+N` (R77), but under reverse carry the parameter (U4). -/
def aguIndexed (r n m : Addr) : AguResult :=
  if isReverse m then .value (Config.revCarryOther r .plusN n) else aguAdd r .plusN n m

/-- The value of a result, a draw taking the draw numbered `i`. (A reserved modifier has stopped the statement.) -/
def AguResult.get (i : Nat) : AguResult → Addr
  | .value v => v
  | .draw => Config.drawAddr i
  | .reserved => Config.drawAddr i

end Sys2Proof.Machine
end

