-- ==== Sys2Proof/Machine/Operands.lean ====
section
/-! DEFINITION. The operand forms: the seven address-register-indirect modes (R70 to R81) and the data moves of a
statement (R57, R112, R114). What a form does is in two parts: why it stops, and its writes if it does not. -/

namespace Sys2Proof.Machine

/-- The address arithmetic of a mode; none for `(Rn)`, which adds nothing (R72 to R78). -/
def modeArith (mode : Mode) (r n m : Addr) : Option AguResult :=
  match mode with
  | .noUpdate => none
  | .postInc => some (aguAdd r .plusOne n m)
  | .postDec => some (aguAdd r .minusOne n m)
  | .postIncN => some (aguAdd r .plusN n m)
  | .postDecN => some (aguAdd r .minusN n m)
  | .indexed => some (aguIndexed r n m)
  | .preDec => some (aguAdd r .minusOne n m)

/-- The address arithmetic of a mode with the registers of its own number (R70, R90). -/
def State.aguFor (s : State) (e : Ea) : Option AguResult := modeArith e.mode (s.R e.k) (s.N e.k) (s.M e.k)

/-- The value of a mode's address arithmetic; draws are numbered on behalf of the space `sp`. -/
def State.aguValue (s : State) (sp : Space) (e : Ea) : Addr :=
  match s.aguFor e with
  | some g => g.get (s.drawIndex sp)
  | none => s.R e.k

/-- Why a mode stops on what its address arithmetic answers: a reserved modifier (R95), or an address that is itself
unpredictable in mode `(Rn+Nn)` (R77). -/
def aguStops (mode : Mode) (g : AguResult) : Option Refusal :=
  match g with
  | .value _ => none
  | .draw => if mode = .indexed then some .unpredictableAddress else none
  | .reserved => some .reservedModifier

/-- Why a mode stops its statement: a register of its number was just written (R165), or its address arithmetic
stops it. That the first is named where both hold is the model's choice (log entry 33). -/
def State.eaStops (s : State) (e : Ea) : Option Refusal :=
  if s.aguWritten.contains e.k then some .aguWriteThenUse
  else
    match s.aguFor e with
    | some g => aguStops e.mode g
    | none => none

/-- `ea`, the operand address of a mode (R72 to R78). -/
def State.eaAddr (s : State) (sp : Space) (e : Ea) : Addr :=
  match e.mode with
  | .noUpdate | .postInc | .postDec | .postIncN | .postDecN => s.R e.k
  | .indexed | .preDec => s.aguValue sp e

/-- The update a mode makes of its own address register (R73 to R76, R78). -/
def State.eaWrites (s : State) (sp : Space) (e : Ea) : List Write :=
  match e.mode with
  | .noUpdate | .indexed => []
  | .postInc | .postDec | .postIncN | .postDecN | .preDec => [.ptr e.k (s.aguValue sp e)]

/-- Why an ordinary memory move stops: its mode, an address that is a device register (D26, U21), an address with no
memory (R114). -/
def State.memMoveStops (s : State) (sp : Space) (mm : MemMove) : Option Halt :=
  match s.eaStops mm.ea with
  | some f => some (.refuse f)
  | none =>
    if s.isPeriph sp (s.eaAddr sp mm.ea) then some (.refuse .peripheralMove)
    else (s.accessStops sp (s.eaAddr sp mm.ea)).map .fault

/-- The word a store moves: `xfer (S, word, old.S)` (R114). -/
def State.storeWord (s : State) (src : Reg) : Word := toWord (.reg src) .word (s.read src)

/-- The writes of a memory move (R114, forms X and Y): of memory, as one at a device register stops. -/
def State.memMoveWrites (s : State) (sp : Space) (mm : MemMove) : List Write :=
  match mm with
  | .load e d =>
    .reg d .word (.bits .word (s.peek sp (s.eaAddr sp e))) :: s.eaWrites sp e
  | .store src e => .mem sp (s.eaAddr sp e) (s.storeWord src) :: s.eaWrites sp e

/-- The write of a register-to-register move (R114, form R). -/
def State.regMoveWrite (s : State) (src dst : Reg) : Write := .reg dst (.reg src) (s.read src)

/-- An immediate as a value and the place it comes from (R55, D27, D28). -/
def immPlace : Imm → Place
  | .int _ => .immInt
  | .frac _ _ => .immFrac

/-- The value of an immediate: an integer, or an exact rational (D28). -/
def immValue : Imm → Value
  | .int v => .int v
  | .frac v k => .frac (mkRat v (10 ^ (k + 1)))

/-- The write of an immediate move (R114, form I). -/
def immMoveWrite (v : Imm) (dst : Reg) : Write := .reg dst (immPlace v) (immValue v)

/-- Why a move field stops. Where several stops hold at once the spec gives no order; the order is log entry 33's. -/
def State.movesStop (s : State) (mv : Moves) : Option Halt :=
  match mv with
  | .none => none
  | .i _ _ => none
  | .r _ _ => none
  | .u e => (s.eaStops e).map .refuse
  | .x mm => s.memMoveStops .x mm
  | .y mm => s.memMoveStops .y mm
  | .xy mx my => firstHalt (s.memMoveStops .x mx) (s.memMoveStops .y my)
  | .ry _ _ my => s.memMoveStops .y my

/-- The writes of a move field (R114); every value is computed from the state before the statement (R111). -/
def State.movesWrites (s : State) (mv : Moves) : List Write :=
  match mv with
  | .none => []
  | .i v dst => [immMoveWrite v dst]
  | .r src dst => [s.regMoveWrite src dst]
  | .u e => s.eaWrites .x e
  | .x mm => s.memMoveWrites .x mm
  | .y mm => s.memMoveWrites .y mm
  | .xy mx my => s.memMoveWrites .x mx ++ s.memMoveWrites .y my
  | .ry src dst my => s.regMoveWrite src dst :: s.memMoveWrites .y my

/-- The AGU numbers of the registers a list of destinations writes (R165). -/
def aguNums (ds : List Reg) : List AguNum := ds.filterMap Reg.aguNum

end Sys2Proof.Machine
end

