-- ==== Sys2Proof/Machine/Flags.lean ====
section
/-! DEFINITION. The status register (R17, R125) and what each data-ALU operation computes for its destination and for
`sr` (R115 to R122). The spec names no condition code; each operation's effect on `sr` is its configuration
function's. -/

namespace Sys2Proof.Machine

/-- The scaling-mode bit: bit 3 of `mr` (R17). -/
def scalingMode (sr : Status) : Bool := (mrOf sr).getLsbD 3

/-- ORI into `mr`: the other bits of `sr` keep their values (R125). -/
def orMr (sr : Status) (mask : BitVec 8) : Status := withMr sr (mrOf sr ||| mask)

/-- CLR: the accumulator becomes zero (R115). -/
def clrResult (sr : Status) : Acc × Status := (Acc.zero, Config.aluClrStatus sr)

/-- The `a1` part after LSL: doubled (R121). -/
def shiftedLeft (v : BitVec Config.highBits) : BitVec Config.highBits := v <<< 1

/-- The `a1` part after LSR: halved (R122). The bit that enters at the top of a part whose top bit was set is not in
the source; it is the top bit of `other`. -/
def shiftedRight (v other : BitVec Config.highBits) : BitVec Config.highBits :=
  if v.msb && other.msb then (v >>> 1) ||| BitVec.twoPow _ (Config.highBits - 1) else v >>> 1

/-- LSL: the middle part doubled; the other parts and `sr` as `alu_lsl` gives them (R121). -/
def lslResult (v : Acc) (sr : Status) : Acc × Status :=
  let g := Config.aluLsl v sr
  ({ g.1 with p1 := shiftedLeft v.p1 }, g.2)

/-- LSR: the middle part halved; the other parts and `sr` as `alu_lsr` gives them (R122). -/
def lsrResult (v : Acc) (sr : Status) : Acc × Status :=
  let g := Config.aluLsr v sr
  ({ g.1 with p1 := shiftedRight v.p1 g.1.p1 }, g.2)

/-- A data-ALU statement: the destination and `sr` take the result `g`, and the moves are made, all from the state
before the statement (R110, R111). -/
def State.aluStatement (s : State) (d : AccName) (g : Acc × Status) (mv : Moves) : Host.Outcome State Fault Refusal :=
  outcome (s.movesStop mv) (s.retire (.acc d g.1 :: .status g.2 :: s.movesWrites mv) (aguNums mv.dsts))

/-- A statement that only makes the data moves of `mv` (R113, R114). -/
def State.moveStatement (s : State) (mv : Moves) : Host.Outcome State Fault Refusal :=
  outcome (s.movesStop mv) (s.retire (s.movesWrites mv) (aguNums mv.dsts))

end Sys2Proof.Machine
end

