-- ==== Sys2Proof/Machine/Alu.lean ====
section
/-! DEFINITION. The data-ALU operations, each with its data moves (R115 to R122). -/

namespace Sys2Proof.Machine

/-- CLR (R115). -/
def execClr (d : AccName) (mv : Moves) (s : State) : Host.Outcome State Fault Refusal :=
  s.aluStatement d (clrResult s.sr) mv

/-- MAC (R116). -/
def execMac (neg : Bool) (p q : MulReg) (d : AccName) (mv : Moves) (s : State) : Host.Outcome State Fault Refusal :=
  s.aluStatement d (Config.aluMac neg (s.mul p) (s.mul q) (s.acc d) s.sr) mv

/-- MACR (R117). -/
def execMacr (neg : Bool) (p q : MulReg) (d : AccName) (mv : Moves) (s : State) : Host.Outcome State Fault Refusal :=
  s.aluStatement d (Config.aluMacr neg (s.mul p) (s.mul q) (s.acc d) s.sr) mv

/-- MPY (R118): the old destination is not an input. -/
def execMpy (neg : Bool) (p q : MulReg) (d : AccName) (mv : Moves) (s : State) : Host.Outcome State Fault Refusal :=
  s.aluStatement d (Config.aluMpy neg (s.mul p) (s.mul q) s.sr) mv

/-- RND (R119). -/
def execRnd (d : AccName) (mv : Moves) (s : State) : Host.Outcome State Fault Refusal :=
  s.aluStatement d (Config.aluRnd (s.acc d) s.sr) mv

/-- SUBL (R120). -/
def execSubl (src d : AccName) (mv : Moves) (s : State) : Host.Outcome State Fault Refusal :=
  s.aluStatement d (Config.aluSubl (s.acc src) (s.acc d) s.sr) mv

/-- LSL (R121). -/
def execLsl (d : AccName) (mv : Moves) (s : State) : Host.Outcome State Fault Refusal :=
  s.aluStatement d (lslResult (s.acc d) s.sr) mv

/-- LSR (R122). -/
def execLsr (d : AccName) (mv : Moves) (s : State) : Host.Outcome State Fault Refusal :=
  s.aluStatement d (lsrResult (s.acc d) s.sr) mv

end Sys2Proof.Machine
end

