-- ==== Sys2Proof/Machine/Control.lean ====
section
/-! DEFINITION. Control transfer: REP, DO, JMP (R126 to R128, R166). -/

namespace Sys2Proof.Machine

/-- The label of a DO. -/
def doTarget : Instr → Option Nat
  | .doImm _ target | .doReg _ target => some target
  | .moveI _ _ | .moveR _ _ | .moveU _ | .moveX _ | .moveY _ | .moveXY _ _ => none
  | .clr _ _ | .mac _ _ _ _ _ | .macr _ _ _ _ _ | .mpy _ _ _ _ _ | .rnd _ _ | .subl _ _ _ => none
  | .lsl _ _ | .lsr _ _ | .movepReg _ _ | .movepMem _ _ | .movepOut _ _ | .lua _ _ => none
  | .rep _ | .jmp _ | .ori _ => none

/-- The label of a DO whose text this is. -/
def doTargetOf (t : Text) : Option Nat :=
  match decode t with
  | .ok i => doTarget i
  | .error _ => none

/-- Statement `d`, of the text `t`, is a DO, and statement `pc` is the last or next-to-last of its body: the body runs
from the next statement to the one before the label (R127, R166). -/
def endsBody (d pc : Nat) (t : Text) : Bool :=
  match doTargetOf t with
  | some target => decide (d < pc) && (target == pc + 1 || target == pc + 2)
  | none => false

/-- Some statement of the program, numbered from `k` on, is a DO whose body ends at `pc` or the statement after. -/
def bodyEndsFrom (k pc : Nat) : List Text → Bool
  | [] => false
  | t :: rest => endsBody k pc t || bodyEndsFrom (k + 1) pc rest

/-- The pc stands on the last or next-to-last statement of a DO body of the program, or of an active one (R166). -/
def State.atLoopEnd (s : State) : Bool :=
  bodyEndsFrom 0 s.pc s.prog || s.loops.any fun g => g.first ≤ s.pc && (g.last == s.pc || g.last == s.pc + 1)

/-- Why REP, DO and JMP stop whatever their operands: repeated by REP, or standing at the end of a DO body (R126, R128,
R166). -/
def State.controlStops (s : State) : Option Refusal :=
  if s.rep.isSome then some .repeatedControl
  else if s.atLoopEnd then some .loopEndRestriction
  else none

/-- Why REP stops (R126). -/
def State.repStops (s : State) (count : Nat) : Option Refusal :=
  match s.controlStops with
  | some f => some f
  | none => if count = 0 then some .repCountZero else none

/-- `rep #expr`: the next statement runs `count` times in all (R126). -/
def execRep (count : Nat) (s : State) : Host.Outcome State Fault Refusal :=
  outcome ((s.repStops count).map .refuse) (((s.setRep (some count)).setPc (s.pc + 1)).ran [])

/-- How many DO loops the system stack can hold: each takes two locations (R18, R127). -/
def State.maxLoops (s : State) : Nat := s.launch.stackDepth / 2

/-- The system-stack locations in use (R18). -/
def State.stackUsed (s : State) : Nat := 2 * s.loops.length

/-- Why DO stops (R127, R166). Where several stops hold at once the order is the model's (log entry 33). An empty body,
the label at the next statement, is refused with `loopEndRestriction` (log entry 18). -/
def State.doStops (s : State) (count target : Nat) : Option Refusal :=
  match s.controlStops with
  | some f => some f
  | none =>
    if count = 0 then some .doCountZero
    else if s.maxLoops ≤ s.loops.length then some .stackOverflow
    else if target ≤ s.pc then some .labelBeforeDo
    else if target = s.pc + 1 then some .loopEndRestriction
    else if s.loops.any fun g => g.last == target - 1 then some .sharedLoopEnd
    else none

/-- DO with its count read: push the loop and go on with the first statement of its body (R127). -/
def State.doStatement (s : State) (count target : Nat) : Host.Outcome State Fault Refusal :=
  outcome ((s.doStops count target).map .refuse)
    ((((s.setLoops (⟨count, s.pc + 1, target - 1⟩ :: s.loops)).setPc (s.pc + 1)).setSr (Config.doStatus s.sr)).ran [])

/-- `do #expr,label` (R127). -/
def execDoImm (count target : Nat) (s : State) : Host.Outcome State Fault Refusal := s.doStatement count target

/-- `do S,label`: the count is the register's value when DO executes (R127). -/
def execDoReg (src : Reg) (target : Nat) (s : State) : Host.Outcome State Fault Refusal :=
  s.doStatement (s.unsigned src) target

/-- Why JMP stops (R126, R128, R166). -/
def State.jmpStops (s : State) : Option Refusal :=
  match s.controlStops with
  | some f => some f
  | none => if s.loops.isEmpty then none else some .jumpFromLoop

/-- `jmp label` (R128). -/
def execJmp (target : Nat) (s : State) : Host.Outcome State Fault Refusal :=
  outcome (s.jmpStops.map .refuse) ((s.setPc target).ran [])

end Sys2Proof.Machine
end

