-- ==== Sys2Proof/Machine/Move.lean ====
section
/-! DEFINITION. MOVE in its six forms (R113, R114) and LUA (R124). -/

namespace Sys2Proof.Machine

/-- `move #expr,D` (R114, form I). -/
def execMoveI (v : Imm) (dst : Reg) (s : State) : Host.Outcome State Fault Refusal := s.moveStatement (.i v dst)

/-- `move S,D` (R114, form R). -/
def execMoveR (src dst : Reg) (s : State) : Host.Outcome State Fault Refusal := s.moveStatement (.r src dst)

/-- `move ea`: update only (R79, R114, form U). -/
def execMoveU (e : Ea) (s : State) : Host.Outcome State Fault Refusal := s.moveStatement (.u e)

/-- `move x:ea,D` and `move S,x:ea` (R114, form X). -/
def execMoveX (mm : MemMove) (s : State) : Host.Outcome State Fault Refusal := s.moveStatement (.x mm)

/-- `move y:ea,D` and `move S,y:ea` (R114, form Y). -/
def execMoveY (mm : MemMove) (s : State) : Host.Outcome State Fault Refusal := s.moveStatement (.y mm)

/-- `move <X form> <Y form>` (R80, R114, form XY). -/
def execMoveXY (mx my : MemMove) (s : State) : Host.Outcome State Fault Refusal := s.moveStatement (.xy mx my)

/-- `lua ea,Rd`: `Rd` takes the value the mode would store; the mode's own register keeps its value (R124). -/
def execLua (e : Ea) (d : AguNum) (s : State) : Host.Outcome State Fault Refusal :=
  outcome ((s.eaStops e).map .refuse) (s.retire [.ptr d (s.aguValue .x e)] [d])

end Sys2Proof.Machine
end

