-- ==== Sys2Proof/Machine/Movep.lean ====
section
/-! DEFINITION. MOVEP in its three forms (R123) and ORI (R125). -/

namespace Sys2Proof.Machine

/-- Why MOVEP with the absolute address `y:pp` stops before its moves: it is under REP (R126), or `pp` is no device
register (R123). -/
def State.movepStops (s : State) (pp : Addr) : Option Halt :=
  if s.rep.isSome then some (.refuse .repeatedControl)
  else if !s.isPeriph .y pp then some (.refuse .notPeripheral)
  else none

/-- `movep y:pp,D` (R123). -/
def execMovepReg (pp : Addr) (dst : Reg) (s : State) : Host.Outcome State Fault Refusal :=
  outcome (s.movepStops pp)
    (s.retire (.reg dst .word (.bits .word (s.memRead .y pp)) :: s.readWrites .y pp) (aguNums [dst]))

/-- `movep y:pp,x:ea` (R123). -/
def execMovepMem (pp : Addr) (e : Ea) (s : State) : Host.Outcome State Fault Refusal :=
  outcome
    (firstHalt (s.movepStops pp)
      (match s.eaStops e with
        | some f => some (.refuse f)
        | none => (s.accessStops .x (s.eaAddr .x e)).map .fault))
    (s.retire (s.readWrites .y pp ++ (s.memWrites .x (s.eaAddr .x e) (s.memRead .y pp) ++ s.eaWrites .x e)) [])

/-- `movep S,y:pp` (R123). -/
def execMovepOut (src : Reg) (pp : Addr) (s : State) : Host.Outcome State Fault Refusal :=
  outcome (s.movepStops pp) (s.retire (s.memWrites .y pp (s.storeWord src)) [])

/-- `ori #mask,mr` (R125). -/
def execOri (mask : BitVec 8) (s : State) : Host.Outcome State Fault Refusal :=
  .next (s.retire [.status (orMr s.sr mask)] [])

end Sys2Proof.Machine
end

