-- ==== Sys2Proof/Machine/Dispatch.lean ====
section
/-! DEFINITION. What each instruction does: one arm per row of the opcode table, one meaning per arm. -/

namespace Sys2Proof.Machine

def exec (i : Instr) (s : State) : Host.Outcome State Fault Refusal :=
  match i with
  -- data moves (R113, R114)
  | .moveI v dst => Sys2Proof.Machine.execMoveI v dst s
  | .moveR src dst => Sys2Proof.Machine.execMoveR src dst s
  | .moveU e => Sys2Proof.Machine.execMoveU e s
  | .moveX mm => Sys2Proof.Machine.execMoveX mm s
  | .moveY mm => Sys2Proof.Machine.execMoveY mm s
  | .moveXY mx my => Sys2Proof.Machine.execMoveXY mx my s
  -- data-ALU operations (R115 to R122)
  | .clr d mv => Sys2Proof.Machine.execClr d mv s
  | .mac neg p q d mv => Sys2Proof.Machine.execMac neg p q d mv s
  | .macr neg p q d mv => Sys2Proof.Machine.execMacr neg p q d mv s
  | .mpy neg p q d mv => Sys2Proof.Machine.execMpy neg p q d mv s
  | .rnd d mv => Sys2Proof.Machine.execRnd d mv s
  | .subl src d mv => Sys2Proof.Machine.execSubl src d mv s
  | .lsl d mv => Sys2Proof.Machine.execLsl d mv s
  | .lsr d mv => Sys2Proof.Machine.execLsr d mv s
  -- peripheral moves, LUA, control (R123 to R128)
  | .movepReg pp dst => Sys2Proof.Machine.execMovepReg pp dst s
  | .movepMem pp e => Sys2Proof.Machine.execMovepMem pp e s
  | .movepOut src pp => Sys2Proof.Machine.execMovepOut src pp s
  | .lua e d => Sys2Proof.Machine.execLua e d s
  | .rep count => Sys2Proof.Machine.execRep count s
  | .doImm count target => Sys2Proof.Machine.execDoImm count target s
  | .doReg src target => Sys2Proof.Machine.execDoReg src target s
  | .jmp target => Sys2Proof.Machine.execJmp target s
  | .ori mask => Sys2Proof.Machine.execOri mask s

end Sys2Proof.Machine
end

