-- ==== Sys2Proof/Machine/Step.lean ====
section
/-! DEFINITION. One step: fetch the statement at the pc, decode it, run it (D1, D2). Under REP one repetition is one
step. -/

namespace Sys2Proof.Machine

/-- One step of the machine. -/
def step (s : State) : Host.Outcome State Fault Refusal :=
  match s.fetch with
  | none => .fault .endOfRun
  | some t =>
    match decode t with
    | .error e => .refused (.undecoded e)
    | .ok i => exec i s

/-- The state with the statement whose text is the number `w` (its first character in the lowest eight bits) placed
where `step` fetches. It stands for the load of a program from outside the machine (log entry 7). -/
def State.withFetchWord (s : State) (nbits w : Nat) : State :=
  { s with prog := placeText s.prog s.pc (bytesOf (nbits / 8) w) }

end Sys2Proof.Machine
end

