-- ==== Sys2Proof/Machine/Loader.lean ====
section
/-! DEFINITION. Loading a program from outside the machine: from the lines of a listing, with its symbols, labels and
directives (R7, R53, R55, R60), to the statements the machine fetches (D1, D19). -/

namespace Sys2Proof.Machine

/-- What reading a listing has collected: the symbols, the location counter of each data space, the data space of the
last `org x:` or `org y:`, where `org p:` put the program, the numbers of the macros the line stands in, innermost
first, how many were opened, and the statements so far, latest first. -/
structure Listing where
  symbols : Symbols
  xLoc : Nat
  yLoc : Nat
  inY : Bool
  entry : Addr
  scopes : List Nat
  opened : Nat
  statements : List (List Token)

namespace Listing

/-- The name of a symbol inside the listing: a label that starts with `_` is local to its macro (R7), so its name takes
the macro's number after a `#`, which no name can hold. -/
def localName (g : Listing) : Token → Token
  | .word (95 :: w) => .word (95 :: w ++ 35 :: decimal (g.scopes.headD 0))
  | t => t

/-- `macro` opens a scope of its own. -/
def openScope (g : Listing) : Listing :=
  { g with scopes := (g.opened + 1) :: g.scopes, opened := g.opened + 1 }

/-- `endm` goes back to the scope the macro stands in. The spec shows no macro inside a macro: that the inner `endm`
goes back to the outer macro is a DESIGN CHOICE, and so is that an `endm` with no open macro changes nothing and that a
macro may stay open to the end of the listing (log entry 7). -/
def closeScope (g : Listing) : Listing := { g with scopes := g.scopes.tail }

/-- Give a symbol its value. -/
def define (g : Listing) (w : Text) (v : Imm) : Listing := { g with symbols := (w, v) :: g.symbols }

/-- A label, if the line has one, names the statement that comes next. -/
def label (g : Listing) : Option Text → Listing
  | some w => g.define w (.int g.statements.length)
  | none => g

/-- Add a statement. -/
def add (g : Listing) (ts : List Token) : Listing := { g with statements := ts :: g.statements }

/-- The location counter `ds` advances: that of the last data space named by `org`, X: at the start. There is none for
P:, so that after `org p:` it stays that one (DESIGN CHOICE, log entry 34). -/
def loc (g : Listing) : Nat := if g.inY then g.yLoc else g.xLoc

/-- `ds n`: reserve storage. -/
def reserve (g : Listing) (n : Nat) : Listing :=
  if g.inY then { g with yLoc := g.yLoc + n } else { g with xLoc := g.xLoc + n }

/-- `org sp:v`: set the location counter of a data space, or where the program stands. The listings have one `org p:`,
before the first statement. Of several the last gives `ENTRY`, wherever the statements stand, and a value above 65535
is taken modulo 65536, `PCW` being open (DESIGN CHOICE, log entry 7). -/
def setOrg (g : Listing) (sp : Text) (v : Nat) : Option Listing :=
  if sp == text "p" then some { g with entry := BitVec.ofNat 16 v }
  else if sp == text "x" then some { g with xLoc := v, inY := false }
  else if sp == text "y" then some { g with yLoc := v, inY := true }
  else none

/-- The operand of `org`, which may name symbols of earlier lines only (DESIGN CHOICE, log entry 35). -/
def readOrg (g : Listing) : List Token → Option Listing
  | .word sp :: .colon :: ts =>
    match readNat g.symbols ts with
    | some (v, []) => g.setOrg sp v
    | _ => none
  | _ => none

/-- The operand of `ds`, whose label names the storage. The operand may name symbols of earlier lines only (DESIGN CHOICE,
log entry 35). -/
def readDs (g : Listing) (l : Option Text) (ts : List Token) : Option Listing :=
  match readNat g.symbols ts, l with
  | some (v, []), some w => some ((g.define w (.int g.loc)).reserve v)
  | some (v, []), none => some (g.reserve v)
  | _, _ => none

/-- The operand of `equ`, whose label is the symbol. The operand may name symbols of earlier lines only, while a
statement may name later ones too (DESIGN CHOICE, log entry 35). -/
def readEqu (g : Listing) (l : Option Text) (ts : List Token) : Option Listing :=
  match readImm g.symbols ts, l with
  | some (v, []), some w => some (g.define w v)
  | _, _ => none

/-- The directives (R60). -/
inductive Directive
  | page | opt | ident | equ | org | ds | macro_ | endm
  deriving DecidableEq, Repr

/-- The directive a word names. -/
def directiveOf (w : Text) : Option Directive :=
  if w == text "page" then some .page
  else if w == text "opt" then some .opt
  else if w == text "ident" then some .ident
  else if w == text "equ" then some .equ
  else if w == text "org" then some .org
  else if w == text "ds" then some .ds
  else if w == text "macro" then some .macro_
  else if w == text "endm" then some .endm
  else none

/-- Obey a directive, with its label and its operand. `page`, `opt` and `ident` say nothing of the machine; the label of
`macro` and of `ident` is the macro's name. What the label of any other names is the model's choice (log entry 35). -/
def obey (g : Listing) (q : Directive) (l : Option Text) (ts : List Token) : Option Listing :=
  match q with
  | .page | .opt => some (g.label l)
  | .ident => some g
  | .equ => g.readEqu l ts
  | .org => (g.label l).readOrg ts
  | .ds => g.readDs l ts
  | .macro_ => some g.openScope
  | .endm => some (g.label l).closeScope

/-- Read a line after its label field: nothing, a directive, or a statement. -/
def operation (g : Listing) (l : Option Text) (ts : List Token) : Option Listing :=
  match ts with
  | [] => some (g.label l)
  | .word w :: rest =>
    match directiveOf w with
    | some q => g.obey q l rest
    | none => some ((g.label l).add ts)
  | ts => some ((g.label l).add ts)

/-- Read one line (R53, R60). A label stands at the left margin only. At the margin a mnemonic and a directive are still
an operation; anywhere else than as the operation a directive's word is an ordinary symbol (DESIGN CHOICE, log entry
27). -/
def line (g : Listing) (margin : Bool) (ts : List Token) : Option Listing :=
  match ts with
  | .word w :: rest =>
    if margin && (mnemonicOf w).isNone && (directiveOf w).isNone then g.operation (some w) rest
    else g.operation none ts
  | ts => g.operation none ts

/-- Read the lines of a listing up to `end`, or to its last where there is none (DESIGN CHOICE, log entry 35). -/
def lines (g : Listing) : List Text → Option Listing
  | [] => some g
  | t :: rest =>
    if lex t == [.word (text "end")] then some g
    else
      match g.line (atMargin t) ((lex t).map g.localName) with
      | some g => lines g rest
      | none => none

end Listing

/-- The statements of a listing, their symbols resolved. None where one is no statement of the source (R129) or is not
well formed. The target of a JMP or DO is the value of its operand, a label's being the number of its statement (log
entry 13). -/
def resolve (env : Symbols) : List (List Token) → Option (List Text)
  | [] => some []
  | ts :: rest =>
    match parse env ts, resolve env rest with
    | .ok i, some p => if i.wf then some (encode i :: p) else none
    | _, _ => none

/-- No name is given a value twice. -/
def Listing.unambiguous (g : Listing) : Bool := decide (g.symbols.map (·.1)).Nodup

/-- Load a listing: the program at its first statement, everything else as it was (R161). Macro parameters and other
symbols from outside stand in `env`. None where a line is not of the source, or where one scope gives a name two values
(log entry 7). -/
def State.load (s : State) (env : Symbols) (ls : List Text) : Option State :=
  match (Listing.mk env 0 0 false s.launch.entry [] 0 []).lines ls with
  | none => none
  | some g =>
    if !g.unambiguous then none
    else match resolve g.symbols g.statements.reverse with
    | some p => some { s with prog := p, pc := 0, launch := { s.launch with entry := g.entry } }
    | none => none

end Sys2Proof.Machine
end

