-- ==== Sys2Proof/Safety.lean ====
section
/-! DEFINITION. The terms claims use: when a statement runs normally, in conditions on the state and the operands
alone; and the invariant of the machine. -/

namespace Sys2Proof.Machine

/-- A mode runs: the statement before did not write a register of its number (R165), the modifier of a mode that
computes is not reserved (R95), and the address of mode `(Rn+Nn)` is not unpredictable (R77). -/
def EaUsable (s : State) (e : Ea) : Prop :=
  e.k ∉ s.aguWritten ∧
  (e.mode ≠ .noUpdate → isReserved (s.M e.k) = false) ∧
  (e.mode = .indexed → aguAdd (s.R e.k) .plusN (s.N e.k) (s.M e.k) ≠ .draw)

/-- An access of MOVEP runs: the address is a device register or allocated memory (R114). -/
def AccessUsable (s : State) (sp : Space) (a : Addr) : Prop :=
  s.isPeriph sp a = true ∨ s.isRam sp a = true

/-- An access of an ordinary move runs: the address is allocated memory (R114) and no device register (D26). -/
def MemoryUsable (s : State) (sp : Space) (a : Addr) : Prop :=
  s.isPeriph sp a = false ∧ s.isRam sp a = true

/-- A memory move runs. -/
def MemMoveUsable (s : State) (sp : Space) (mm : MemMove) : Prop :=
  EaUsable s mm.ea ∧ MemoryUsable s sp (s.eaAddr sp mm.ea)

/-- A move field runs. -/
def MovesUsable (s : State) : Moves → Prop
  | .none | .i _ _ | .r _ _ => True
  | .u e => EaUsable s e
  | .x mm => MemMoveUsable s .x mm
  | .y mm => MemMoveUsable s .y mm
  | .xy mx my => MemMoveUsable s .x mx ∧ MemMoveUsable s .y my
  | .ry _ _ my => MemMoveUsable s .y my

/-- MOVEP's own conditions: it is not repeated, and the address is a device register (R123, R126). -/
def MovepUsable (s : State) (pp : Addr) : Prop := s.rep = none ∧ s.isPeriph .y pp = true

/-- Statement `d` of the program is a DO with the label at statement `target`, so that its body is the statements after
`d` and before `target` (R127). -/
def DoAt (s : State) (d target : Nat) : Prop :=
  ∃ u i, s.prog[d]? = some u ∧ decode u = .ok i ∧ doTarget i = some target

/-- REP, DO and JMP may stand here: not repeated, and neither the last nor the next-to-last statement of the body of a
DO of the program, or of an active loop (R126, R128, R166). -/
def ControlUsable (s : State) : Prop :=
  s.rep = none ∧
  (∀ d target, DoAt s d target → d < s.pc → target ≠ s.pc + 1 ∧ target ≠ s.pc + 2) ∧
  ∀ g ∈ s.loops, g.first ≤ s.pc → g.last ≠ s.pc ∧ g.last ≠ s.pc + 1

/-- DO runs: a count that is not zero, two free stack locations, a label after the body's one or more statements, and
no active loop that ends on the same statement (R127, R166). -/
def DoUsable (s : State) (count target : Nat) : Prop :=
  ControlUsable s ∧ count ≠ 0 ∧ 2 * (s.loops.length + 1) ≤ s.launch.stackDepth ∧
  s.pc + 2 ≤ target ∧ ∀ g ∈ s.loops, g.last ≠ target - 1

/-- The value a register holds after a transfer of `v` from the place `src` (R112). No move writes `pc`. -/
def received (src : Place) (d : Reg) (v : Value) : Value :=
  match d with
  | .r k => .bits .agu (toAgu src (.reg (.r k)) v)
  | .n k => .bits .agu (toAgu src (.reg (.n k)) v)
  | .m k => .bits .agu (toAgu src (.reg (.m k)) v)
  | .mul q => .bits .word (toWord src (.reg (.mul q)) v)
  | .acc e => .acc (toAcc src (.reg (.acc e)) v)
  | .ext e => .bits .ext (toBits .ext src (.reg (.ext e)) v)
  | .high e => .bits .high (toBits .high src (.reg (.high e)) v)
  | .low e => .bits .low (toBits .low src (.reg (.low e)) v)
  | .sr => .bits .status (toBits .status src (.reg .sr) v)
  | .mr => .bits .mr (toBits .mr src (.reg .mr) v)
  | .pc => v

/-- The address register a mode updates. -/
def updated (e : Ea) : List Reg := if e.mode.updates then [.r e.k] else []

/-- Every register a move field writes: its destinations, and the address registers its modes update. -/
def touched (mv : Moves) : List Reg := mv.dsts ++ mv.eas.flatMap updated

/-- The address a memory move stores to; none for a load. -/
def storedBy (s : State) (sp : Space) : MemMove → List (Space × Addr)
  | .load _ _ => []
  | .store _ e => [(sp, s.eaAddr sp e)]

/-- The addresses a move field stores to. -/
def stored (s : State) : Moves → List (Space × Addr)
  | .none | .i _ _ | .r _ _ | .u _ => []
  | .x mm => storedBy s .x mm
  | .y mm => storedBy s .y mm
  | .xy mx my => storedBy s .x mx ++ storedBy s .y my
  | .ry _ _ my => storedBy s .y my

/-- The addresses a move field reads or writes. -/
def accessed (s : State) : Moves → List (Space × Addr)
  | .none | .i _ _ | .r _ _ | .u _ => []
  | .x mm => [(.x, s.eaAddr .x mm.ea)]
  | .y mm => [(.y, s.eaAddr .y mm.ea)]
  | .xy mx my => [(.x, s.eaAddr .x mx.ea), (.y, s.eaAddr .y my.ea)]
  | .ry _ _ my => [(.y, s.eaAddr .y my.ea)]

/-- The invariant of the machine: both memories are in canonical form; the loops' stack locations fit the system
stack; every active loop has an iteration left and a body; no two active loops end on one statement; an active repeat
has a repetition left. -/
structure Inv (s : State) : Prop where
  xmem : s.xmem.wf = true
  ymem : s.ymem.wf = true
  stack : s.stackUsed ≤ s.launch.stackDepth
  loops : ∀ g ∈ s.loops, 1 ≤ g.count ∧ g.first ≤ g.last
  ends : s.loops.Pairwise fun g h => g.last ≠ h.last
  rep : ∀ c, s.rep = some c → 1 ≤ c

end Sys2Proof.Machine
end

