-- ==== Sys2Proof/Certificates/Slice0/Obligations.lean ====
section
/-! DEFINITION. The statements for the provers, and the words they are written in. -/

namespace Sys2Proof.Claims

open Sys2Proof Sys2Proof.Machine

/-- The width of a register in bits (R3, R11, R15, R17; the data widths and that of `pc` are open, D3, D4). A whole
accumulator, which holds three parts, has a width of its own. -/
def width : Reg → Option Nat
  | .r _ | .n _ | .m _ => some Width.agu.bits
  | .mul _ => some Width.word.bits
  | .ext _ => some Width.ext.bits
  | .high _ => some Width.high.bits
  | .low _ => some Width.low.bits
  | .sr => some Width.status.bits
  | .mr => some Width.mr.bits
  | .pc => some Width.pc.bits
  | .acc _ => none

/-- The step a mode asks the address ALU for; none for `(Rn)`, which adds nothing (R72 to R78). -/
def modeStep : Mode → Option AguStep
  | .noUpdate => none
  | .postInc => some .plusOne
  | .postDec => some .minusOne
  | .postIncN => some .plusN
  | .postDecN => some .minusN
  | .indexed => some .plusN
  | .preDec => some .minusOne

/-- The same bits, in places that may be of different kinds. -/
def sameBits : Value → Value → Prop
  | .bits _ u, .bits _ v => u.toNat = v.toNat
  | .acc u, .acc v => u = v
  | _, _ => False

/-- A mode's update: where the address arithmetic gives a value, the address register takes it. (A draw constrains
nothing.) -/
def PtrEffect (s t : State) (e : Ea) : Prop :=
  e.mode.updates = true → ∀ v, s.aguFor e = some (.value v) → t.R e.k = v

/-- What a memory move does (R114): a load gives its destination the word at the operand address; a store leaves the
transferred value at the operand address; the mode makes its update. -/
def MemMoveEffect (s t : State) (sp : Space) : MemMove → Prop
  | .load e d =>
    t.read d = received .word d (.bits .word (s.peek sp (s.eaAddr sp e))) ∧ PtrEffect s t e
  | .store src e => t.peek sp (s.eaAddr sp e) = s.storeWord src ∧ PtrEffect s t e

/-- What a move field does, every value taken from the state `s` before the statement (R111, R114). -/
def MovesEffect (s t : State) : Moves → Prop
  | .none => True
  | .i v d => t.read d = received (immPlace v) d (immValue v)
  | .r src d => t.read d = received (.reg src) d (s.read src)
  | .u e => PtrEffect s t e
  | .x mm => MemMoveEffect s t .x mm
  | .y mm => MemMoveEffect s t .y mm
  | .xy mx my => MemMoveEffect s t .x mx ∧ MemMoveEffect s t .y my
  | .ry src d my => t.read d = received (.reg src) d (s.read src) ∧ MemMoveEffect s t .y my

/-- What is unchanged: every register that shares no storage with `regs`, `sr` and `mr` among them, and, where `sr` is not
of `regs`, its bits outside `mr`; every word of memory outside `cells`, the program and the launch parameters. (The pc
may change.) -/
def Frame (s t : State) (regs : List Reg) (cells : List (Space × Addr)) : Prop :=
  (∀ q : Reg, q ≠ .pc → (∀ d ∈ regs, q.overlaps d = false) → t.read q = s.read q) ∧
  (.sr ∉ regs → ∀ j, j < 8 → t.sr.getLsbD j = s.sr.getLsbD j) ∧
  (∀ sp a, (sp, a) ∉ cells → t.peek sp a = s.peek sp a) ∧
  t.prog = s.prog ∧ t.launch = s.launch

/-- The control state after a statement that does not itself change the pc. -/
def Flow (s t : State) : Prop :=
  t.pc = s.advance.pc ∧ t.loops = s.advance.loops ∧ t.rep = s.advance.rep

/-- All that a data-ALU statement with result `g` for the accumulator `d` and `sr` does, and that it does no more. -/
def AluEffect (s t : State) (d : AccName) (g : Acc × Status) (mv : Moves) : Prop :=
  t.acc d = g.1 ∧ t.sr = g.2 ∧ MovesEffect s t mv ∧ Frame s t (aluDsts d ++ touched mv) (stored s mv) ∧
  t.events = s.events ∧ Flow s t

/-- All that a statement of data moves does, and that it does no more. -/
def MoveEffect (s t : State) (mv : Moves) : Prop :=
  MovesEffect s t mv ∧ Frame s t (touched mv) (stored s mv) ∧ t.events = s.events ∧ Flow s t

/-- The statement made of one memory move in a space. -/
def memInstr : Space → MemMove → Instr
  | .x, mm => .moveX mm
  | .y, mm => .moveY mm

/-- The one-move field of a memory move in a space. -/
def memField : Space → MemMove → Moves
  | .x, mm => .x mm
  | .y, mm => .y mm

/-- The modes an instruction uses: those of its move field, of MOVEP's memory operand, of LUA. -/
def easOf : Instr → List Ea
  | .moveI _ _ | .moveR _ _ => []
  | .moveU e => [e]
  | .moveX mm | .moveY mm => [mm.ea]
  | .moveXY mx my => [mx.ea, my.ea]
  | .clr _ mv | .rnd _ mv | .lsl _ mv | .lsr _ mv | .subl _ _ mv => mv.eas
  | .mac _ _ _ _ mv | .macr _ _ _ _ mv | .mpy _ _ _ _ mv => mv.eas
  | .movepReg _ _ | .movepOut _ _ => []
  | .movepMem _ e => [e]
  | .lua e _ => [e]
  | .rep _ | .doImm _ _ | .doReg _ _ | .jmp _ | .ori _ => []

/-- The registers an instruction's data moves name as destinations. -/
def dstsOf : Instr → List Reg
  | .moveI _ d | .moveR _ d | .movepReg _ d => [d]
  | .moveX mm | .moveY mm => mm.dst
  | .moveXY mx my => mx.dst ++ my.dst
  | .clr _ mv | .rnd _ mv | .lsl _ mv | .lsr _ mv | .subl _ _ mv => mv.dsts
  | .mac _ _ _ _ mv | .macr _ _ _ _ mv | .mpy _ _ _ _ mv => mv.dsts
  | .moveU _ | .movepMem _ _ | .movepOut _ _ | .lua _ _ => []
  | .rep _ | .doImm _ _ | .doReg _ _ | .jmp _ | .ori _ => []

/-- The registers an instruction's data moves read as sources, and the count register of DO. -/
def srcsOf : Instr → List Reg
  | .moveR q _ | .movepOut q _ | .doReg q _ => [q]
  | .moveX mm | .moveY mm => mm.src
  | .moveXY mx my => mx.src ++ my.src
  | .clr _ mv | .rnd _ mv | .lsl _ mv | .lsr _ mv | .subl _ _ mv => mv.srcs
  | .mac _ _ _ _ mv | .macr _ _ _ _ mv | .mpy _ _ _ _ mv => mv.srcs
  | .moveI _ _ | .moveU _ | .movepReg _ _ | .movepMem _ _ | .lua _ _ => []
  | .rep _ | .doImm _ _ | .jmp _ | .ori _ => []

/-- The registers a data-ALU operation writes, and the move field of it or of a MOVE. -/
def fieldOf : Instr → Option (List Reg × Moves)
  | .moveI v d => some ([], .i v d)
  | .moveR src d => some ([], .r src d)
  | .moveU e => some ([], .u e)
  | .moveX mm => some ([], .x mm)
  | .moveY mm => some ([], .y mm)
  | .moveXY mx my => some ([], .xy mx my)
  | .clr d mv | .rnd d mv | .lsl d mv | .lsr d mv | .subl _ d mv => some (aluDsts d, mv)
  | .mac _ _ _ d mv | .macr _ _ _ d mv | .mpy _ _ _ d mv => some (aluDsts d, mv)
  | .movepReg _ _ | .movepMem _ _ | .movepOut _ _ | .lua _ _ => none
  | .rep _ | .doImm _ _ | .doReg _ _ | .jmp _ | .ori _ => none

/-- The addresses an instruction's modes access: those of its move field, of MOVEP's memory operand. -/
def accessesOf (s : State) (i : Instr) : List (Space × Addr) :=
  match fieldOf i, i with
  | some (_, mv), _ => accessed s mv
  | none, .movepMem _ e => [(.x, s.eaAddr .x e)]
  | none, _ => []

/-- The destination of a data-ALU operation, and what it and `sr` take, of the state before the statement
(R115 to R122). -/
def aluResult (s : State) : Instr → Option (AccName × Acc × Status)
  | .clr d _ => some (d, clrResult s.sr)
  | .mac neg p q d _ => some (d, Config.aluMac neg (s.mul p) (s.mul q) (s.acc d) s.sr)
  | .macr neg p q d _ => some (d, Config.aluMacr neg (s.mul p) (s.mul q) (s.acc d) s.sr)
  | .mpy neg p q d _ => some (d, Config.aluMpy neg (s.mul p) (s.mul q) s.sr)
  | .rnd d _ => some (d, Config.aluRnd (s.acc d) s.sr)
  | .subl src d _ => some (d, Config.aluSubl (s.acc src) (s.acc d) s.sr)
  | .lsl d _ => some (d, lslResult (s.acc d) s.sr)
  | .lsr d _ => some (d, lsrResult (s.acc d) s.sr)
  | .moveI _ _ | .moveR _ _ | .moveU _ | .moveX _ | .moveY _ | .moveXY _ _ => none
  | .movepReg _ _ | .movepMem _ _ | .movepOut _ _ | .lua _ _ => none
  | .rep _ | .doImm _ _ | .doReg _ _ | .jmp _ | .ori _ => none

/-- An instruction that changes the flow of control: REP, DO or JMP. -/
def isControl (i : Instr) : Bool := i.mnemonic ∈ [Mnemonic.rep, .do_, .jmp]

/-- `run` is `n` steps of the machine from `s`, each of which completes. -/
def Runs (s : State) (n : Nat) (run : Nat → State) : Prop :=
  run 0 = s ∧ ∀ j, j < n → step (run j) = .next (run (j + 1))

/-- The signed step of modulo arithmetic with offset register value `n` (R94). -/
def signedStep (step : AguStep) (n : Addr) : Int :=
  match step with
  | .plusOne => 1
  | .minusOne => -1
  | .plusN => n.toInt
  | .minusN => -n.toInt

/-- The offset stays within the modulus; the steps of one always do (R94). -/
def properStep (step : AguStep) (n m : Addr) : Prop := (signedStep step n).natAbs ≤ modulus m

end Sys2Proof.Claims

open Sys2Proof Sys2Proof.Machine Sys2Proof.Claims

/-! ### Address arithmetic -/

/-- R91: linear arithmetic is addition and subtraction modulo 65,536. -/
def Obligations.LinearArithmeticWraps : Prop :=
  ∀ r n : Addr,
    aguAdd r .plusOne n 0xFFFF = .value (BitVec.ofNat 16 ((r.toNat + 1) % 65536)) ∧
    aguAdd r .minusOne n 0xFFFF = .value (BitVec.ofNat 16 ((r.toNat + 65535) % 65536)) ∧
    aguAdd r .plusN n 0xFFFF = .value (BitVec.ofNat 16 ((r.toNat + n.toNat) % 65536)) ∧
    aguAdd r .minusN n 0xFFFF = .value (BitVec.ofNat 16 ((r.toNat + 65536 - n.toNat) % 65536))

/-- R93, with D11: the block length is the least power of two that is at least the modulus, and no buffer straddles
the top of the address space. -/
def Obligations.BlockIsLeastPowerOfTwo : Prop :=
  ∀ r m : Addr, isModulo m = true →
    modulus m ≤ blockSize m ∧ (∀ k, modulus m ≤ 2 ^ k → blockBits m ≤ k) ∧
    bufferBase r m % blockSize m = 0 ∧ bufferBase r m ≤ r.toNat ∧ r.toNat < bufferBase r m + blockSize m ∧
    bufferUpper r m = bufferBase r m + modulus m - 1 ∧ bufferUpper r m ≤ 65535

/-- R94: with an offset of at most M in absolute value, a pointer inside its buffer steps round it: the result is in the
buffer, and its distance from the base is the old distance plus the step, modulo M. A pointer above its buffer that
does not step down has M subtracted from the sum (the source's example: R0 = 6, M0 = 5, N0 = 0). -/
def Obligations.ModuloStepGoesRoundBuffer : Prop :=
  ∀ (r n m : Addr) (step : AguStep), isModulo m = true → properStep step n m →
    (r.toNat ≤ bufferUpper r m →
      ∃ v : Addr, aguAdd r step n m = .value v ∧
        bufferBase r m ≤ v.toNat ∧ v.toNat ≤ bufferUpper r m ∧
        ((v.toNat : Int) - bufferBase r m) = ((r.toNat : Int) - bufferBase r m + signedStep step n) % modulus m) ∧
    (bufferUpper r m < r.toNat → 0 ≤ signedStep step n →
      aguAdd r step n m = .value (BitVec.ofInt 16 ((r.toNat : Int) + signedStep step n - modulus m)))

/-- The spec's decision D8 (R94, R96): a pointer above its buffer that steps down is unpredictable. -/
def Obligations.StepDownFromGapIsUnpredictable : Prop :=
  ∀ (r n m : Addr) (step : AguStep), isModulo m = true → properStep step n m →
    bufferUpper r m < r.toNat → signedStep step n < 0 → aguAdd r step n m = .draw

/-- R97: an offset larger than the modulus that is a positive multiple of the block length moves the pointer whole
blocks, to the same relative address; with every other such offset the result is unpredictable. -/
def Obligations.LargeOffsetJumpsBlocksOrIsUnpredictable : Prop :=
  ∀ r n m : Addr, isModulo m = true → modulus m < n.toInt.natAbs →
    (∀ p : Nat, 0 < p → n.toInt = p * blockSize m →
      aguAdd r .plusN n m = .value (r + BitVec.ofNat 16 (p * blockSize m)) ∧
      aguAdd r .minusN n m = .value (r - BitVec.ofNat 16 (p * blockSize m)) ∧
      (r + n).toNat % blockSize m = r.toNat % blockSize m ∧ (r - n).toNat % blockSize m = r.toNat % blockSize m) ∧
    ((∀ p : Nat, 0 < p → n.toInt ≠ p * blockSize m) →
      aguAdd r .plusN n m = .draw ∧ aguAdd r .minusN n m = .draw)

/-- The spec's decision D10 (R100): an offset equal to a modulus that is a power of two goes once round and returns to
the pointer. -/
def Obligations.OffsetOfWholePowerOfTwoBufferReturns : Prop :=
  ∀ r n m : Addr, isModulo m = true → modulus m = blockSize m → n.toInt = modulus m →
    aguAdd r .plusN n m = .value r ∧ aguAdd r .minusN n m = .value r

/-- R98: with N = 2^(j-1), reverse-carry addition reverses the j low bits of the pointer, adds one modulo 2^j, and
reverses them again, the upper bits unchanged. (That the addition is the hardware's is general knowledge, G11.) -/
def Obligations.ReverseCarryStepsBitReversed : Prop :=
  ∀ (r : Addr) (j : Nat), 1 ≤ j → j ≤ 16 →
    ∃ v : Addr, aguAdd r .plusN (BitVec.ofNat 16 (2 ^ (j - 1))) 0 = .value v ∧
      v.toNat / 2 ^ j = r.toNat / 2 ^ j ∧
      (v.setWidth j).reverse = (r.setWidth j).reverse + 1#j

/-- R90, with the value map of R14: the arithmetic of every mode with registers of number `k` is the one `Mk` selects
when the mode computes: linear, modulo, reverse carry, or reserved. That in reverse carry the sum of `(Rn+Nn)` is the
spec's parameter `revCarryOther` is no rule's but U4's and D9's, and running with it is the model's choice (log entry
10). -/
def Obligations.ModifierSelectsOneArithmetic : Prop :=
  ∀ (s : State) (k : AguNum) (mode : Mode) (step : AguStep), modeStep mode = some step →
    ((s.M k).toNat = 65535 → s.aguFor ⟨mode, k⟩ = some (.value (aguLinear (s.R k) step (s.N k)))) ∧
    (1 ≤ (s.M k).toNat → (s.M k).toNat ≤ 32767 →
      s.aguFor ⟨mode, k⟩ = some (aguModulo (s.R k) step (s.N k) (s.M k)) ∧ modulus (s.M k) = (s.M k).toNat + 1) ∧
    ((s.M k).toNat = 0 → s.aguFor ⟨mode, k⟩ = some (.value
      (if mode = .indexed then Config.revCarryOther (s.R k) .plusN (s.N k) else aguReverse (s.R k) step (s.N k)))) ∧
    (32768 ≤ (s.M k).toNat → (s.M k).toNat ≤ 65534 → s.aguFor ⟨mode, k⟩ = some .reserved)

/-- The worked examples of the source (R93, R94): 75 by 15 in the 21-stage buffer gives 69; R0 = 6, N0 = 0, M0 = 5
gives 0; the boundaries wrap. -/
def Obligations.WorkedExamplesOfAddressArithmetic : Prop :=
  aguAdd 75 .plusN 15 20 = .value 69 ∧ aguAdd 75 .plusN 15 0xFFFF = .value 90 ∧
  aguAdd 6 .plusN 0 5 = .value 0 ∧ aguAdd 84 .plusOne 0 20 = .value 64 ∧ aguAdd 64 .minusOne 0 20 = .value 84

/-! ### Addressing modes -/

/-- R72 to R78: the operand address of each mode, and the step of the arithmetic it makes; the offset register is not read
by the steps of one (R73, R74, R78, R96). (Of the sum of `(Rn+Nn)` under reverse carry, `Mn` = 0, nothing is known,
U4.) -/
def Obligations.ModesGiveOperandAddress : Prop :=
  ∀ (s : State) (sp : Space) (k : AguNum) (v : Addr),
    s.eaAddr sp ⟨.noUpdate, k⟩ = s.R k ∧ s.eaAddr sp ⟨.postInc, k⟩ = s.R k ∧
    s.eaAddr sp ⟨.postDec, k⟩ = s.R k ∧ s.eaAddr sp ⟨.postIncN, k⟩ = s.R k ∧
    s.eaAddr sp ⟨.postDecN, k⟩ = s.R k ∧
    (s.M k ≠ 0 → aguAdd (s.R k) .plusN (s.N k) (s.M k) = .value v → s.eaAddr sp ⟨.indexed, k⟩ = v) ∧
    (∀ n, aguAdd (s.R k) .plusOne n (s.M k) = aguAdd (s.R k) .plusOne (s.N k) (s.M k) ∧
      aguAdd (s.R k) .minusOne n (s.M k) = aguAdd (s.R k) .minusOne (s.N k) (s.M k)) ∧
    (aguAdd (s.R k) .minusOne (s.N k) (s.M k) = .value v → s.eaAddr sp ⟨.preDec, k⟩ = v) ∧
    s.aguFor ⟨.postInc, k⟩ = some (aguAdd (s.R k) .plusOne (s.N k) (s.M k)) ∧
    s.aguFor ⟨.postDec, k⟩ = some (aguAdd (s.R k) .minusOne (s.N k) (s.M k)) ∧
    s.aguFor ⟨.postIncN, k⟩ = some (aguAdd (s.R k) .plusN (s.N k) (s.M k)) ∧
    s.aguFor ⟨.postDecN, k⟩ = some (aguAdd (s.R k) .minusN (s.N k) (s.M k)) ∧
    s.aguFor ⟨.preDec, k⟩ = some (aguAdd (s.R k) .minusOne (s.N k) (s.M k))

/-- R78: predecrement uses the decremented value as the operand address and leaves it in `Rn`. -/
def Obligations.PredecrementUsesNewPointer : Prop :=
  ∀ (s : State) (sp : Space) (k : AguNum) (d : Reg) (v : Addr),
    aguAdd (s.R k) .minusOne (s.N k) (s.M k) = .value v → (memInstr sp (.load ⟨.preDec, k⟩ d)).wf = true →
    k ∉ s.aguWritten → MemoryUsable s sp v →
    ∃ t, exec (memInstr sp (.load ⟨.preDec, k⟩ d)) s = .next t ∧ t.R k = v ∧
      t.read d = received .word d (.bits .word (s.peek sp v))

/-- R79: the four modes `(Rn)+`, `(Rn)-`, `(Rn)+Nn`, `(Rn)-Nn` can be written in the data-move field with no memory
reference, of MOVE and of every data-ALU operation, and `-(Rn)` cannot: `Rn` takes the value of the mode's arithmetic, no
other address register changes, and no memory is accessed. Of MOVE, nothing else happens. (That `(Rn)` and `(Rn+Nn)`
alone are ill formed too is the spec's choice, not the source's: R77 "the model refuses that use", decision D12.) -/
def Obligations.UpdateOnlyMoveStepsPointer : Prop :=
  ∀ (s : State) (i : Instr) (alu : List Reg) (e : Ea), fieldOf i = some (alu, .u e) →
    (i.wf = true ↔ e.mode ∈ [Mode.postInc, .postDec, .postIncN, .postDecN]) ∧
    (i.wf = true → EaUsable s e →
      ∃ t, exec i s = .next t ∧ (∀ v, s.aguFor e = some (.value v) → t.R e.k = v) ∧
        (∀ k, k ≠ e.k → t.R k = s.R k) ∧ (∀ sp a, t.peek sp a = s.peek sp a) ∧ t.events = s.events ∧
        (i = .moveU e → MoveEffect s t (.u e)))

/-- The spec's decision D6 (R95): no statement whose mode computes with a reserved modifier has a next state, and where
that is its only mode (and MOVEP is not stopped before it) it is refused by name; mode `(Rn)` is not affected; writing the value into `Mn` is allowed. -/
def Obligations.ReservedModifierIsRefused : Prop :=
  ∀ (s : State) (e : Ea), isReserved (s.M e.k) = true →
    (∀ i : Instr, e ∈ easOf i → e.mode ≠ .noUpdate →
      (∀ t, exec i s ≠ .next t) ∧
      (easOf i = [e] → e.k ∉ s.aguWritten → (∀ pp, i = .movepMem pp e → MovepUsable s pp) →
        exec i s = .refused .reservedModifier)) ∧
    (∀ (sp : Space) (d : Reg), e.mode = .noUpdate → e.k ∉ s.aguWritten → MemoryUsable s sp (s.R e.k) →
      ∃ t, exec (memInstr sp (.load e d)) s = .next t) ∧
    (∀ (k : AguNum) (v : Nat), 32768 ≤ v → v ≤ 65534 →
      ∃ t, exec (.moveI (.int v) (.m k)) s = .next t ∧ (t.M k).toNat = v)

/-- The spec's decision D20 (R165): no statement that uses registers of a number the statement before wrote for address
generation or as the source of LUA has a next state, and where that is its only mode (and MOVEP is not stopped before
it) it is refused by name. -/
def Obligations.UseAfterAguWriteIsRefused : Prop :=
  ∀ (s : State) (e : Ea) (i : Instr), e ∈ easOf i → e.k ∈ s.aguWritten →
    (∀ t, exec i s ≠ .next t) ∧
    (easOf i = [e] → (∀ pp, i = .movepMem pp e → MovepUsable s pp) → exec i s = .refused .aguWriteThenUse)

/-- The spec's decision D20 (R165): the AGU numbers held against the next statement are those of the registers a data
move or LUA wrote; updates by a mode are not among them. -/
def Obligations.AguWritesAreRemembered : Prop :=
  ∀ (i : Instr) (s t : State), exec i s = .next t →
    ∀ k, k ∈ t.aguWritten ↔ (∃ d ∈ dstsOf i, d = .r k ∨ d = .n k ∨ d = .m k) ∨ ∃ e, i = .lua e k

/-- The spec's decision D7 (R77, R94, R97): no statement that uses mode `(Rn+Nn)` where its sum is a draw has a next
state, and where that is its only mode (and MOVEP is not stopped before it) it is refused by name. The sum is a draw
with an offset larger than the modulus that is no positive multiple of the block length, and with a pointer above its
buffer and a negative offset within the modulus (the spec's decision D8). -/
def Obligations.UnpredictableIndexIsRefused : Prop :=
  ∀ (s : State) (k : AguNum),
    (isModulo (s.M k) = true →
      (modulus (s.M k) < (s.N k).toInt.natAbs ∧
          ¬ (0 < (s.N k).toInt ∧ (s.N k).toInt % blockSize (s.M k) = 0) ∨
        (s.N k).toInt.natAbs ≤ modulus (s.M k) ∧ bufferUpper (s.R k) (s.M k) < (s.R k).toNat ∧
          (s.N k).toInt < 0) →
      aguAdd (s.R k) .plusN (s.N k) (s.M k) = .draw) ∧
    (aguAdd (s.R k) .plusN (s.N k) (s.M k) = .draw →
      ∀ i : Instr, ⟨.indexed, k⟩ ∈ easOf i →
        (∀ t, exec i s ≠ .next t) ∧
        (easOf i = [⟨.indexed, k⟩] → k ∉ s.aguWritten →
          (∀ pp, i = .movepMem pp ⟨.indexed, k⟩ → MovepUsable s pp) →
          exec i s = .refused .unpredictableAddress))

/-! ### Data moves -/

/-- R55, R113: an immediate MOVE writes its destination and nothing else; an integer into an AGU register is taken
modulo 65536. -/
def Obligations.MoveImmediateWritesDestination : Prop :=
  ∀ (s : State) (v : Imm) (d : Reg), (Instr.moveI v d).wf = true →
    ∃ t, exec (.moveI v d) s = .next t ∧ MoveEffect s t (.i v d) ∧
      ∀ i k, v = .int i → (d = .r k ∨ d = .n k ∨ d = .m k) → t.read d = .bits .agu (BitVec.ofInt 16 (i % 65536))

/-- R112, R114: a register MOVE gives its destination the source's old value, unchanged where the widths are equal,
and does nothing else. -/
def Obligations.MoveRegisterTransfers : Prop :=
  ∀ (s : State) (src d : Reg), (Instr.moveR src d).wf = true →
    ∃ t, exec (.moveR src d) s = .next t ∧ MoveEffect s t (.r src d) ∧
      (width src = width d → sameBits (t.read d) (s.read src))

/-- R114, forms X and Y: a load or a store in X: or in Y:, with its mode's update, and nothing else. -/
def Obligations.MemoryMoveTransfersWord : Prop :=
  ∀ (s : State) (mm : MemMove),
    ((Instr.moveX mm).wf = true → MemMoveUsable s .x mm →
      ∃ t, exec (.moveX mm) s = .next t ∧ MoveEffect s t (.x mm)) ∧
    ((Instr.moveY mm).wf = true → MemMoveUsable s .y mm →
      ∃ t, exec (.moveY mm) s = .next t ∧ MoveEffect s t (.y mm))

/-- R80: in an XY: reference, of MOVE or of any data-ALU operation, the two modes are among `(Rn)`, `(Rn)+`, `(Rn)-`,
`(Rn)+Nn` and the two address registers differ; each operand's access is made at the address its own mode gives, and
both address registers are updated, each by its own mode. Of MOVE, nothing else happens (R114). -/
def Obligations.MoveXYMakesBothTransfers : Prop :=
  ∀ (s : State) (i : Instr) (alu : List Reg) (mx my : MemMove), fieldOf i = some (alu, .xy mx my) → i.wf = true →
    mx.ea.mode ∈ [Mode.noUpdate, .postInc, .postDec, .postIncN] ∧
    my.ea.mode ∈ [Mode.noUpdate, .postInc, .postDec, .postIncN] ∧ mx.ea.k ≠ my.ea.k ∧
    (MemMoveUsable s .x mx → MemMoveUsable s .y my →
      ∃ t, exec i s = .next t ∧ MemMoveEffect s t .x mx ∧ MemMoveEffect s t .y my ∧
        (i = .moveXY mx my → MoveEffect s t (.xy mx my)))

/-- The spec's decision D15 (R114): a statement whose modes run, one of whose accesses is at an address that is neither
allocated memory nor a device register, has no step; the fault names such an access (log entry 33 says which). (A move
that is not MOVEP and also accesses a device register is refused for that, or stuck.) -/
def Obligations.UnallocatedAccessIsStuck : Prop :=
  ∀ (s : State) (i : Instr), (∀ e ∈ easOf i, EaUsable s e) → (∀ pp e, i = .movepMem pp e → MovepUsable s pp) →
    (∀ p ∈ accessesOf s i, s.isPeriph p.1 p.2 = true → i.mnemonic = .movep) →
    (∃ p ∈ accessesOf s i, ¬ AccessUsable s p.1 p.2) →
    ∃ p ∈ accessesOf s i, ¬ AccessUsable s p.1 p.2 ∧ exec i s = .fault (.unallocated p.1 p.2)

/-- The spec's decision D26 (U21; R36): device registers are MOVEP's alone. No MOVE and no data-ALU operation that
accesses one has a next state, and where its modes run and each of its accesses is at memory or at a device register
it is refused by name. -/
def Obligations.OrdinaryMovesLeaveDevicesAlone : Prop :=
  ∀ (s : State) (i : Instr) (alu : List Reg) (mv : Moves) (sp : Space) (a : Addr), fieldOf i = some (alu, mv) →
    (sp, a) ∈ accessed s mv → s.isPeriph sp a = true →
    (∀ t, exec i s ≠ .next t) ∧
    ((∀ e ∈ mv.eas, EaUsable s e) → (∀ p ∈ accessed s mv, AccessUsable s p.1 p.2) →
      exec i s = .refused .peripheralMove)

/-- R39: a load from memory in the step after a store to the same address gives the word stored. -/
def Obligations.LoadReadsLastStore : Prop :=
  ∀ (s t : State) (sp : Space) (q p : MulReg) (j k : AguNum),
    exec (memInstr sp (.store (.mul q) ⟨.noUpdate, j⟩)) s = .next t → s.R j = s.R k → k ∉ t.aguWritten →
    ∃ u, exec (memInstr sp (.load ⟨.noUpdate, k⟩ (.mul p))) t = .next u ∧ u.mul p = s.mul q

/-- R111: reads come before writes, in every data-ALU operation and MOVE: the operation's result and every move are
those of the state before the statement. In particular (a) a product uses the multiplier inputs from before the loads
of its own statement; (b) a store of the accumulator a data-ALU operation recomputes stores its old value; (c) R114's
corner case: a register that one move stores and another loads is stored with its old value. -/
def Obligations.SourcesAreReadBeforeWrites : Prop :=
  (∀ (s : State) (i : Instr) (alu : List Reg) (mv : Moves), fieldOf i = some (alu, mv) → i.wf = true →
    MovesUsable s mv → ∃ t, exec i s = .next t ∧ MovesEffect s t mv ∧
      ∀ d g, aluResult s i = some (d, g) → t.acc d = g.1 ∧ t.sr = g.2) ∧
  ∀ (s : State) (neg : Bool) (p q : MulReg) (d : AccName) (e f : Ea),
    (MovesUsable s (.xy (.store (.acc .a) e) (.load f (.acc .a))) →
      ∃ t, exec (.macr neg p q .b (.xy (.store (.acc .a) e) (.load f (.acc .a)))) s = .next t ∧
        t.peek .x (s.eaAddr .x e) = toWord (.reg (.acc .a)) .word (.acc s.a) ∧
        t.a = toAcc .word (.reg (.acc .a)) (.bits .word (s.peek .y (s.eaAddr .y f))) ∧
        t.b = (Config.aluMacr neg (s.mul p) (s.mul q) s.b s.sr).1) ∧
    (MovesUsable s (.xy (.load e (.mul .x0)) (.load f (.mul .y0))) →
      ∃ t, exec (.mac neg .x0 .y0 d (.xy (.load e (.mul .x0)) (.load f (.mul .y0)))) s = .next t ∧
        t.acc d = (Config.aluMac neg s.x0 s.y0 (s.acc d) s.sr).1 ∧
        t.x0 = s.peek .x (s.eaAddr .x e) ∧ t.y0 = s.peek .y (s.eaAddr .y f)) ∧
    (MemMoveUsable s .x (.store (.acc d) e) →
      ∃ t, exec (.mac neg p q d (.x (.store (.acc d) e))) s = .next t ∧
        t.peek .x (s.eaAddr .x e) = toWord (.reg (.acc d)) .word (.acc (s.acc d)) ∧
        t.acc d = (Config.aluMac neg (s.mul p) (s.mul q) (s.acc d) s.sr).1)

/-! ### Data ALU -/

/-- R115: CLR clears the accumulator; with its moves. What it leaves in `sr` is a configuration function's. -/
def Obligations.ClrZeroesAccumulator : Prop :=
  ∀ (s : State) (d : AccName) (mv : Moves), (Instr.clr d mv).wf = true → MovesUsable s mv →
    ∃ t, exec (.clr d mv) s = .next t ∧ AluEffect s t d (⟨0, 0, 0⟩, Config.aluClrStatus s.sr) mv

/-- R116, R117: MAC and MACR give the destination and `sr` the values of their configuration functions, of the old
operands, the old destination and the old `sr`; with their moves, and nothing else. -/
def Obligations.MacAndMacrApplyTheirFunctions : Prop :=
  ∀ (s : State) (neg : Bool) (p q : MulReg) (d : AccName) (mv : Moves), MovesUsable s mv →
    ((Instr.mac neg p q d mv).wf = true →
      ∃ t, exec (.mac neg p q d mv) s = .next t ∧
        AluEffect s t d (Config.aluMac neg (s.mul p) (s.mul q) (s.acc d) s.sr) mv) ∧
    ((Instr.macr neg p q d mv).wf = true →
      ∃ t, exec (.macr neg p q d mv) s = .next t ∧
        AluEffect s t d (Config.aluMacr neg (s.mul p) (s.mul q) (s.acc d) s.sr) mv)

/-- R118: MPY; the old destination is not an input. -/
def Obligations.MpyAppliesItsFunction : Prop :=
  ∀ (s : State) (neg : Bool) (p q : MulReg) (d : AccName) (mv : Moves),
    (Instr.mpy neg p q d mv).wf = true → MovesUsable s mv →
    ∃ t, exec (.mpy neg p q d mv) s = .next t ∧
      AluEffect s t d (Config.aluMpy neg (s.mul p) (s.mul q) s.sr) mv

/-- R119, R120: RND and SUBL give the destination and `sr` the values of their configuration functions; with their
moves, and nothing else. -/
def Obligations.RndAndSublApplyTheirFunctions : Prop :=
  ∀ (s : State) (src d : AccName) (mv : Moves), MovesUsable s mv →
    ((Instr.rnd d mv).wf = true →
      ∃ t, exec (.rnd d mv) s = .next t ∧ AluEffect s t d (Config.aluRnd (s.acc d) s.sr) mv) ∧
    ((Instr.subl src d mv).wf = true →
      ∃ t, exec (.subl src d mv) s = .next t ∧ AluEffect s t d (Config.aluSubl (s.acc src) (s.acc d) s.sr) mv)

/-- R121: LSL doubles the middle part of the accumulator; the other parts and `sr` are `alu_lsl`'s. -/
def Obligations.LslDoublesMiddlePart : Prop :=
  ∀ (s : State) (d : AccName) (mv : Moves), (Instr.lsl d mv).wf = true → MovesUsable s mv →
    ∃ t, exec (.lsl d mv) s = .next t ∧
      (t.acc d).p1 = BitVec.ofNat Config.highBits (2 * (s.acc d).p1.toNat) ∧ AluEffect s t d (lslResult (s.acc d) s.sr) mv

/-- R122: LSR halves the middle part of the accumulator: every bit but the top one moves down by one, and a part whose
top bit is clear is halved exactly; the other parts and `sr` are `alu_lsr`'s. -/
def Obligations.LsrHalvesMiddlePart : Prop :=
  ∀ (s : State) (d : AccName) (mv : Moves), (Instr.lsr d mv).wf = true → MovesUsable s mv →
    ∃ t, exec (.lsr d mv) s = .next t ∧
      (∀ j, j + 1 ≠ Config.highBits → (t.acc d).p1.getLsbD j = (s.acc d).p1.getLsbD (j + 1)) ∧
      (2 * (s.acc d).p1.toNat < 2 ^ Config.highBits → (t.acc d).p1.toNat = (s.acc d).p1.toNat / 2) ∧
      AluEffect s t d (lsrResult (s.acc d) s.sr) mv

/-- R17, R125: ORI sets the bits of its mask in `mr`, keeps the others and the rest of `sr`, and changes nothing else;
mask `$08` sets the scaling mode. -/
def Obligations.OriSetsMaskBitsOfMr : Prop :=
  ∀ (s : State) (mask : BitVec 8),
    ∃ t, exec (.ori mask) s = .next t ∧
      (∀ j, j < 8 → (mrOf t.sr).getLsbD j = ((mrOf s.sr).getLsbD j || mask.getLsbD j)) ∧
      (∀ j, j < 8 → t.sr.getLsbD j = s.sr.getLsbD j) ∧
      (mask.getLsbD 3 = true → scalingMode t.sr = true) ∧
      Frame s t [.mr] [] ∧ t.events = s.events ∧ Flow s t

/-! ### MOVEP and LUA -/

/-- R123: MOVEP from a device register to a register. -/
def Obligations.MovepReadsDeviceToRegister : Prop :=
  ∀ (s : State) (pp : Addr) (d : Reg), (Instr.movepReg pp d).wf = true → MovepUsable s pp →
    ∃ t, exec (.movepReg pp d) s = .next t ∧
      t.read d = received .word d (.bits .word (Config.drawWord (s.drawIndex .y))) ∧
      t.events = s.events ++ [.input .y pp (Config.drawWord (s.drawIndex .y))] ∧
      Frame s t [d] [] ∧ Flow s t

/-- R123: MOVEP from a device register to a word of X: memory, or, where the mode addresses one, to a device register
of X: (R36). -/
def Obligations.MovepReadsDeviceToMemory : Prop :=
  ∀ (s : State) (pp : Addr) (e : Ea), MovepUsable s pp → EaUsable s e → AccessUsable s .x (s.eaAddr .x e) →
    ∃ t, exec (.movepMem pp e) s = .next t ∧ PtrEffect s t e ∧
      (s.isPeriph .x (s.eaAddr .x e) = false →
        t.peek .x (s.eaAddr .x e) = Config.drawWord (s.drawIndex .y) ∧
        t.events = s.events ++ [.input .y pp (Config.drawWord (s.drawIndex .y))]) ∧
      (s.isPeriph .x (s.eaAddr .x e) = true →
        t.peek .x (s.eaAddr .x e) = s.peek .x (s.eaAddr .x e) ∧
        t.events = s.events ++ [.input .y pp (Config.drawWord (s.drawIndex .y)),
          .output .x (s.eaAddr .x e) (Config.drawWord (s.drawIndex .y))]) ∧
      Frame s t (updated e) [(.x, s.eaAddr .x e)] ∧ t.sr = s.sr ∧ Flow s t

/-- R123: MOVEP from a register to a device register. -/
def Obligations.MovepWritesDevice : Prop :=
  ∀ (s : State) (src : Reg) (pp : Addr), MovepUsable s pp →
    ∃ t, exec (.movepOut src pp) s = .next t ∧
      t.events = s.events ++ [.output .y pp (toWord (.reg src) .word (s.read src))] ∧
      Frame s t [] [] ∧ t.sr = s.sr ∧ Flow s t

/-- The spec's decision D26 (R123): MOVEP to an address outside the device registers is refused. -/
def Obligations.MovepOutsideDevicesIsRefused : Prop :=
  ∀ (s : State) (pp : Addr) (q : Reg) (e : Ea), s.rep = none → s.isPeriph .y pp = false →
    exec (.movepReg pp q) s = .refused .notPeripheral ∧ exec (.movepMem pp e) s = .refused .notPeripheral ∧
    exec (.movepOut q pp) s = .refused .notPeripheral

/-- R124: LUA gives `Rd` the value the mode would store, and changes nothing else: the mode's own register and memory
keep their contents. -/
def Obligations.LuaLoadsUpdatedAddress : Prop :=
  ∀ (s : State) (e : Ea) (d : AguNum), (Instr.lua e d).wf = true → EaUsable s e →
    ∃ t, exec (.lua e d) s = .next t ∧ (∀ v, s.aguFor e = some (.value v) → t.R d = v) ∧
      t.R e.k = s.R e.k ∧ Frame s t [.r d] [] ∧ t.sr = s.sr ∧ t.events = s.events ∧ Flow s t

/-! ### Control -/

/-- R126: REP makes the next statement run `count` times in all, and changes nothing else. -/
def Obligations.RepStartsRepeat : Prop :=
  ∀ (s : State) (count : Nat), ControlUsable s → count ≠ 0 →
    ∃ t, exec (.rep count) s = .next t ∧ t.rep = some count ∧ t.pc = s.pc + 1 ∧ t.loops = s.loops ∧
      Frame s t [] [] ∧ t.sr = s.sr ∧ t.events = s.events

/-- R126: with `count` repetitions to run, the statement at the pc runs `count` times before the machine goes on: said
of the advance of the pc, and of every `count` steps that complete. -/
def Obligations.RepeatedStatementRunsCountTimes : Prop :=
  ∀ (s : State) (count : Nat), s.rep = some count → 1 ≤ count →
    ((∀ j, j < count → (State.advance^[j] s).pc = s.pc) ∧
      State.advance^[count] s = (s.setRep none).leave) ∧
    ∀ run, Runs s count run →
      (∀ j, j < count → (run j).pc = s.pc ∧ (run j).rep = some (count - j)) ∧
      (run count).pc = (s.setRep none).leave.pc ∧ (run count).loops = (s.setRep none).leave.loops ∧
      (run count).rep = none

/-- R127: DO pushes a loop of `count` iterations from the next statement to the one before the label, and goes on with
the next statement. What it leaves in `sr` is open (log entry 12). -/
def Obligations.DoPushesLoop : Prop :=
  ∀ (s : State) (count target : Nat), DoUsable s count target →
    ∃ t, exec (.doImm count target) s = .next t ∧ t.pc = s.pc + 1 ∧ t.rep = none ∧
      t.loops = ⟨count, s.pc + 1, target - 1⟩ :: s.loops ∧ t.stackUsed = s.stackUsed + 2 ∧
      Frame s t [.sr] [] ∧ t.events = s.events

/-- R127: DO with a register count takes the register's value as an unsigned integer when it executes. -/
def Obligations.DoTakesRegisterCount : Prop :=
  ∀ (s : State) (src : Reg) (target : Nat), DoUsable s (s.unsigned src) target →
    ∃ t, exec (.doReg src target) s = .next t ∧ t.pc = s.pc + 1 ∧ t.rep = none ∧
      t.loops = ⟨s.unsigned src, s.pc + 1, target - 1⟩ :: s.loops ∧
      (∀ k, src = .n k → (t.loops.head?.map (·.count)) = some (s.N k).toNat) ∧
      Frame s t [.sr] [] ∧ t.events = s.events

/-- R127: the body of a DO loop runs `count` times, and then the machine goes on at the label with the loop gone: said
of the advance of the pc, and of every run through a body that holds no REP, DO or JMP whose steps complete. -/
def Obligations.LoopBodyRunsCountTimes : Prop :=
  ∀ (s : State) (count first last : Nat) (rest : List LoopRecord),
    s.loops = ⟨count, first, last⟩ :: rest → s.pc = first → first ≤ last → 1 ≤ count → s.rep = none →
    ((∀ j, j < count * (last - first + 1) →
        (State.advance^[j] s).pc = first + j % (last - first + 1) ∧ (State.advance^[j] s).loops.tail = rest) ∧
      State.advance^[count * (last - first + 1)] s = (s.setLoops rest).setPc (last + 1)) ∧
    ((∀ p u i, first ≤ p → p ≤ last → s.prog[p]? = some u → decode u = .ok i → isControl i = false) →
      ∀ run, Runs s (count * (last - first + 1)) run →
        (∀ j, j < count * (last - first + 1) →
          (run j).pc = first + j % (last - first + 1) ∧ (run j).loops.tail = rest) ∧
        (run (count * (last - first + 1))).pc = last + 1 ∧ (run (count * (last - first + 1))).loops = rest ∧
        (run (count * (last - first + 1))).rep = none)

/-- R128: JMP goes on at its label and changes nothing else. -/
def Obligations.JmpGoesToLabel : Prop :=
  ∀ (s : State) (target : Nat), ControlUsable s → s.loops = [] →
    ∃ t, exec (.jmp target) s = .next t ∧ t.pc = target ∧ t.loops = [] ∧ t.rep = none ∧
      Frame s t [] [] ∧ t.sr = s.sr ∧ t.events = s.events

/-- The spec's decision D22 (R126, R127): a count of zero is refused, and so is DO with no two free locations of the
system stack. -/
def Obligations.ZeroCountAndFullStackAreRefused : Prop :=
  ∀ (s : State) (src : Reg) (count target : Nat), ControlUsable s →
    exec (.rep 0) s = .refused .repCountZero ∧ exec (.doImm 0 target) s = .refused .doCountZero ∧
    (s.unsigned src = 0 → exec (.doReg src target) s = .refused .doCountZero) ∧
    (s.launch.stackDepth < 2 * (s.loops.length + 1) →
      (count ≠ 0 → exec (.doImm count target) s = .refused .stackOverflow) ∧
      (s.unsigned src ≠ 0 → exec (.doReg src target) s = .refused .stackOverflow))

/-- The spec's decision D22 (R126 to R128, R166): where REP, DO, JMP and MOVEP may not stand or be used, DO with
either kind of count. The body of a DO of the program is one whether or not its loop is active. (The refusal of an
empty body is log entry 18.) -/
def Obligations.LoopPlacementsAreRefused : Prop :=
  ∀ (s : State) (g : LoopRecord) (d label count target : Nat) (pp : Addr) (q : Reg) (e : Ea),
    (s.rep ≠ none →
      exec (.rep count) s = .refused .repeatedControl ∧ exec (.doImm count target) s = .refused .repeatedControl ∧
      exec (.doReg q target) s = .refused .repeatedControl ∧
      exec (.jmp target) s = .refused .repeatedControl ∧ exec (.movepReg pp q) s = .refused .repeatedControl ∧
      exec (.movepMem pp e) s = .refused .repeatedControl ∧ exec (.movepOut q pp) s = .refused .repeatedControl) ∧
    (s.rep = none →
      (DoAt s d label ∧ d < s.pc ∧ (label = s.pc + 1 ∨ label = s.pc + 2)) ∨
        (g ∈ s.loops ∧ g.first ≤ s.pc ∧ (s.pc = g.last ∨ s.pc + 1 = g.last)) →
      exec (.rep count) s = .refused .loopEndRestriction ∧
      exec (.doImm count target) s = .refused .loopEndRestriction ∧
      exec (.doReg q target) s = .refused .loopEndRestriction ∧
      exec (.jmp target) s = .refused .loopEndRestriction) ∧
    (ControlUsable s → g ∈ s.loops → exec (.jmp target) s = .refused .jumpFromLoop) ∧
    (ControlUsable s → 2 * (s.loops.length + 1) ≤ s.launch.stackDepth →
      ∀ i, i = .doImm count target ∧ count ≠ 0 ∨ i = .doReg q target ∧ s.unsigned q ≠ 0 →
        (target ≤ s.pc → exec i s = .refused .labelBeforeDo) ∧
        (target = s.pc + 1 → exec i s = .refused .loopEndRestriction) ∧
        (s.pc + 2 ≤ target → g ∈ s.loops → g.last = target - 1 → exec i s = .refused .sharedLoopEnd))

/-! ### Decoding and stepping -/

/-- Decoding the text of a well-formed instruction gives it back, for every instruction and every operand. -/
def Obligations.DecodeInvertsEncode : Prop := ∀ i : Instr, i.wf = true → decode (encode i) = .ok i

/-- R59: the decoder gives well-formed instructions only. -/
def Obligations.DecodedInstructionsAreWellFormed : Prop :=
  ∀ (t : Text) (i : Instr), decode t = .ok i → i.wf = true

/-- R35, R59: in a decoded XY: reference, of MOVE or of a data-ALU operation, both modes are among those allowed, and
the address registers come from different halves of the file. -/
def Obligations.DecodedXYReferencesAreLegal : Prop :=
  ∀ (t : Text) (i : Instr) (alu : List Reg) (mx my : MemMove), decode t = .ok i →
    fieldOf i = some (alu, .xy mx my) →
    mx.ea.mode ∉ [Mode.postDecN, .indexed, .preDec] ∧ my.ea.mode ∉ [Mode.postDecN, .indexed, .preDec] ∧
    ((mx.ea.k.val ≤ 3 ∧ 4 ≤ my.ea.k.val) ∨ (4 ≤ mx.ea.k.val ∧ my.ea.k.val ≤ 3)) ∧ mx.ea.k ≠ my.ea.k

/-- R111, R81: no decoded statement of a data-ALU operation or a MOVE writes a register twice, and none loads a
register of a number whose `Rn` one of its modes updates. -/
def Obligations.DecodedStatementsWriteOnce : Prop :=
  ∀ (t : Text) (i : Instr) (alu : List Reg) (mv : Moves), decode t = .ok i → fieldOf i = some (alu, mv) →
    ((alu ++ mv.dsts).Pairwise fun u v => u.overlaps v = false) ∧
    ∀ e ∈ mv.eas, e.mode.updates = true → ∀ v ∈ mv.dsts, v ≠ .r e.k ∧ v ≠ .n e.k ∧ v ≠ .m e.k

/-- R17, R111 (the spec's decisions D5 and D24; log entry 25): no decoded instruction reads `sr` or its part `mr` as the
source of a move or as a count, and none names `pc`, which every statement writes, as the destination of a move. -/
def Obligations.DecodedMovesLeaveStatusUnreadAndPcUnwritten : Prop :=
  ∀ (t : Text) (i : Instr), decode t = .ok i →
    (∀ q ∈ srcsOf i, q ≠ .sr ∧ q ≠ .mr) ∧ ∀ d ∈ dstsOf i, d ≠ .pc

/-- Statements of the source's listings and of its addressing-mode figures, one with its symbol resolved, decode to the
instructions they stand for (R53, R54, R57), and a mnemonic that is not in the source is refused by name (R129; the
spec's decision D1). -/
def Obligations.ListingStatementsDecode : Prop :=
  decode (text "mac x0,y0,a x:(r0)+,x0 y:(r4)+,y0") =
    .ok (.mac false .x0 .y0 .a (.xy (.load ⟨.postInc, 0⟩ (.mul .x0)) (.load ⟨.postInc, 4⟩ (.mul .y0)))) ∧
  decode (text "MOVE X:-(R5),B1") = .ok (.moveX (.load ⟨.preDec, 5⟩ (.high .b))) ∧
  decode (text "move (r0)-n0 ;pointer update") = .ok (.moveU ⟨.postDecN, 0⟩) ∧
  decode (text "lua (r1)-,r5") = .ok (.lua ⟨.postDec, 1⟩ 5) ∧
  decode (text "movep a,y:$ffe1") = .ok (.movepOut (.acc .a) 0xFFE1) ∧
  decode (text "add x0,a") = .error .notInSource

/-- D1: when the text at the pc decodes to an instruction, a step runs that instruction and adds nothing around it. -/
def Obligations.StepRunsDecodedInstruction : Prop :=
  ∀ (s : State) (u : Text) (i : Instr), s.prog[s.pc]? = some u → decode u = .ok i → step s = exec i s

/-- The spec's decisions D21 (R162) and D1: the run ends when the pc has passed the last statement; text that is no statement is refused by name. -/
def Obligations.StepEndsPastLastStatement : Prop :=
  ∀ s : State,
    (s.prog.length ≤ s.pc → step s = .fault .endOfRun) ∧
    (∀ u e, s.prog[s.pc]? = some u → decode u = .error e → step s = .refused (.undecoded e))

/-! ### Whole-machine rules -/

/-- Every step keeps the machine's invariant. -/
def Obligations.StepKeepsInvariant : Prop := ∀ s t : State, Inv s → step s = .next t → Inv t

/-- The invariant holds at the start of a run. -/
def Obligations.ResetMeetsInvariant : Prop := Inv State.reset

/-- The spec's decision D19 (R28, R161): at the start of a run the pc is at the first statement, no loop and no repeat is active, and the system
stack is empty. -/
def Obligations.RunStartsAtFirstStatement : Prop :=
  State.reset.pc = 0 ∧ State.reset.loops = [] ∧ State.reset.stackUsed = 0 ∧ State.reset.rep = none

/-- The spec's decisions D16 and D19 (R40): no step changes the program or what the launch fixed. And every step counts
its draws, so that every draw of a later step has a number of its own (R36, D26, a fresh input each time; the counter is
the model's, log entry 4). -/
def Obligations.StepKeepsProgramAndNumbersDrawsAnew : Prop :=
  ∀ s t : State, step s = .next t →
    t.prog = s.prog ∧ t.launch = s.launch ∧
    t.draws = s.draws + 1 ∧ ∀ sp sp' : Space, s.drawIndex sp < t.drawIndex sp'

/-- R13, R12: no addressing mode writes an `Nn` or an `Mn`: an instruction changes one only by naming it as the
destination of a data move. `Rn` is changed only so, by LUA, or by an updating mode of its own number. -/
def Obligations.ModesLeaveOffsetsAndModifiers : Prop :=
  ∀ (i : Instr) (s t : State) (k : AguNum), exec i s = .next t →
    (t.N k ≠ s.N k → .n k ∈ dstsOf i) ∧ (t.M k ≠ s.M k → .m k ∈ dstsOf i) ∧
    (t.R k ≠ s.R k → .r k ∈ dstsOf i ∨ (∃ e, i = .lua e k) ∨ ∃ e ∈ easOf i, e.k = k ∧ e.mode.updates = true)

/-- R17, R113, R123, R124: only the data-ALU operations, DO and ORI change `sr`, and data moves that name `sr` or `mr` as
their destination (log entry 25). -/
def Obligations.OnlyAluDoAndOriChangeStatus : Prop :=
  ∀ (i : Instr) (s t : State), exec i s = .next t → t.sr ≠ s.sr →
    i.mnemonic ∈ [Mnemonic.clr, .mac, .macr, .mpy, .rnd, .subl, .lsl, .lsr, .do_, .ori] ∨
      .sr ∈ dstsOf i ∨ .mr ∈ dstsOf i

/-- R36 (the spec's decision D26): events are only ever added, in program order; each is of a device register, and only
MOVEP makes one. -/
def Obligations.EventsAreKeptInOrder : Prop :=
  ∀ s t : State, step s = .next t → ∃ more : List Event, t.events = s.events ++ more ∧ more.length ≤ 2 ∧
    (∀ e ∈ more, match e with
      | .input sp a _ | .output sp a _ => s.isPeriph sp a = true) ∧
    ∀ u i, s.prog[s.pc]? = some u → decode u = .ok i → i.mnemonic ≠ .movep → more = []

/-- The memory operations: a read gives the word last written there, other addresses keep theirs, and the canonical
form is kept. -/
def Obligations.MemoryKeepsLastWrite : Prop :=
  ∀ (mem : Memory) (a b : Addr) (v : Word),
    (mem.put a.toNat v).get a.toNat = v ∧ (a ≠ b → (mem.put a.toNat v).get b.toNat = mem.get b.toNat) ∧
    (mem.wf = true → (mem.put a.toNat v).wf = true)
end

