-- ==== Sys2Proof/Laws/State.lean ====
section
/-! SUPPORT. One lemma per field per named update of the state, and the accessors after an update, so that no proof
unfolds a record update. -/

namespace Sys2Proof.Machine

variable (s : State)

/-! ### After `setR` -/

@[simp] theorem State.setR_r (k : AguNum) (v : Addr) : (s.setR k v).r = s.r.set k v := rfl
@[simp] theorem State.setR_n (k : AguNum) (v : Addr) : (s.setR k v).n = s.n := rfl
@[simp] theorem State.setR_m (k : AguNum) (v : Addr) : (s.setR k v).m = s.m := rfl
@[simp] theorem State.setR_x0 (k : AguNum) (v : Addr) : (s.setR k v).x0 = s.x0 := rfl
@[simp] theorem State.setR_x1 (k : AguNum) (v : Addr) : (s.setR k v).x1 = s.x1 := rfl
@[simp] theorem State.setR_y0 (k : AguNum) (v : Addr) : (s.setR k v).y0 = s.y0 := rfl
@[simp] theorem State.setR_y1 (k : AguNum) (v : Addr) : (s.setR k v).y1 = s.y1 := rfl
@[simp] theorem State.setR_a (k : AguNum) (v : Addr) : (s.setR k v).a = s.a := rfl
@[simp] theorem State.setR_b (k : AguNum) (v : Addr) : (s.setR k v).b = s.b := rfl
@[simp] theorem State.setR_pc (k : AguNum) (v : Addr) : (s.setR k v).pc = s.pc := rfl
@[simp] theorem State.setR_sr (k : AguNum) (v : Addr) : (s.setR k v).sr = s.sr := rfl
@[simp] theorem State.setR_loops (k : AguNum) (v : Addr) : (s.setR k v).loops = s.loops := rfl
@[simp] theorem State.setR_rep (k : AguNum) (v : Addr) : (s.setR k v).rep = s.rep := rfl
@[simp] theorem State.setR_aguWritten (k : AguNum) (v : Addr) : (s.setR k v).aguWritten = s.aguWritten := rfl
@[simp] theorem State.setR_prog (k : AguNum) (v : Addr) : (s.setR k v).prog = s.prog := rfl
@[simp] theorem State.setR_xmem (k : AguNum) (v : Addr) : (s.setR k v).xmem = s.xmem := rfl
@[simp] theorem State.setR_ymem (k : AguNum) (v : Addr) : (s.setR k v).ymem = s.ymem := rfl
@[simp] theorem State.setR_events (k : AguNum) (v : Addr) : (s.setR k v).events = s.events := rfl
@[simp] theorem State.setR_draws (k : AguNum) (v : Addr) : (s.setR k v).draws = s.draws := rfl
@[simp] theorem State.setR_launch (k : AguNum) (v : Addr) : (s.setR k v).launch = s.launch := rfl
@[simp] theorem State.setR_mul (k : AguNum) (v : Addr) (q' : MulReg) : (s.setR k v).mul q' = s.mul q' := by
  cases q' <;> rfl
@[simp] theorem State.setR_acc (k : AguNum) (v : Addr) (d' : AccName) : (s.setR k v).acc d' = s.acc d' := by
  cases d' <;> rfl
@[simp] theorem State.setR_mem (k : AguNum) (v : Addr) (sp' : Space) : (s.setR k v).mem sp' = s.mem sp' := by
  cases sp' <;> rfl

/-! ### After `setN` -/

@[simp] theorem State.setN_r (k : AguNum) (v : Addr) : (s.setN k v).r = s.r := rfl
@[simp] theorem State.setN_n (k : AguNum) (v : Addr) : (s.setN k v).n = s.n.set k v := rfl
@[simp] theorem State.setN_m (k : AguNum) (v : Addr) : (s.setN k v).m = s.m := rfl
@[simp] theorem State.setN_x0 (k : AguNum) (v : Addr) : (s.setN k v).x0 = s.x0 := rfl
@[simp] theorem State.setN_x1 (k : AguNum) (v : Addr) : (s.setN k v).x1 = s.x1 := rfl
@[simp] theorem State.setN_y0 (k : AguNum) (v : Addr) : (s.setN k v).y0 = s.y0 := rfl
@[simp] theorem State.setN_y1 (k : AguNum) (v : Addr) : (s.setN k v).y1 = s.y1 := rfl
@[simp] theorem State.setN_a (k : AguNum) (v : Addr) : (s.setN k v).a = s.a := rfl
@[simp] theorem State.setN_b (k : AguNum) (v : Addr) : (s.setN k v).b = s.b := rfl
@[simp] theorem State.setN_pc (k : AguNum) (v : Addr) : (s.setN k v).pc = s.pc := rfl
@[simp] theorem State.setN_sr (k : AguNum) (v : Addr) : (s.setN k v).sr = s.sr := rfl
@[simp] theorem State.setN_loops (k : AguNum) (v : Addr) : (s.setN k v).loops = s.loops := rfl
@[simp] theorem State.setN_rep (k : AguNum) (v : Addr) : (s.setN k v).rep = s.rep := rfl
@[simp] theorem State.setN_aguWritten (k : AguNum) (v : Addr) : (s.setN k v).aguWritten = s.aguWritten := rfl
@[simp] theorem State.setN_prog (k : AguNum) (v : Addr) : (s.setN k v).prog = s.prog := rfl
@[simp] theorem State.setN_xmem (k : AguNum) (v : Addr) : (s.setN k v).xmem = s.xmem := rfl
@[simp] theorem State.setN_ymem (k : AguNum) (v : Addr) : (s.setN k v).ymem = s.ymem := rfl
@[simp] theorem State.setN_events (k : AguNum) (v : Addr) : (s.setN k v).events = s.events := rfl
@[simp] theorem State.setN_draws (k : AguNum) (v : Addr) : (s.setN k v).draws = s.draws := rfl
@[simp] theorem State.setN_launch (k : AguNum) (v : Addr) : (s.setN k v).launch = s.launch := rfl
@[simp] theorem State.setN_mul (k : AguNum) (v : Addr) (q' : MulReg) : (s.setN k v).mul q' = s.mul q' := by
  cases q' <;> rfl
@[simp] theorem State.setN_acc (k : AguNum) (v : Addr) (d' : AccName) : (s.setN k v).acc d' = s.acc d' := by
  cases d' <;> rfl
@[simp] theorem State.setN_mem (k : AguNum) (v : Addr) (sp' : Space) : (s.setN k v).mem sp' = s.mem sp' := by
  cases sp' <;> rfl

/-! ### After `setM` -/

@[simp] theorem State.setM_r (k : AguNum) (v : Addr) : (s.setM k v).r = s.r := rfl
@[simp] theorem State.setM_n (k : AguNum) (v : Addr) : (s.setM k v).n = s.n := rfl
@[simp] theorem State.setM_m (k : AguNum) (v : Addr) : (s.setM k v).m = s.m.set k v := rfl
@[simp] theorem State.setM_x0 (k : AguNum) (v : Addr) : (s.setM k v).x0 = s.x0 := rfl
@[simp] theorem State.setM_x1 (k : AguNum) (v : Addr) : (s.setM k v).x1 = s.x1 := rfl
@[simp] theorem State.setM_y0 (k : AguNum) (v : Addr) : (s.setM k v).y0 = s.y0 := rfl
@[simp] theorem State.setM_y1 (k : AguNum) (v : Addr) : (s.setM k v).y1 = s.y1 := rfl
@[simp] theorem State.setM_a (k : AguNum) (v : Addr) : (s.setM k v).a = s.a := rfl
@[simp] theorem State.setM_b (k : AguNum) (v : Addr) : (s.setM k v).b = s.b := rfl
@[simp] theorem State.setM_pc (k : AguNum) (v : Addr) : (s.setM k v).pc = s.pc := rfl
@[simp] theorem State.setM_sr (k : AguNum) (v : Addr) : (s.setM k v).sr = s.sr := rfl
@[simp] theorem State.setM_loops (k : AguNum) (v : Addr) : (s.setM k v).loops = s.loops := rfl
@[simp] theorem State.setM_rep (k : AguNum) (v : Addr) : (s.setM k v).rep = s.rep := rfl
@[simp] theorem State.setM_aguWritten (k : AguNum) (v : Addr) : (s.setM k v).aguWritten = s.aguWritten := rfl
@[simp] theorem State.setM_prog (k : AguNum) (v : Addr) : (s.setM k v).prog = s.prog := rfl
@[simp] theorem State.setM_xmem (k : AguNum) (v : Addr) : (s.setM k v).xmem = s.xmem := rfl
@[simp] theorem State.setM_ymem (k : AguNum) (v : Addr) : (s.setM k v).ymem = s.ymem := rfl
@[simp] theorem State.setM_events (k : AguNum) (v : Addr) : (s.setM k v).events = s.events := rfl
@[simp] theorem State.setM_draws (k : AguNum) (v : Addr) : (s.setM k v).draws = s.draws := rfl
@[simp] theorem State.setM_launch (k : AguNum) (v : Addr) : (s.setM k v).launch = s.launch := rfl
@[simp] theorem State.setM_mul (k : AguNum) (v : Addr) (q' : MulReg) : (s.setM k v).mul q' = s.mul q' := by
  cases q' <;> rfl
@[simp] theorem State.setM_acc (k : AguNum) (v : Addr) (d' : AccName) : (s.setM k v).acc d' = s.acc d' := by
  cases d' <;> rfl
@[simp] theorem State.setM_mem (k : AguNum) (v : Addr) (sp' : Space) : (s.setM k v).mem sp' = s.mem sp' := by
  cases sp' <;> rfl

/-! ### After `setMul` -/

@[simp] theorem State.setMul_r (q : MulReg) (v : Word) : (s.setMul q v).r = s.r := by cases q <;> rfl
@[simp] theorem State.setMul_n (q : MulReg) (v : Word) : (s.setMul q v).n = s.n := by cases q <;> rfl
@[simp] theorem State.setMul_m (q : MulReg) (v : Word) : (s.setMul q v).m = s.m := by cases q <;> rfl
@[simp] theorem State.setMul_a (q : MulReg) (v : Word) : (s.setMul q v).a = s.a := by cases q <;> rfl
@[simp] theorem State.setMul_b (q : MulReg) (v : Word) : (s.setMul q v).b = s.b := by cases q <;> rfl
@[simp] theorem State.setMul_pc (q : MulReg) (v : Word) : (s.setMul q v).pc = s.pc := by cases q <;> rfl
@[simp] theorem State.setMul_sr (q : MulReg) (v : Word) : (s.setMul q v).sr = s.sr := by cases q <;> rfl
@[simp] theorem State.setMul_loops (q : MulReg) (v : Word) : (s.setMul q v).loops = s.loops := by cases q <;> rfl
@[simp] theorem State.setMul_rep (q : MulReg) (v : Word) : (s.setMul q v).rep = s.rep := by cases q <;> rfl
@[simp] theorem State.setMul_aguWritten (q : MulReg) (v : Word) : (s.setMul q v).aguWritten = s.aguWritten := by cases q <;> rfl
@[simp] theorem State.setMul_prog (q : MulReg) (v : Word) : (s.setMul q v).prog = s.prog := by cases q <;> rfl
@[simp] theorem State.setMul_xmem (q : MulReg) (v : Word) : (s.setMul q v).xmem = s.xmem := by cases q <;> rfl
@[simp] theorem State.setMul_ymem (q : MulReg) (v : Word) : (s.setMul q v).ymem = s.ymem := by cases q <;> rfl
@[simp] theorem State.setMul_events (q : MulReg) (v : Word) : (s.setMul q v).events = s.events := by cases q <;> rfl
@[simp] theorem State.setMul_draws (q : MulReg) (v : Word) : (s.setMul q v).draws = s.draws := by cases q <;> rfl
@[simp] theorem State.setMul_launch (q : MulReg) (v : Word) : (s.setMul q v).launch = s.launch := by cases q <;> rfl
@[simp] theorem State.setMul_mul (q : MulReg) (v : Word) (q' : MulReg) : (s.setMul q v).mul q' = if q' = q then v else s.mul q' := by
  cases q <;> cases q' <;> rfl
@[simp] theorem State.setMul_acc (q : MulReg) (v : Word) (d' : AccName) : (s.setMul q v).acc d' = s.acc d' := by
  cases q <;> cases d' <;> rfl
@[simp] theorem State.setMul_mem (q : MulReg) (v : Word) (sp' : Space) : (s.setMul q v).mem sp' = s.mem sp' := by
  cases q <;> cases sp' <;> rfl

/-! ### After `setAcc` -/

@[simp] theorem State.setAcc_r (d : AccName) (v : Acc) : (s.setAcc d v).r = s.r := by cases d <;> rfl
@[simp] theorem State.setAcc_n (d : AccName) (v : Acc) : (s.setAcc d v).n = s.n := by cases d <;> rfl
@[simp] theorem State.setAcc_m (d : AccName) (v : Acc) : (s.setAcc d v).m = s.m := by cases d <;> rfl
@[simp] theorem State.setAcc_x0 (d : AccName) (v : Acc) : (s.setAcc d v).x0 = s.x0 := by cases d <;> rfl
@[simp] theorem State.setAcc_x1 (d : AccName) (v : Acc) : (s.setAcc d v).x1 = s.x1 := by cases d <;> rfl
@[simp] theorem State.setAcc_y0 (d : AccName) (v : Acc) : (s.setAcc d v).y0 = s.y0 := by cases d <;> rfl
@[simp] theorem State.setAcc_y1 (d : AccName) (v : Acc) : (s.setAcc d v).y1 = s.y1 := by cases d <;> rfl
@[simp] theorem State.setAcc_pc (d : AccName) (v : Acc) : (s.setAcc d v).pc = s.pc := by cases d <;> rfl
@[simp] theorem State.setAcc_sr (d : AccName) (v : Acc) : (s.setAcc d v).sr = s.sr := by cases d <;> rfl
@[simp] theorem State.setAcc_loops (d : AccName) (v : Acc) : (s.setAcc d v).loops = s.loops := by cases d <;> rfl
@[simp] theorem State.setAcc_rep (d : AccName) (v : Acc) : (s.setAcc d v).rep = s.rep := by cases d <;> rfl
@[simp] theorem State.setAcc_aguWritten (d : AccName) (v : Acc) : (s.setAcc d v).aguWritten = s.aguWritten := by cases d <;> rfl
@[simp] theorem State.setAcc_prog (d : AccName) (v : Acc) : (s.setAcc d v).prog = s.prog := by cases d <;> rfl
@[simp] theorem State.setAcc_xmem (d : AccName) (v : Acc) : (s.setAcc d v).xmem = s.xmem := by cases d <;> rfl
@[simp] theorem State.setAcc_ymem (d : AccName) (v : Acc) : (s.setAcc d v).ymem = s.ymem := by cases d <;> rfl
@[simp] theorem State.setAcc_events (d : AccName) (v : Acc) : (s.setAcc d v).events = s.events := by cases d <;> rfl
@[simp] theorem State.setAcc_draws (d : AccName) (v : Acc) : (s.setAcc d v).draws = s.draws := by cases d <;> rfl
@[simp] theorem State.setAcc_launch (d : AccName) (v : Acc) : (s.setAcc d v).launch = s.launch := by cases d <;> rfl
@[simp] theorem State.setAcc_mul (d : AccName) (v : Acc) (q' : MulReg) : (s.setAcc d v).mul q' = s.mul q' := by
  cases d <;> cases q' <;> rfl
@[simp] theorem State.setAcc_acc (d : AccName) (v : Acc) (d' : AccName) : (s.setAcc d v).acc d' = if d' = d then v else s.acc d' := by
  cases d <;> cases d' <;> rfl
@[simp] theorem State.setAcc_mem (d : AccName) (v : Acc) (sp' : Space) : (s.setAcc d v).mem sp' = s.mem sp' := by
  cases d <;> cases sp' <;> rfl

/-! ### After `setSr` -/

@[simp] theorem State.setSr_r (v : Status) : (s.setSr v).r = s.r := rfl
@[simp] theorem State.setSr_n (v : Status) : (s.setSr v).n = s.n := rfl
@[simp] theorem State.setSr_m (v : Status) : (s.setSr v).m = s.m := rfl
@[simp] theorem State.setSr_x0 (v : Status) : (s.setSr v).x0 = s.x0 := rfl
@[simp] theorem State.setSr_x1 (v : Status) : (s.setSr v).x1 = s.x1 := rfl
@[simp] theorem State.setSr_y0 (v : Status) : (s.setSr v).y0 = s.y0 := rfl
@[simp] theorem State.setSr_y1 (v : Status) : (s.setSr v).y1 = s.y1 := rfl
@[simp] theorem State.setSr_a (v : Status) : (s.setSr v).a = s.a := rfl
@[simp] theorem State.setSr_b (v : Status) : (s.setSr v).b = s.b := rfl
@[simp] theorem State.setSr_pc (v : Status) : (s.setSr v).pc = s.pc := rfl
@[simp] theorem State.setSr_sr (v : Status) : (s.setSr v).sr = v := rfl
@[simp] theorem State.setSr_loops (v : Status) : (s.setSr v).loops = s.loops := rfl
@[simp] theorem State.setSr_rep (v : Status) : (s.setSr v).rep = s.rep := rfl
@[simp] theorem State.setSr_aguWritten (v : Status) : (s.setSr v).aguWritten = s.aguWritten := rfl
@[simp] theorem State.setSr_prog (v : Status) : (s.setSr v).prog = s.prog := rfl
@[simp] theorem State.setSr_xmem (v : Status) : (s.setSr v).xmem = s.xmem := rfl
@[simp] theorem State.setSr_ymem (v : Status) : (s.setSr v).ymem = s.ymem := rfl
@[simp] theorem State.setSr_events (v : Status) : (s.setSr v).events = s.events := rfl
@[simp] theorem State.setSr_draws (v : Status) : (s.setSr v).draws = s.draws := rfl
@[simp] theorem State.setSr_launch (v : Status) : (s.setSr v).launch = s.launch := rfl
@[simp] theorem State.setSr_mul (v : Status) (q' : MulReg) : (s.setSr v).mul q' = s.mul q' := by
  cases q' <;> rfl
@[simp] theorem State.setSr_acc (v : Status) (d' : AccName) : (s.setSr v).acc d' = s.acc d' := by
  cases d' <;> rfl
@[simp] theorem State.setSr_mem (v : Status) (sp' : Space) : (s.setSr v).mem sp' = s.mem sp' := by
  cases sp' <;> rfl

/-! ### After `setMem` -/

@[simp] theorem State.setMem_r (sp : Space) (v : Memory) : (s.setMem sp v).r = s.r := by cases sp <;> rfl
@[simp] theorem State.setMem_n (sp : Space) (v : Memory) : (s.setMem sp v).n = s.n := by cases sp <;> rfl
@[simp] theorem State.setMem_m (sp : Space) (v : Memory) : (s.setMem sp v).m = s.m := by cases sp <;> rfl
@[simp] theorem State.setMem_x0 (sp : Space) (v : Memory) : (s.setMem sp v).x0 = s.x0 := by cases sp <;> rfl
@[simp] theorem State.setMem_x1 (sp : Space) (v : Memory) : (s.setMem sp v).x1 = s.x1 := by cases sp <;> rfl
@[simp] theorem State.setMem_y0 (sp : Space) (v : Memory) : (s.setMem sp v).y0 = s.y0 := by cases sp <;> rfl
@[simp] theorem State.setMem_y1 (sp : Space) (v : Memory) : (s.setMem sp v).y1 = s.y1 := by cases sp <;> rfl
@[simp] theorem State.setMem_a (sp : Space) (v : Memory) : (s.setMem sp v).a = s.a := by cases sp <;> rfl
@[simp] theorem State.setMem_b (sp : Space) (v : Memory) : (s.setMem sp v).b = s.b := by cases sp <;> rfl
@[simp] theorem State.setMem_pc (sp : Space) (v : Memory) : (s.setMem sp v).pc = s.pc := by cases sp <;> rfl
@[simp] theorem State.setMem_sr (sp : Space) (v : Memory) : (s.setMem sp v).sr = s.sr := by cases sp <;> rfl
@[simp] theorem State.setMem_loops (sp : Space) (v : Memory) : (s.setMem sp v).loops = s.loops := by cases sp <;> rfl
@[simp] theorem State.setMem_rep (sp : Space) (v : Memory) : (s.setMem sp v).rep = s.rep := by cases sp <;> rfl
@[simp] theorem State.setMem_aguWritten (sp : Space) (v : Memory) : (s.setMem sp v).aguWritten = s.aguWritten := by cases sp <;> rfl
@[simp] theorem State.setMem_prog (sp : Space) (v : Memory) : (s.setMem sp v).prog = s.prog := by cases sp <;> rfl
@[simp] theorem State.setMem_events (sp : Space) (v : Memory) : (s.setMem sp v).events = s.events := by cases sp <;> rfl
@[simp] theorem State.setMem_draws (sp : Space) (v : Memory) : (s.setMem sp v).draws = s.draws := by cases sp <;> rfl
@[simp] theorem State.setMem_launch (sp : Space) (v : Memory) : (s.setMem sp v).launch = s.launch := by cases sp <;> rfl
@[simp] theorem State.setMem_mul (sp : Space) (v : Memory) (q' : MulReg) : (s.setMem sp v).mul q' = s.mul q' := by
  cases sp <;> cases q' <;> rfl
@[simp] theorem State.setMem_acc (sp : Space) (v : Memory) (d' : AccName) : (s.setMem sp v).acc d' = s.acc d' := by
  cases sp <;> cases d' <;> rfl
@[simp] theorem State.setMem_mem (sp : Space) (v : Memory) (sp' : Space) : (s.setMem sp v).mem sp' = if sp' = sp then v else s.mem sp' := by
  cases sp <;> cases sp' <;> rfl

/-! ### After `addEvent` -/

@[simp] theorem State.addEvent_r (e : Event) : (s.addEvent e).r = s.r := rfl
@[simp] theorem State.addEvent_n (e : Event) : (s.addEvent e).n = s.n := rfl
@[simp] theorem State.addEvent_m (e : Event) : (s.addEvent e).m = s.m := rfl
@[simp] theorem State.addEvent_x0 (e : Event) : (s.addEvent e).x0 = s.x0 := rfl
@[simp] theorem State.addEvent_x1 (e : Event) : (s.addEvent e).x1 = s.x1 := rfl
@[simp] theorem State.addEvent_y0 (e : Event) : (s.addEvent e).y0 = s.y0 := rfl
@[simp] theorem State.addEvent_y1 (e : Event) : (s.addEvent e).y1 = s.y1 := rfl
@[simp] theorem State.addEvent_a (e : Event) : (s.addEvent e).a = s.a := rfl
@[simp] theorem State.addEvent_b (e : Event) : (s.addEvent e).b = s.b := rfl
@[simp] theorem State.addEvent_pc (e : Event) : (s.addEvent e).pc = s.pc := rfl
@[simp] theorem State.addEvent_sr (e : Event) : (s.addEvent e).sr = s.sr := rfl
@[simp] theorem State.addEvent_loops (e : Event) : (s.addEvent e).loops = s.loops := rfl
@[simp] theorem State.addEvent_rep (e : Event) : (s.addEvent e).rep = s.rep := rfl
@[simp] theorem State.addEvent_aguWritten (e : Event) : (s.addEvent e).aguWritten = s.aguWritten := rfl
@[simp] theorem State.addEvent_prog (e : Event) : (s.addEvent e).prog = s.prog := rfl
@[simp] theorem State.addEvent_xmem (e : Event) : (s.addEvent e).xmem = s.xmem := rfl
@[simp] theorem State.addEvent_ymem (e : Event) : (s.addEvent e).ymem = s.ymem := rfl
@[simp] theorem State.addEvent_events (e : Event) : (s.addEvent e).events = s.events ++ [e] := rfl
@[simp] theorem State.addEvent_draws (e : Event) : (s.addEvent e).draws = s.draws := rfl
@[simp] theorem State.addEvent_launch (e : Event) : (s.addEvent e).launch = s.launch := rfl
@[simp] theorem State.addEvent_mul (e : Event) (q' : MulReg) : (s.addEvent e).mul q' = s.mul q' := by
  cases q' <;> rfl
@[simp] theorem State.addEvent_acc (e : Event) (d' : AccName) : (s.addEvent e).acc d' = s.acc d' := by
  cases d' <;> rfl
@[simp] theorem State.addEvent_mem (e : Event) (sp' : Space) : (s.addEvent e).mem sp' = s.mem sp' := by
  cases sp' <;> rfl

/-! ### After `setPc` -/

@[simp] theorem State.setPc_r (v : Nat) : (s.setPc v).r = s.r := rfl
@[simp] theorem State.setPc_n (v : Nat) : (s.setPc v).n = s.n := rfl
@[simp] theorem State.setPc_m (v : Nat) : (s.setPc v).m = s.m := rfl
@[simp] theorem State.setPc_x0 (v : Nat) : (s.setPc v).x0 = s.x0 := rfl
@[simp] theorem State.setPc_x1 (v : Nat) : (s.setPc v).x1 = s.x1 := rfl
@[simp] theorem State.setPc_y0 (v : Nat) : (s.setPc v).y0 = s.y0 := rfl
@[simp] theorem State.setPc_y1 (v : Nat) : (s.setPc v).y1 = s.y1 := rfl
@[simp] theorem State.setPc_a (v : Nat) : (s.setPc v).a = s.a := rfl
@[simp] theorem State.setPc_b (v : Nat) : (s.setPc v).b = s.b := rfl
@[simp] theorem State.setPc_pc (v : Nat) : (s.setPc v).pc = v := rfl
@[simp] theorem State.setPc_sr (v : Nat) : (s.setPc v).sr = s.sr := rfl
@[simp] theorem State.setPc_loops (v : Nat) : (s.setPc v).loops = s.loops := rfl
@[simp] theorem State.setPc_rep (v : Nat) : (s.setPc v).rep = s.rep := rfl
@[simp] theorem State.setPc_aguWritten (v : Nat) : (s.setPc v).aguWritten = s.aguWritten := rfl
@[simp] theorem State.setPc_prog (v : Nat) : (s.setPc v).prog = s.prog := rfl
@[simp] theorem State.setPc_xmem (v : Nat) : (s.setPc v).xmem = s.xmem := rfl
@[simp] theorem State.setPc_ymem (v : Nat) : (s.setPc v).ymem = s.ymem := rfl
@[simp] theorem State.setPc_events (v : Nat) : (s.setPc v).events = s.events := rfl
@[simp] theorem State.setPc_draws (v : Nat) : (s.setPc v).draws = s.draws := rfl
@[simp] theorem State.setPc_launch (v : Nat) : (s.setPc v).launch = s.launch := rfl
@[simp] theorem State.setPc_mul (v : Nat) (q' : MulReg) : (s.setPc v).mul q' = s.mul q' := by
  cases q' <;> rfl
@[simp] theorem State.setPc_acc (v : Nat) (d' : AccName) : (s.setPc v).acc d' = s.acc d' := by
  cases d' <;> rfl
@[simp] theorem State.setPc_mem (v : Nat) (sp' : Space) : (s.setPc v).mem sp' = s.mem sp' := by
  cases sp' <;> rfl

/-! ### After `setLoops` -/

@[simp] theorem State.setLoops_r (v : List LoopRecord) : (s.setLoops v).r = s.r := rfl
@[simp] theorem State.setLoops_n (v : List LoopRecord) : (s.setLoops v).n = s.n := rfl
@[simp] theorem State.setLoops_m (v : List LoopRecord) : (s.setLoops v).m = s.m := rfl
@[simp] theorem State.setLoops_x0 (v : List LoopRecord) : (s.setLoops v).x0 = s.x0 := rfl
@[simp] theorem State.setLoops_x1 (v : List LoopRecord) : (s.setLoops v).x1 = s.x1 := rfl
@[simp] theorem State.setLoops_y0 (v : List LoopRecord) : (s.setLoops v).y0 = s.y0 := rfl
@[simp] theorem State.setLoops_y1 (v : List LoopRecord) : (s.setLoops v).y1 = s.y1 := rfl
@[simp] theorem State.setLoops_a (v : List LoopRecord) : (s.setLoops v).a = s.a := rfl
@[simp] theorem State.setLoops_b (v : List LoopRecord) : (s.setLoops v).b = s.b := rfl
@[simp] theorem State.setLoops_pc (v : List LoopRecord) : (s.setLoops v).pc = s.pc := rfl
@[simp] theorem State.setLoops_sr (v : List LoopRecord) : (s.setLoops v).sr = s.sr := rfl
@[simp] theorem State.setLoops_loops (v : List LoopRecord) : (s.setLoops v).loops = v := rfl
@[simp] theorem State.setLoops_rep (v : List LoopRecord) : (s.setLoops v).rep = s.rep := rfl
@[simp] theorem State.setLoops_aguWritten (v : List LoopRecord) : (s.setLoops v).aguWritten = s.aguWritten := rfl
@[simp] theorem State.setLoops_prog (v : List LoopRecord) : (s.setLoops v).prog = s.prog := rfl
@[simp] theorem State.setLoops_xmem (v : List LoopRecord) : (s.setLoops v).xmem = s.xmem := rfl
@[simp] theorem State.setLoops_ymem (v : List LoopRecord) : (s.setLoops v).ymem = s.ymem := rfl
@[simp] theorem State.setLoops_events (v : List LoopRecord) : (s.setLoops v).events = s.events := rfl
@[simp] theorem State.setLoops_draws (v : List LoopRecord) : (s.setLoops v).draws = s.draws := rfl
@[simp] theorem State.setLoops_launch (v : List LoopRecord) : (s.setLoops v).launch = s.launch := rfl
@[simp] theorem State.setLoops_mul (v : List LoopRecord) (q' : MulReg) : (s.setLoops v).mul q' = s.mul q' := by
  cases q' <;> rfl
@[simp] theorem State.setLoops_acc (v : List LoopRecord) (d' : AccName) : (s.setLoops v).acc d' = s.acc d' := by
  cases d' <;> rfl
@[simp] theorem State.setLoops_mem (v : List LoopRecord) (sp' : Space) : (s.setLoops v).mem sp' = s.mem sp' := by
  cases sp' <;> rfl

/-! ### After `setRep` -/

@[simp] theorem State.setRep_r (v : Option Nat) : (s.setRep v).r = s.r := rfl
@[simp] theorem State.setRep_n (v : Option Nat) : (s.setRep v).n = s.n := rfl
@[simp] theorem State.setRep_m (v : Option Nat) : (s.setRep v).m = s.m := rfl
@[simp] theorem State.setRep_x0 (v : Option Nat) : (s.setRep v).x0 = s.x0 := rfl
@[simp] theorem State.setRep_x1 (v : Option Nat) : (s.setRep v).x1 = s.x1 := rfl
@[simp] theorem State.setRep_y0 (v : Option Nat) : (s.setRep v).y0 = s.y0 := rfl
@[simp] theorem State.setRep_y1 (v : Option Nat) : (s.setRep v).y1 = s.y1 := rfl
@[simp] theorem State.setRep_a (v : Option Nat) : (s.setRep v).a = s.a := rfl
@[simp] theorem State.setRep_b (v : Option Nat) : (s.setRep v).b = s.b := rfl
@[simp] theorem State.setRep_pc (v : Option Nat) : (s.setRep v).pc = s.pc := rfl
@[simp] theorem State.setRep_sr (v : Option Nat) : (s.setRep v).sr = s.sr := rfl
@[simp] theorem State.setRep_loops (v : Option Nat) : (s.setRep v).loops = s.loops := rfl
@[simp] theorem State.setRep_rep (v : Option Nat) : (s.setRep v).rep = v := rfl
@[simp] theorem State.setRep_aguWritten (v : Option Nat) : (s.setRep v).aguWritten = s.aguWritten := rfl
@[simp] theorem State.setRep_prog (v : Option Nat) : (s.setRep v).prog = s.prog := rfl
@[simp] theorem State.setRep_xmem (v : Option Nat) : (s.setRep v).xmem = s.xmem := rfl
@[simp] theorem State.setRep_ymem (v : Option Nat) : (s.setRep v).ymem = s.ymem := rfl
@[simp] theorem State.setRep_events (v : Option Nat) : (s.setRep v).events = s.events := rfl
@[simp] theorem State.setRep_draws (v : Option Nat) : (s.setRep v).draws = s.draws := rfl
@[simp] theorem State.setRep_launch (v : Option Nat) : (s.setRep v).launch = s.launch := rfl
@[simp] theorem State.setRep_mul (v : Option Nat) (q' : MulReg) : (s.setRep v).mul q' = s.mul q' := by
  cases q' <;> rfl
@[simp] theorem State.setRep_acc (v : Option Nat) (d' : AccName) : (s.setRep v).acc d' = s.acc d' := by
  cases d' <;> rfl
@[simp] theorem State.setRep_mem (v : Option Nat) (sp' : Space) : (s.setRep v).mem sp' = s.mem sp' := by
  cases sp' <;> rfl

/-! ### After `ran` -/

@[simp] theorem State.ran_r (w : List AguNum) : (s.ran w).r = s.r := rfl
@[simp] theorem State.ran_n (w : List AguNum) : (s.ran w).n = s.n := rfl
@[simp] theorem State.ran_m (w : List AguNum) : (s.ran w).m = s.m := rfl
@[simp] theorem State.ran_x0 (w : List AguNum) : (s.ran w).x0 = s.x0 := rfl
@[simp] theorem State.ran_x1 (w : List AguNum) : (s.ran w).x1 = s.x1 := rfl
@[simp] theorem State.ran_y0 (w : List AguNum) : (s.ran w).y0 = s.y0 := rfl
@[simp] theorem State.ran_y1 (w : List AguNum) : (s.ran w).y1 = s.y1 := rfl
@[simp] theorem State.ran_a (w : List AguNum) : (s.ran w).a = s.a := rfl
@[simp] theorem State.ran_b (w : List AguNum) : (s.ran w).b = s.b := rfl
@[simp] theorem State.ran_pc (w : List AguNum) : (s.ran w).pc = s.pc := rfl
@[simp] theorem State.ran_sr (w : List AguNum) : (s.ran w).sr = s.sr := rfl
@[simp] theorem State.ran_loops (w : List AguNum) : (s.ran w).loops = s.loops := rfl
@[simp] theorem State.ran_rep (w : List AguNum) : (s.ran w).rep = s.rep := rfl
@[simp] theorem State.ran_aguWritten (w : List AguNum) : (s.ran w).aguWritten = w := rfl
@[simp] theorem State.ran_prog (w : List AguNum) : (s.ran w).prog = s.prog := rfl
@[simp] theorem State.ran_xmem (w : List AguNum) : (s.ran w).xmem = s.xmem := rfl
@[simp] theorem State.ran_ymem (w : List AguNum) : (s.ran w).ymem = s.ymem := rfl
@[simp] theorem State.ran_events (w : List AguNum) : (s.ran w).events = s.events := rfl
@[simp] theorem State.ran_draws (w : List AguNum) : (s.ran w).draws = s.draws + 1 := rfl
@[simp] theorem State.ran_launch (w : List AguNum) : (s.ran w).launch = s.launch := rfl
@[simp] theorem State.ran_mul (w : List AguNum) (q' : MulReg) : (s.ran w).mul q' = s.mul q' := by
  cases q' <;> rfl
@[simp] theorem State.ran_acc (w : List AguNum) (d' : AccName) : (s.ran w).acc d' = s.acc d' := by
  cases d' <;> rfl
@[simp] theorem State.ran_mem (w : List AguNum) (sp' : Space) : (s.ran w).mem sp' = s.mem sp' := by
  cases sp' <;> rfl

/-! ### The AGU registers after an update -/

@[simp] theorem State.setR_R (j : AguNum) (v : Addr) (k : AguNum) : (s.setR j v).R k = if k = j then v else s.R k := by
  simp only [State.setR, State.R, Vector.getElem_set, Fin.ext_iff, eq_comm]
@[simp] theorem State.setR_N (j : AguNum) (v : Addr) (k : AguNum) : (s.setR j v).N k = s.N k := by
  simp [State.N]
@[simp] theorem State.setR_M (j : AguNum) (v : Addr) (k : AguNum) : (s.setR j v).M k = s.M k := by
  simp [State.M]
@[simp] theorem State.setN_R (j : AguNum) (v : Addr) (k : AguNum) : (s.setN j v).R k = s.R k := by
  simp [State.R]
@[simp] theorem State.setN_N (j : AguNum) (v : Addr) (k : AguNum) : (s.setN j v).N k = if k = j then v else s.N k := by
  simp only [State.setN, State.N, Vector.getElem_set, Fin.ext_iff, eq_comm]
@[simp] theorem State.setN_M (j : AguNum) (v : Addr) (k : AguNum) : (s.setN j v).M k = s.M k := by
  simp [State.M]
@[simp] theorem State.setM_R (j : AguNum) (v : Addr) (k : AguNum) : (s.setM j v).R k = s.R k := by
  simp [State.R]
@[simp] theorem State.setM_N (j : AguNum) (v : Addr) (k : AguNum) : (s.setM j v).N k = s.N k := by
  simp [State.N]
@[simp] theorem State.setM_M (j : AguNum) (v : Addr) (k : AguNum) : (s.setM j v).M k = if k = j then v else s.M k := by
  simp only [State.setM, State.M, Vector.getElem_set, Fin.ext_iff, eq_comm]
@[simp] theorem State.setMul_R (q : MulReg) (v : Word) (k : AguNum) : (s.setMul q v).R k = s.R k := by
  simp [State.R]
@[simp] theorem State.setMul_N (q : MulReg) (v : Word) (k : AguNum) : (s.setMul q v).N k = s.N k := by
  simp [State.N]
@[simp] theorem State.setMul_M (q : MulReg) (v : Word) (k : AguNum) : (s.setMul q v).M k = s.M k := by
  simp [State.M]
@[simp] theorem State.setAcc_R (d : AccName) (v : Acc) (k : AguNum) : (s.setAcc d v).R k = s.R k := by
  simp [State.R]
@[simp] theorem State.setAcc_N (d : AccName) (v : Acc) (k : AguNum) : (s.setAcc d v).N k = s.N k := by
  simp [State.N]
@[simp] theorem State.setAcc_M (d : AccName) (v : Acc) (k : AguNum) : (s.setAcc d v).M k = s.M k := by
  simp [State.M]
@[simp] theorem State.setSr_R (v : Status) (k : AguNum) : (s.setSr v).R k = s.R k := by
  simp [State.R]
@[simp] theorem State.setSr_N (v : Status) (k : AguNum) : (s.setSr v).N k = s.N k := by
  simp [State.N]
@[simp] theorem State.setSr_M (v : Status) (k : AguNum) : (s.setSr v).M k = s.M k := by
  simp [State.M]
@[simp] theorem State.setMem_R (sp : Space) (v : Memory) (k : AguNum) : (s.setMem sp v).R k = s.R k := by
  simp [State.R]
@[simp] theorem State.setMem_N (sp : Space) (v : Memory) (k : AguNum) : (s.setMem sp v).N k = s.N k := by
  simp [State.N]
@[simp] theorem State.setMem_M (sp : Space) (v : Memory) (k : AguNum) : (s.setMem sp v).M k = s.M k := by
  simp [State.M]
@[simp] theorem State.addEvent_R (e : Event) (k : AguNum) : (s.addEvent e).R k = s.R k := by
  simp [State.R]
@[simp] theorem State.addEvent_N (e : Event) (k : AguNum) : (s.addEvent e).N k = s.N k := by
  simp [State.N]
@[simp] theorem State.addEvent_M (e : Event) (k : AguNum) : (s.addEvent e).M k = s.M k := by
  simp [State.M]
@[simp] theorem State.setPc_R (v : Nat) (k : AguNum) : (s.setPc v).R k = s.R k := by
  simp [State.R]
@[simp] theorem State.setPc_N (v : Nat) (k : AguNum) : (s.setPc v).N k = s.N k := by
  simp [State.N]
@[simp] theorem State.setPc_M (v : Nat) (k : AguNum) : (s.setPc v).M k = s.M k := by
  simp [State.M]
@[simp] theorem State.setLoops_R (v : List LoopRecord) (k : AguNum) : (s.setLoops v).R k = s.R k := by
  simp [State.R]
@[simp] theorem State.setLoops_N (v : List LoopRecord) (k : AguNum) : (s.setLoops v).N k = s.N k := by
  simp [State.N]
@[simp] theorem State.setLoops_M (v : List LoopRecord) (k : AguNum) : (s.setLoops v).M k = s.M k := by
  simp [State.M]
@[simp] theorem State.setRep_R (v : Option Nat) (k : AguNum) : (s.setRep v).R k = s.R k := by
  simp [State.R]
@[simp] theorem State.setRep_N (v : Option Nat) (k : AguNum) : (s.setRep v).N k = s.N k := by
  simp [State.N]
@[simp] theorem State.setRep_M (v : Option Nat) (k : AguNum) : (s.setRep v).M k = s.M k := by
  simp [State.M]
@[simp] theorem State.ran_R (w : List AguNum) (k : AguNum) : (s.ran w).R k = s.R k := by
  simp [State.R]
@[simp] theorem State.ran_N (w : List AguNum) (k : AguNum) : (s.ran w).N k = s.N k := by
  simp [State.N]
@[simp] theorem State.ran_M (w : List AguNum) (k : AguNum) : (s.ran w).M k = s.M k := by
  simp [State.M]

end Sys2Proof.Machine
end

