-- ==== Sys2Proof/Laws/Ops.lean ====
section
/-! SUPPORT. What the shared operations do: reading and writing registers, the memory operations and their canonical
form, the writes of a statement made together, and going on to the next statement. -/

namespace Sys2Proof.Machine

/-! ### The status register -/

/-- `mr` after it is replaced. -/
theorem mrOf_withMr (sr : Status) (v : BitVec 8) : mrOf (withMr sr v) = v := by
  apply BitVec.eq_of_getLsbD_eq
  intro j h
  have hj := BitVec.getLsbD_append (x := v) (y := sr.extractLsb' 0 8) (i := 8 + j)
  simp only [show ¬ 8 + j < 8 by omega, if_false, Nat.add_sub_cancel_left] at hj
  refine Eq.trans ?_ hj
  simp [mrOf, withMr, h]

/-- The rest of `sr` keeps its bits when `mr` is replaced. -/
theorem getLsbD_withMr (sr : Status) (v : BitVec 8) (j : Nat) (h : j < 8) :
    (withMr sr v).getLsbD j = sr.getLsbD j := by
  have hj := BitVec.getLsbD_append (x := v) (y := sr.extractLsb' 0 8) (i := j)
  simp only [h, if_true] at hj
  refine Eq.trans hj ?_
  simp [h]

/-! ### Registers -/

theorem Reg.overlaps_self (p : Reg) : p.overlaps p = true := by simp [Reg.overlaps]

theorem Reg.overlaps_symm (p q : Reg) : p.overlaps q = q.overlaps p := by
  rw [Bool.eq_iff_iff]
  cases p <;> cases q <;> simp only [Reg.overlaps, Reg.accOf] <;> simp <;>
    first | done | exact eq_comm | (constructor <;> (rintro (h | h) <;> simp [h]))

/-- `xfer` is the identity where the widths are equal (R112), and an integer immediate enters an AGU register modulo
65536 (R55). -/
@[simp] theorem toBits_bits (w : Width) (src dst : Place) (v : BitVec w.bits) : toBits w src dst (.bits w v) = v := by
  simp [toBits]
theorem toBits_toNat (u w : Width) (src dst : Place) (v : BitVec u.bits) (h : u.bits = w.bits) :
    (toBits w src dst (.bits u v)).toNat = v.toNat := by
  simp only [toBits]
  split <;> simp
@[simp] theorem toAgu_bits (src dst : Place) (v : Addr) : toAgu src dst (.bits .agu v) = v := toBits_bits .agu src dst v
@[simp] theorem toAgu_int (src dst : Place) (v : Int) : toAgu src dst (.int v) = BitVec.ofInt 16 v := rfl
@[simp] theorem toWord_bits (src dst : Place) (v : Word) : toWord src dst (.bits .word v) = v :=
  toBits_bits .word src dst v
@[simp] theorem toAcc_acc (src dst : Place) (v : Acc) : toAcc src dst (.acc v) = v := rfl

/-- A written register holds the transferred value. -/
theorem State.read_write_self (s : State) (d : Reg) (src : Place) (v : Value) (h : d.writable = true) :
    (s.write d src v).read d = received src d v := by
  cases d <;> simp_all [State.write, State.read, received, Reg.writable, mrOf_withMr]

/-- Writing an address, offset or modifier register leaves the other registers. -/
theorem State.read_setR_other (s : State) (k : AguNum) (v : Addr) (q : Reg) (h : q.overlaps (.r k) = false) :
    (s.setR k v).read q = s.read q := by
  cases q <;> simp_all [State.read, Reg.overlaps, Reg.accOf]

theorem State.read_setN_other (s : State) (k : AguNum) (v : Addr) (q : Reg) (h : q.overlaps (.n k) = false) :
    (s.setN k v).read q = s.read q := by
  cases q <;> simp_all [State.read, Reg.overlaps, Reg.accOf]

theorem State.read_setM_other (s : State) (k : AguNum) (v : Addr) (q : Reg) (h : q.overlaps (.m k) = false) :
    (s.setM k v).read q = s.read q := by
  cases q <;> simp_all [State.read, Reg.overlaps, Reg.accOf]

theorem State.read_setMul_other (s : State) (k : MulReg) (v : Word) (q : Reg) (h : q.overlaps (.mul k) = false) :
    (s.setMul k v).read q = s.read q := by
  cases q <;> simp_all [State.read, Reg.overlaps, Reg.accOf]

theorem State.read_setAcc_other (s : State) (d : AccName) (v : Acc) (q : Reg) (h : q.overlaps (.acc d) = false) :
    (s.setAcc d v).read q = s.read q := by
  cases q <;> simp_all [State.read, Reg.overlaps, Reg.accOf]

theorem State.read_setSr_other (s : State) (v : Status) (q : Reg) (h : q.overlaps .sr = false) :
    (s.setSr v).read q = s.read q := by
  cases q <;> simp_all [State.read, Reg.overlaps, Reg.accOf]

/-- Writing a register leaves the registers that share no storage with it. -/
theorem State.read_write_other (s : State) (d q : Reg) (src : Place) (v : Value) (h : q.overlaps d = false) :
    (s.write d src v).read q = s.read q := by
  cases d with
  | r k => exact s.read_setR_other k _ q h
  | n k => exact s.read_setN_other k _ q h
  | m k => exact s.read_setM_other k _ q h
  | mul k => exact s.read_setMul_other k _ q h
  | acc d => exact s.read_setAcc_other d _ q h
  | sr => exact s.read_setSr_other _ q h
  | mr => exact s.read_setSr_other _ q (by cases q <;> simp_all [Reg.overlaps, Reg.accOf])
  | pc => rfl
  | ext d | high d | low d =>
    cases q <;> simp_all [State.write, State.read, Reg.overlaps, Reg.accOf] <;>
      first | (split <;> simp_all) | (intro e; exact absurd e.symm h)

/-- Writing a register leaves everything else. -/
theorem State.write_fields (s : State) (d : Reg) (src : Place) (v : Value) :
    (s.write d src v).pc = s.pc ∧ (s.write d src v).loops = s.loops ∧
    (s.write d src v).rep = s.rep ∧ (s.write d src v).aguWritten = s.aguWritten ∧
    (s.write d src v).prog = s.prog ∧ (s.write d src v).xmem = s.xmem ∧ (s.write d src v).ymem = s.ymem ∧
    (s.write d src v).events = s.events ∧ (s.write d src v).draws = s.draws ∧
    (s.write d src v).launch = s.launch := by
  cases d <;> simp [State.write]

/-! ### Memory -/

theorem Memory.get_erase (mem : Memory) (a b : Nat) :
    Memory.get (Memory.erase mem a) b = if b = a then Config.blankWord else Memory.get mem b := by
  induction mem with
  | nil => simp [Memory.erase, Memory.get]
  | cons p rest ih =>
    obtain ⟨k, u⟩ := p
    simp only [Memory.erase]
    split
    · obtain rfl : k = a := ‹_›
      rw [ih]
      split
      · rfl
      · rename_i h
        simp [Memory.get, Ne.symm h]
    · rename_i h
      simp only [Memory.get, ih]
      split
      · obtain rfl : k = b := ‹_›
        simp [h]
      · rfl

theorem Memory.get_insert (mem : Memory) (a b : Nat) (v : Word) :
    Memory.get (Memory.insert mem a v) b = if b = a then v else Memory.get mem b := by
  induction mem with
  | nil =>
    simp only [Memory.insert, Memory.get]
    by_cases h : b = a
    · simp [h]
    · simp [h, Ne.symm h]
  | cons p rest ih =>
    obtain ⟨k, u⟩ := p
    simp only [Memory.insert]
    split
    · simp only [Memory.get, ih]
      split <;> split <;> first | rfl | omega
    · split
      · obtain rfl : k = a := ‹_›
        simp only [Memory.get]
        by_cases h : b = k
        · simp [h]
        · simp [h, Ne.symm h]
      · simp only [Memory.get]
        by_cases h : b = a
        · simp [h]
        · simp [h, Ne.symm h]

/-- A write of a memory: the written address reads as written, every other address as before. -/
theorem Memory.get_put (mem : Memory) (a b : Nat) (v : Word) :
    Memory.get (Memory.put mem a v) b = if b = a then v else Memory.get mem b := by
  unfold Memory.put
  split
  · rw [Memory.get_erase]
    simp_all
  · exact Memory.get_insert mem a b v

theorem Memory.wfFrom_mono (mem : Memory) (lo lo' : Nat) (h : Memory.wfFrom lo mem = true) (hl : lo' ≤ lo) :
    Memory.wfFrom lo' mem = true := by
  cases mem with
  | nil => rfl
  | cons p rest =>
    simp only [Memory.wfFrom, Bool.and_eq_true, decide_eq_true_eq] at h ⊢
    exact ⟨⟨⟨by omega, h.1.1.2⟩, h.1.2⟩, h.2⟩

theorem Memory.wfFrom_erase (mem : Memory) (lo a : Nat) (h : Memory.wfFrom lo mem = true) :
    Memory.wfFrom lo (Memory.erase mem a) = true := by
  induction mem generalizing lo with
  | nil => rfl
  | cons p rest ih =>
    obtain ⟨k, u⟩ := p
    simp only [Memory.wfFrom, Bool.and_eq_true, decide_eq_true_eq] at h
    simp only [Memory.erase]
    split
    · exact Memory.wfFrom_mono _ _ _ (ih _ h.2) (by omega)
    · simp only [Memory.wfFrom, Bool.and_eq_true, decide_eq_true_eq]
      exact ⟨h.1, ih _ h.2⟩

theorem Memory.wfFrom_insert (mem : Memory) (lo a : Nat) (v : Word) (h : Memory.wfFrom lo mem = true)
    (hv : v ≠ Config.blankWord) (hlo : lo ≤ a) (ha : a < 65536) : Memory.wfFrom lo (Memory.insert mem a v) = true := by
  induction mem generalizing lo with
  | nil => simp [Memory.insert, Memory.wfFrom, hlo, ha, hv]
  | cons p rest ih =>
    obtain ⟨k, u⟩ := p
    simp only [Memory.wfFrom, Bool.and_eq_true, decide_eq_true_eq] at h
    obtain ⟨⟨⟨h1, h2⟩, h3⟩, h4⟩ := h
    simp only [Memory.insert]
    split
    · simp only [Memory.wfFrom, Bool.and_eq_true, decide_eq_true_eq]
      exact ⟨⟨⟨h1, h2⟩, h3⟩, ih _ h4 (by omega)⟩
    · split
      · obtain rfl : k = a := ‹_›
        simp [Memory.wfFrom, h2, h4, hv, hlo]
      · simp only [Memory.wfFrom, Bool.and_eq_true, decide_eq_true_eq]
        exact ⟨⟨⟨hlo, ha⟩, by simpa using hv⟩, ⟨⟨by omega, h2⟩, h3⟩, h4⟩

/-- Every write of a word keeps the canonical form. -/
theorem Memory.wf_put (mem : Memory) (a : Addr) (v : Word) (h : mem.wf = true) :
    (Memory.put mem a.toNat v).wf = true := by
  unfold Memory.put
  split
  · exact Memory.wfFrom_erase mem 0 _ h
  · exact Memory.wfFrom_insert mem 0 _ v h ‹_› (by omega) a.isLt

/-! ### The writes of a statement -/

/-- The registers a write changes. -/
def Write.regs : Write → List Reg
  | .reg d _ _ => [d]
  | .acc d _ => [.acc d]
  | .status _ => [.sr]
  | .ptr k _ => [.r k]
  | .mem _ _ _ | .event _ => []

/-- The word of memory a write changes. -/
def Write.cells : Write → List (Space × Addr)
  | .mem sp a _ => [(sp, a)]
  | .reg _ _ _ | .acc _ _ | .ptr _ _ | .status _ | .event _ => []

/-- The event a write records. -/
def Write.recorded : Write → List Event
  | .event e => [e]
  | .reg _ _ _ | .acc _ _ | .ptr _ _ | .status _ | .mem _ _ _ => []

@[simp] theorem State.read_setMem (s : State) (sp : Space) (v : Memory) (q : Reg) :
    (s.setMem sp v).read q = s.read q := by
  cases q <;> simp [State.read]
@[simp] theorem State.read_addEvent (s : State) (e : Event) (q : Reg) : (s.addEvent e).read q = s.read q := by
  cases q <;> simp [State.read]
@[simp] theorem State.read_setPc (s : State) (v : Nat) (q : Reg) : (s.setPc v).read q = s.read q := by
  cases q <;> simp [State.read]
@[simp] theorem State.read_setLoops (s : State) (v : List LoopRecord) (q : Reg) :
    (s.setLoops v).read q = s.read q := by
  cases q <;> simp [State.read]
@[simp] theorem State.read_setRep (s : State) (v : Option Nat) (q : Reg) : (s.setRep v).read q = s.read q := by
  cases q <;> simp [State.read]
/-- What a statement reads in `pc` is drawn anew for each statement; no other register changes by having run. -/
theorem State.read_ran (s : State) (w : List AguNum) (q : Reg) (h : q ≠ .pc) : (s.ran w).read q = s.read q := by
  cases q <;> simp_all [State.read]

/-- The word of a space depends on its memory only. -/
theorem State.peek_congr (s t : State) (sp : Space) (a : Addr) (h : t.mem sp = s.mem sp) :
    t.peek sp a = s.peek sp a := by
  simp [State.peek, h]

theorem State.mem_write (s : State) (d : Reg) (src : Place) (v : Value) (sp : Space) :
    (s.write d src v).mem sp = s.mem sp := by
  have h := s.write_fields d src v
  cases sp
  · exact h.2.2.2.2.2.1
  · exact h.2.2.2.2.2.2.1

/-- A write leaves the registers that share no storage with those it changes. -/
theorem State.read_apply_other (s : State) (w : Write) (q : Reg) (h : ∀ d ∈ w.regs, q.overlaps d = false) :
    (s.apply w).read q = s.read q := by
  cases w with
  | reg d src v => exact s.read_write_other d q src v (h d (by simp [Write.regs]))
  | acc d v => exact s.read_setAcc_other d v q (h _ (by simp [Write.regs]))
  | ptr k v => exact s.read_setR_other k v q (h _ (by simp [Write.regs]))
  | status v => exact s.read_setSr_other v q (h _ (by simp [Write.regs]))
  | mem sp a v => exact s.read_setMem sp _ q
  | event e => exact s.read_addEvent e q

/-- A write leaves every word of memory but the one it changes. -/
theorem State.peek_apply_other (s : State) (w : Write) (sp : Space) (a : Addr) (h : (sp, a) ∉ w.cells) :
    (s.apply w).peek sp a = s.peek sp a := by
  cases w with
  | reg d src v => exact State.peek_congr _ _ _ _ (s.mem_write d src v sp)
  | acc d v => exact State.peek_congr _ _ _ _ (by simp [State.apply])
  | ptr k v => exact State.peek_congr _ _ _ _ (by simp [State.apply])
  | status v => exact State.peek_congr _ _ _ _ (by simp [State.apply])
  | event e => exact State.peek_congr _ _ _ _ (by simp [State.apply])
  | mem sp' b v =>
    simp only [Write.cells, List.mem_singleton, Prod.mk.injEq, not_and] at h
    simp only [State.apply, State.peek, State.setMem_mem]
    split
    · rename_i e
      subst e
      rw [Memory.get_put, if_neg (fun e => h rfl (BitVec.eq_of_toNat_eq e))]
    · rfl

/-- What no write changes. -/
theorem State.apply_fields (s : State) (w : Write) :
    (s.apply w).pc = s.pc ∧ (s.apply w).loops = s.loops ∧ (s.apply w).rep = s.rep ∧
    (s.apply w).aguWritten = s.aguWritten ∧ (s.apply w).prog = s.prog ∧ (s.apply w).draws = s.draws ∧
    (s.apply w).launch = s.launch ∧ (s.apply w).events = s.events ++ w.recorded := by
  cases w with
  | reg d src v =>
    have h := s.write_fields d src v
    simp [State.apply, Write.recorded, h]
  | acc d v => simp [State.apply, Write.recorded]
  | ptr k v => simp [State.apply, Write.recorded]
  | status v => simp [State.apply, Write.recorded]
  | mem sp a v => simp [State.apply, Write.recorded]
  | event e => simp [State.apply, Write.recorded]

@[simp] theorem State.commit_nil (s : State) : s.commit [] = s := rfl
@[simp] theorem State.commit_cons (s : State) (w : Write) (ws : List Write) :
    s.commit (w :: ws) = (s.apply w).commit ws := rfl
theorem State.commit_append (s : State) (ws vs : List Write) :
    s.commit (ws ++ vs) = (s.commit ws).commit vs := by simp [State.commit]

/-- What no statement's writes change, and the events they record. -/
theorem State.commit_fields (s : State) (ws : List Write) :
    (s.commit ws).pc = s.pc ∧ (s.commit ws).loops = s.loops ∧ (s.commit ws).rep = s.rep ∧
    (s.commit ws).aguWritten = s.aguWritten ∧ (s.commit ws).prog = s.prog ∧ (s.commit ws).draws = s.draws ∧
    (s.commit ws).launch = s.launch ∧ (s.commit ws).events = s.events ++ ws.flatMap Write.recorded := by
  induction ws generalizing s with
  | nil => simp
  | cons w ws ih =>
    have h := ih (s.apply w)
    have g := s.apply_fields w
    simp [h, g]

/-- The writes of a statement leave a register that shares no storage with any they change. -/
theorem State.read_commit_other (s : State) (ws : List Write) (q : Reg)
    (h : ∀ d ∈ ws.flatMap Write.regs, q.overlaps d = false) : (s.commit ws).read q = s.read q := by
  induction ws generalizing s with
  | nil => rfl
  | cons w ws ih =>
    simp only [List.flatMap_cons, List.mem_append] at h
    rw [State.commit_cons, ih _ (fun d hd => h d (.inr hd)), State.read_apply_other _ _ _ (fun d hd => h d (.inl hd))]

/-- The writes of a statement leave every word of memory outside those they change. -/
theorem State.peek_commit_other (s : State) (ws : List Write) (sp : Space) (a : Addr)
    (h : (sp, a) ∉ ws.flatMap Write.cells) : (s.commit ws).peek sp a = s.peek sp a := by
  induction ws generalizing s with
  | nil => rfl
  | cons w ws ih =>
    simp only [List.flatMap_cons, List.mem_append, not_or] at h
    rw [State.commit_cons, ih _ h.2, State.peek_apply_other _ _ _ _ h.1]

/-- Writes none of which is of `sr` or of its part leave `sr`. -/
theorem State.commit_sr (s : State) (ws : List Write) (h : ∀ d ∈ ws.flatMap Write.regs, Reg.sr.overlaps d = false) :
    (s.commit ws).sr = s.sr := by
  simpa [State.read] using s.read_commit_other ws .sr h

/-- Writes none of which is of all of `sr` leave its bits outside `mr`. -/
theorem State.commit_sr_low (s : State) (ws : List Write) (h : Reg.sr ∉ ws.flatMap Write.regs) (j : Nat) (hj : j < 8) :
    (s.commit ws).sr.getLsbD j = s.sr.getLsbD j := by
  induction ws generalizing s with
  | nil => rfl
  | cons w ws ih =>
    simp only [List.flatMap_cons, List.mem_append, not_or] at h
    rw [State.commit_cons, ih _ h.2]
    cases w with
    | reg d src v =>
      cases d with
      | sr => exact absurd (List.mem_singleton.2 rfl) h.1
      | mr => simpa [State.apply, State.write] using getLsbD_withMr s.sr _ j hj
      | _ => simp [State.apply, State.write]
    | status v => exact absurd (List.mem_singleton.2 rfl) h.1
    | _ => simp [State.apply]

/-- A register a statement writes holds its value afterwards, where no later write of the statement touches it. -/
theorem State.read_commit_reg (s : State) (vs ws : List Write) (d : Reg) (src : Place) (v : Value)
    (h : ∀ q ∈ ws.flatMap Write.regs, d.overlaps q = false) (hd : d.writable = true) :
    (s.commit (vs ++ .reg d src v :: ws)).read d = received src d v := by
  rw [State.commit_append, State.commit_cons, State.read_commit_other _ _ _ h]
  exact State.read_write_self _ d src v hd

/-- The same for an address register a mode or LUA writes. -/
theorem State.R_commit_ptr (s : State) (vs ws : List Write) (k : AguNum) (v : Addr)
    (h : ∀ q ∈ ws.flatMap Write.regs, (Reg.r k).overlaps q = false) :
    (s.commit (vs ++ .ptr k v :: ws)).R k = v := by
  have : (s.commit (vs ++ .ptr k v :: ws)).read (.r k) = .bits .agu v := by
    rw [State.commit_append, State.commit_cons, State.read_commit_other _ _ _ h]
    simp [State.apply, State.read]
  simpa [State.read] using this

/-- The same for the accumulator a data-ALU operation writes. -/
theorem State.acc_commit_acc (s : State) (vs ws : List Write) (d : AccName) (v : Acc)
    (h : ∀ q ∈ ws.flatMap Write.regs, (Reg.acc d).overlaps q = false) :
    (s.commit (vs ++ .acc d v :: ws)).acc d = v := by
  have : (s.commit (vs ++ .acc d v :: ws)).read (.acc d) = .acc v := by
    rw [State.commit_append, State.commit_cons, State.read_commit_other _ _ _ h]
    simp [State.apply, State.read]
  simpa [State.read] using this

/-- The same for a word of memory. -/
theorem State.peek_commit_mem (s : State) (vs ws : List Write) (sp : Space) (a : Addr) (v : Word)
    (h : (sp, a) ∉ ws.flatMap Write.cells) :
    (s.commit (vs ++ .mem sp a v :: ws)).peek sp a = v := by
  rw [State.commit_append, State.commit_cons, State.peek_commit_other _ _ _ _ h]
  simp [State.apply, State.peek, Memory.get_put]

/-- The same for `sr`. -/
theorem State.sr_commit_status (s : State) (vs ws : List Write) (v : Status)
    (h : ∀ d ∈ ws.flatMap Write.regs, Reg.sr.overlaps d = false) :
    (s.commit (vs ++ .status v :: ws)).sr = v := by
  rw [State.commit_append, State.commit_cons, State.commit_sr _ _ h]
  simp [State.apply]

/-- No two of the registers share storage. -/
def Apart (ds : List Reg) : Prop := ds.Pairwise fun p q => p.overlaps q = false

/-- Where the registers of a statement's writes are apart, a register written holds its value afterwards. -/
theorem State.read_commit_of_mem (s : State) (ws : List Write) (d : Reg) (src : Place) (v : Value)
    (hm : Write.reg d src v ∈ ws) (hp : Apart (ws.flatMap Write.regs)) (hd : d.writable = true) :
    (s.commit ws).read d = received src d v := by
  obtain ⟨l, r, rfl⟩ := List.append_of_mem hm
  refine State.read_commit_reg s _ _ _ _ _ ?_ hd
  simp only [Apart, List.flatMap_append, List.flatMap_cons, List.pairwise_append, Write.regs] at hp
  exact hp.2.1.2.2 d (by simp)

/-- The same for an address register. -/
theorem State.R_commit_of_mem (s : State) (ws : List Write) (k : AguNum) (v : Addr)
    (hm : Write.ptr k v ∈ ws) (hp : Apart (ws.flatMap Write.regs)) : (s.commit ws).R k = v := by
  obtain ⟨l, r, rfl⟩ := List.append_of_mem hm
  apply State.R_commit_ptr
  simp only [Apart, List.flatMap_append, List.flatMap_cons, List.pairwise_append, Write.regs] at hp
  exact hp.2.1.2.2 _ (by simp)

/-- The same for an accumulator. -/
theorem State.acc_commit_of_mem (s : State) (ws : List Write) (d : AccName) (v : Acc)
    (hm : Write.acc d v ∈ ws) (hp : Apart (ws.flatMap Write.regs)) : (s.commit ws).acc d = v := by
  obtain ⟨l, r, rfl⟩ := List.append_of_mem hm
  apply State.acc_commit_acc
  simp only [Apart, List.flatMap_append, List.flatMap_cons, List.pairwise_append, Write.regs] at hp
  exact hp.2.1.2.2 _ (by simp)

/-- The same for `sr`. -/
theorem State.sr_commit_of_mem (s : State) (ws : List Write) (v : Status)
    (hm : Write.status v ∈ ws) (hp : Apart (ws.flatMap Write.regs)) : (s.commit ws).sr = v := by
  obtain ⟨l, r, rfl⟩ := List.append_of_mem hm
  apply State.sr_commit_status
  simp only [Apart, List.flatMap_append, List.flatMap_cons, List.pairwise_append, Write.regs] at hp
  exact hp.2.1.2.2 _ (by simp)

/-- Where no word is stored to twice, a word stored to holds its value afterwards. -/
theorem State.peek_commit_of_mem (s : State) (ws : List Write) (sp : Space) (a : Addr) (v : Word)
    (hm : Write.mem sp a v ∈ ws) (hp : (ws.flatMap Write.cells).Nodup) : (s.commit ws).peek sp a = v := by
  obtain ⟨l, r, rfl⟩ := List.append_of_mem hm
  apply State.peek_commit_mem
  intro hq
  simp only [List.flatMap_append, List.flatMap_cons, List.nodup_append, Write.cells] at hp
  exact hp.2.1.2.2 (sp, a) (by simp) _ hq rfl

/-! ### After a statement -/

/-- Going on changes nothing but the pc, the loops and the repeat counter. -/
theorem State.advance_fields (s : State) :
    s.advance.R = s.R ∧ s.advance.N = s.N ∧ s.advance.M = s.M ∧ s.advance.mul = s.mul ∧ s.advance.acc = s.acc ∧
    s.advance.sr = s.sr ∧ s.advance.aguWritten = s.aguWritten ∧ s.advance.prog = s.prog ∧
    s.advance.mem = s.mem ∧ s.advance.events = s.events ∧ s.advance.draws = s.draws ∧
    s.advance.launch = s.launch := by
  have hm : ∀ (p q : State), p.x0 = q.x0 → p.x1 = q.x1 → p.y0 = q.y0 → p.y1 = q.y1 → p.mul = q.mul := by
    intro p q h1 h2 h3 h4
    funext k
    cases k <;> simp [State.mul, *]
  have ha : ∀ (p q : State), p.a = q.a → p.b = q.b → p.acc = q.acc := by
    intro p q h1 h2
    funext k
    cases k <;> simp [State.acc, *]
  have hx : ∀ (p q : State), p.xmem = q.xmem → p.ymem = q.ymem → p.mem = q.mem := by
    intro p q h1 h2
    funext k
    cases k <;> simp [State.mem, *]
  have hg : ∀ (p q : State), p.r = q.r → p.R = q.R := by
    intro p q h1
    funext k
    simp [State.R, h1]
  have hn : ∀ (p q : State), p.n = q.n → p.N = q.N := by
    intro p q h1
    funext k
    simp [State.N, h1]
  have hk : ∀ (p q : State), p.m = q.m → p.M = q.M := by
    intro p q h1
    funext k
    simp [State.M, h1]
  unfold State.advance State.leave
  refine ⟨hg _ _ ?_, hn _ _ ?_, hk _ _ ?_, hm _ _ ?_ ?_ ?_ ?_, ha _ _ ?_ ?_, ?_, ?_, ?_, hx _ _ ?_ ?_, ?_, ?_, ?_⟩ <;>
    (repeat' split) <;> simp

@[simp] theorem State.read_advance (s : State) (q : Reg) : s.advance.read q = s.read q := by
  have h := s.advance_fields
  cases q <;> simp [State.read, h]

@[simp] theorem State.peek_advance (s : State) (sp : Space) (a : Addr) : s.advance.peek sp a = s.peek sp a :=
  State.peek_congr _ _ _ _ (by rw [s.advance_fields.2.2.2.2.2.2.2.2.1])

/-- Where leaving a statement goes depends only on the pc and the loops. -/
theorem State.leave_congr (s t : State) (hp : t.pc = s.pc) (hl : t.loops = s.loops) :
    t.leave.pc = s.leave.pc ∧ t.leave.loops = s.leave.loops := by
  unfold State.leave
  rw [hl, hp]
  cases s.loops with
  | nil => simp [hl]
  | cons top rest =>
    dsimp only
    split
    · split <;> simp
    · simp [hl]

/-- Leaving a statement keeps the repeat counter. -/
@[simp] theorem State.leave_rep (s : State) : s.leave.rep = s.rep := by
  unfold State.leave
  repeat' split
  all_goals simp

/-- Where the machine goes on depends only on the pc, the loops and the repeat counter. -/
theorem State.advance_congr (s t : State) (hp : t.pc = s.pc) (hl : t.loops = s.loops) (hr : t.rep = s.rep) :
    t.advance.pc = s.advance.pc ∧ t.advance.loops = s.advance.loops ∧ t.advance.rep = s.advance.rep := by
  unfold State.advance
  rw [hr]
  cases s.rep with
  | none =>
    have h := State.leave_congr s t hp hl
    simp [h, hr]
  | some c =>
    dsimp only
    split
    · simp [hp, hl]
    · have h := State.leave_congr (s.setRep none) (t.setRep none) (by simp [hp]) (by simp [hl])
      simp [h]

/-- What a statement leaves in a register. -/
theorem State.read_retire (s : State) (ws : List Write) (w : List AguNum) (q : Reg) (h : q ≠ .pc) :
    (s.retire ws w).read q = (s.commit ws).read q := by
  simp [State.retire, State.read_ran _ _ _ h]

/-- What a statement leaves in a word of memory. -/
theorem State.peek_retire (s : State) (ws : List Write) (w : List AguNum) (sp : Space) (a : Addr) :
    (s.retire ws w).peek sp a = (s.commit ws).peek sp a := by
  have : ((s.commit ws).advance.ran w).peek sp a = (s.commit ws).advance.peek sp a :=
    State.peek_congr _ _ _ _ (by simp)
  rw [State.retire, this, State.peek_advance]

/-- Everything else after a statement. -/
theorem State.retire_fields (s : State) (ws : List Write) (w : List AguNum) :
    (s.retire ws w).pc = s.advance.pc ∧ (s.retire ws w).loops = s.advance.loops ∧
    (s.retire ws w).rep = s.advance.rep ∧ (s.retire ws w).sr = (s.commit ws).sr ∧
    (s.retire ws w).aguWritten = w ∧ (s.retire ws w).prog = s.prog ∧ (s.retire ws w).draws = s.draws + 1 ∧
    (s.retire ws w).launch = s.launch ∧
    (s.retire ws w).events = s.events ++ ws.flatMap Write.recorded := by
  have hc := s.commit_fields ws
  have ha := (s.commit ws).advance_fields
  have hg := State.advance_congr s (s.commit ws) hc.1 hc.2.1 hc.2.2.1
  simp [State.retire, hc, ha, hg]

/-! ### Outcomes -/

/-- A statement has a next state exactly when nothing stops it. -/
theorem outcome_eq_next (h : Option Halt) (t u : State) : outcome h t = .next u ↔ h = none ∧ t = u := by
  unfold outcome
  split <;> simp

@[simp] theorem outcome_none (t : State) : outcome none t = .next t := rfl

theorem firstHalt_eq_none (h k : Option Halt) : firstHalt h k = none ↔ h = none ∧ k = none := by
  cases h <;> simp [firstHalt]

end Sys2Proof.Machine
end

