-- ==== Sys2Proof/Laws/Agu.lean ====
section
/-! SUPPORT. What the address arithmetic answers: which kind each modifier selects, and the size and place of a modulo
buffer. -/

namespace Sys2Proof.Machine

/-! ### The four kinds of modifier -/

theorem isLinear_iff (m : Addr) : isLinear m = true ↔ m.toNat = 65535 := by
  simp [isLinear, BitVec.toNat_eq]

theorem isReverse_iff (m : Addr) : isReverse m = true ↔ m.toNat = 0 := by
  simp [isReverse, BitVec.toNat_eq]

theorem isModulo_iff (m : Addr) : isModulo m = true ↔ 1 ≤ m.toNat ∧ m.toNat ≤ 32767 := by
  simp [isModulo]

theorem isReserved_iff (m : Addr) : isReserved m = true ↔ 32768 ≤ m.toNat ∧ m.toNat ≤ 65534 := by
  simp [isReserved]

theorem aguAdd_linear (r n m : Addr) (step : AguStep) (h : m.toNat = 65535) :
    aguAdd r step n m = .value (aguLinear r step n) := by
  rw [aguAdd, if_pos ((isLinear_iff m).2 h)]

theorem aguAdd_modulo (r n m : Addr) (step : AguStep) (h : isModulo m = true) :
    aguAdd r step n m = aguModulo r step n m := by
  have h1 := (isModulo_iff m).1 h
  have h2 : ¬ isLinear m = true := by rw [isLinear_iff]; omega
  rw [aguAdd, if_neg h2, if_pos h]

theorem aguAdd_reverse (r n m : Addr) (step : AguStep) (h : m.toNat = 0) :
    aguAdd r step n m = .value (aguReverse r step n) := by
  have h1 : ¬ isLinear m = true := by rw [isLinear_iff]; omega
  have h2 : ¬ isModulo m = true := by rw [isModulo_iff]; omega
  rw [aguAdd, if_neg h1, if_neg h2, if_pos ((isReverse_iff m).2 h)]

theorem aguAdd_reserved (r n m : Addr) (step : AguStep) (h : isReserved m = true) :
    aguAdd r step n m = .reserved := by
  rw [isReserved_iff] at h
  have h1 : ¬ isLinear m = true := by rw [isLinear_iff]; omega
  have h2 : ¬ isModulo m = true := by rw [isModulo_iff]; omega
  have h3 : ¬ isReverse m = true := by rw [isReverse_iff]; omega
  rw [aguAdd, if_neg h1, if_neg h2, if_neg h3]

theorem aguWrap_ne_reserved (r m : Addr) (d : Int) : aguWrap r d m ≠ .reserved := by
  unfold aguWrap
  split
  · simp
  · dsimp only
    split
    · simp
    · split <;> simp

theorem aguModulo_ne_reserved (r n m : Addr) (step : AguStep) : aguModulo r step n m ≠ .reserved := by
  cases step <;> simp only [aguModulo]
  · exact aguWrap_ne_reserved r m 1
  · exact aguWrap_ne_reserved r m (-1)
  · split
    · exact aguWrap_ne_reserved r m _
    · split <;> simp
  · split
    · exact aguWrap_ne_reserved r m _
    · split <;> simp

/-- Address arithmetic is refused exactly for a reserved modifier (R95). -/
theorem aguAdd_eq_reserved_iff (r n m : Addr) (step : AguStep) :
    aguAdd r step n m = .reserved ↔ isReserved m = true := by
  constructor
  · intro h
    rw [isReserved_iff]
    by_cases h1 : m.toNat = 65535
    · simp [aguAdd_linear r n m step h1] at h
    · by_cases h2 : isModulo m = true
      · rw [aguAdd_modulo r n m step h2] at h
        exact absurd h (aguModulo_ne_reserved r n m step)
      · by_cases h3 : m.toNat = 0
        · simp [aguAdd_reverse r n m step h3] at h
        · rw [isModulo_iff] at h2
          have := m.isLt
          omega
  · exact aguAdd_reserved r n m step

/-- The sum of `(Rn+Nn)` stops exactly where `AguAdd` with the step `+N` does (R77, R95). -/
theorem aguIndexed_eq_reserved_iff (r n m : Addr) : aguIndexed r n m = .reserved ↔ isReserved m = true := by
  unfold aguIndexed
  split
  · rename_i h
    rw [isReverse_iff] at h
    simp [isReserved_iff, h]
  · exact aguAdd_eq_reserved_iff r n m .plusN

/-- The sum of `(Rn+Nn)` is a draw exactly where `AguAdd` with the step `+N` gives one (R77, R97). -/
theorem aguIndexed_eq_draw_iff (r n m : Addr) : aguIndexed r n m = .draw ↔ aguAdd r .plusN n m = .draw := by
  unfold aguIndexed
  split
  · rename_i h
    simp [aguAdd_reverse r n m .plusN ((isReverse_iff m).1 h)]
  · rfl

/-! ### The modulo buffer (R92, R93) -/

theorem blockSize_pos (m : Addr) : 0 < blockSize m := by
  unfold blockSize
  positivity

/-- The modulus fits in a block, and a block is less than twice the modulus less one (R93). -/
theorem modulus_le_blockSize (m : Addr) (h : m.toNat ≠ 0) : modulus m ≤ blockSize m ∧ blockSize m ≤ 2 * m.toNat := by
  unfold modulus blockSize blockBits
  have h1 : m.toNat < 2 ^ (m.toNat.log2 + 1) := Nat.lt_log2_self
  have h2 : 2 ^ m.toNat.log2 ≤ m.toNat := Nat.log2_self_le h
  rw [pow_succ] at h1 ⊢
  omega

theorem blockSize_dvd (m : Addr) (h : isModulo m = true) : blockSize m ∣ 65536 := by
  rw [isModulo_iff] at h
  have h2 : blockBits m ≤ 16 := by
    unfold blockBits
    have : m.toNat.log2 < 15 := (Nat.log2_lt (by omega)).2 (by omega)
    omega
  exact Nat.pow_dvd_pow 2 h2

theorem bufferBase_dvd (r m : Addr) : blockSize m ∣ bufferBase r m := by
  unfold bufferBase
  exact Nat.dvd_sub_mod _

theorem bufferBase_le (r m : Addr) : bufferBase r m ≤ r.toNat ∧ r.toNat < bufferBase r m + blockSize m := by
  unfold bufferBase
  have := Nat.mod_lt r.toNat (blockSize_pos m)
  have := Nat.mod_le r.toNat (blockSize m)
  omega

/-- A block never straddles the top of the address space (R93). -/
theorem bufferBase_block_le (r m : Addr) (h : isModulo m = true) : bufferBase r m + blockSize m ≤ 65536 := by
  obtain ⟨q, hq⟩ := blockSize_dvd m h
  obtain ⟨p, hp⟩ := bufferBase_dvd r m
  have h1 := (bufferBase_le r m).1
  have h2 := r.isLt
  have : p < q := by
    by_contra hc
    have : blockSize m * q ≤ blockSize m * p := Nat.mul_le_mul_left _ (by omega)
    omega
  have : blockSize m * (p + 1) ≤ blockSize m * q := Nat.mul_le_mul_left _ (by omega)
  rw [Nat.mul_add] at this
  omega

end Sys2Proof.Machine
end

