-- ==== Sys2Proof/Laws/Codec.lean ====
section
/-! SUPPORT. What the lexer reads from what the encoder writes, and what the readers read from it: names, numbers. -/

namespace Sys2Proof

/-! ### Names -/

theorem regOf_name (q : Reg) : regOf q.name = some q := by
  cases q with
  | r k => revert k; decide
  | n k => revert k; decide
  | m k => revert k; decide
  | mul p => cases p <;> decide
  | acc d => cases d <;> decide
  | ext d => cases d <;> decide
  | high d => cases d <;> decide
  | low d => cases d <;> decide
  | sr | mr | pc => decide

theorem mnemonicOf_name (q : Mnemonic) : mnemonicOf q.name = some q := by cases q <;> decide

/-! ### Clean words: what one word of a statement may be, so that it is read back as written -/

/-- Not empty, and made of word characters in lower case. -/
def cleanWord (w : Text) : Bool := !w.isEmpty && w.all fun c => isWordChar c && toLower c == c

theorem cleanWord_reg (q : Reg) : cleanWord q.name = true := by
  cases q with
  | r k => revert k; decide
  | n k => revert k; decide
  | m k => revert k; decide
  | mul p => cases p <;> decide
  | acc d => cases d <;> decide
  | ext d => cases d <;> decide
  | high d => cases d <;> decide
  | low d => cases d <;> decide
  | sr | mr | pc => decide

theorem cleanWord_space (sp : Space) : cleanWord sp.name = true := by cases sp <;> decide

theorem cleanWord_mnemonic (q : Mnemonic) : cleanWord q.name = true := by cases q <;> decide

/-- A digit's character, and what it reads as. -/
theorem digit_facts (d : Nat) (h : d < 10) :
    isWordChar (BitVec.ofNat 8 (48 + d)) = true ∧
      toLower (BitVec.ofNat 8 (48 + d)) = BitVec.ofNat 8 (48 + d) ∧
      digitOf 10 (BitVec.ofNat 8 (48 + d)) = some d ∧
      BitVec.ofNat 8 (48 + d) ≠ 36#8 ∧ BitVec.ofNat 8 (48 + d) ≠ 46#8 := by
  revert d
  decide

theorem digitsFrom_append (base v : Nat) (a b : Text) :
    digitsFrom base v (a ++ b) = (digitsFrom base v a).bind fun u => digitsFrom base u b := by
  induction a generalizing v with
  | nil => rfl
  | cons c cs ih =>
    simp only [List.cons_append, digitsFrom]
    cases digitOf base c with
    | none => rfl
    | some d => exact ih _

theorem digitsFrom_decimalGo (f n : Nat) (h : n < f) : digitsFrom 10 0 (decimalGo f n) = some n := by
  induction f generalizing n with
  | zero => omega
  | succ f ih =>
    simp only [decimalGo]
    split
    · rename_i hn
      simp [digitsFrom, (digit_facts n hn).2.2.1]
    · rw [digitsFrom_append, ih _ (by omega)]
      simp only [Option.bind_some, digitsFrom, (digit_facts (n % 10) (by omega)).2.2.1]
      congr 1
      omega

theorem digitsFrom_lastDigits (k n u : Nat) :
    digitsFrom 10 u (lastDigits k n) = some (u * 10 ^ k + n % 10 ^ k) := by
  induction k generalizing n with
  | zero => simp [lastDigits, digitsFrom, Nat.mod_one]
  | succ k ih =>
    simp only [lastDigits]
    rw [digitsFrom_append, ih]
    simp only [Option.bind_some, digitsFrom, (digit_facts (n % 10) (by omega)).2.2.1]
    congr 1
    rw [Nat.pow_succ, Nat.mul_comm (10 ^ k) 10, Nat.mod_mul]
    have : u * (10 * 10 ^ k) = u * 10 ^ k * 10 := by ring
    omega

/-- Every character of a decimal number is a digit. -/
theorem decimalGo_digits (f n : Nat) : ∀ c ∈ decimalGo f n, ∃ d, d < 10 ∧ c = BitVec.ofNat 8 (48 + d) := by
  induction f generalizing n with
  | zero => simp [decimalGo]
  | succ f ih =>
    simp only [decimalGo]
    split
    · rename_i hn
      intro c hc
      exact ⟨n, hn, by simpa using hc⟩
    · intro c hc
      rcases List.mem_append.1 hc with hc | hc
      · exact ih _ c hc
      · exact ⟨n % 10, by omega, by simpa using hc⟩

theorem lastDigits_digits (k n : Nat) : ∀ c ∈ lastDigits k n, ∃ d, d < 10 ∧ c = BitVec.ofNat 8 (48 + d) := by
  induction k generalizing n with
  | zero => simp [lastDigits]
  | succ k ih =>
    intro c hc
    rcases List.mem_append.1 hc with hc | hc
    · exact ih _ c hc
    · exact ⟨n % 10, by omega, by simpa using hc⟩

theorem lastDigits_length (k n : Nat) : (lastDigits k n).length = k := by
  induction k generalizing n with
  | zero => rfl
  | succ k ih => simp [lastDigits, ih]

theorem decimal_ne_nil (n : Nat) : decimal n ≠ [] := by
  unfold decimal decimalGo
  split <;> simp

/-- The shape of a decimal number: a first digit, and digits. -/
theorem decimal_shape (n : Nat) :
    ∃ d cs, d < 10 ∧ decimal n = BitVec.ofNat 8 (48 + d) :: cs ∧
      ∀ c ∈ cs, ∃ e, e < 10 ∧ c = BitVec.ofNat 8 (48 + e) := by
  have hd := decimalGo_digits (n + 1) n
  have hn := decimal_ne_nil n
  unfold decimal at *
  match h : decimalGo (n + 1) n with
  | [] => exact absurd h hn
  | c :: cs =>
    rw [h] at hd
    obtain ⟨d, h1, h2⟩ := hd c (by simp)
    exact ⟨d, cs, h1, by rw [h2], fun c hc => hd c (by simp [hc])⟩

theorem cleanWord_of_digits (w : Text) (h : w ≠ [])
    (hd : ∀ c ∈ w, (∃ d, d < 10 ∧ c = BitVec.ofNat 8 (48 + d)) ∨ c = 46) : cleanWord w = true := by
  have h1 : w.isEmpty = false := by cases w <;> simp_all
  simp only [cleanWord, h1, Bool.not_false, Bool.true_and, List.all_eq_true, Bool.and_eq_true, beq_iff_eq]
  intro c hc
  rcases hd c hc with ⟨d, hd1, rfl⟩ | rfl
  · exact ⟨(digit_facts d hd1).1, (digit_facts d hd1).2.1⟩
  · decide

theorem cleanWord_decimal (n : Nat) : cleanWord (decimal n) = true :=
  cleanWord_of_digits _ (decimal_ne_nil n) fun c hc => .inl (decimalGo_digits _ _ c hc)

/-- A decimal fraction as the encoder writes it. -/
theorem cleanWord_fraction (v k : Nat) :
    cleanWord (decimal (v / 10 ^ (k + 1)) ++ 46#8 :: lastDigits (k + 1) v) = true := by
  apply cleanWord_of_digits _ (by simp)
  intro c hc
  rcases List.mem_append.1 hc with hc | hc
  · exact .inl (decimalGo_digits _ _ c hc)
  · rcases List.mem_cons.1 hc with hc | hc
    · exact .inr hc
    · exact .inl (lastDigits_digits _ _ c hc)

/-! ### Numbers -/

/-- A decimal number reads as itself. -/
theorem numberOf_decimal (n : Nat) : numberOf (decimal n) = some n := by
  have hv := digitsFrom_decimalGo (n + 1) n (by omega)
  obtain ⟨d, cs, h1, h2, h3⟩ := decimal_shape n
  unfold decimal at h2
  rw [h2] at hv
  simp [numberOf, decimal, h2, (digit_facts d h1).2.2.2.1, hv]

theorem takeWhile_digits (w t : Text) (h : ∀ c ∈ w, ∃ d, d < 10 ∧ c = BitVec.ofNat 8 (48 + d)) :
    (w ++ 46 :: t).takeWhile (· != 46) = w ∧ (w ++ 46 :: t).dropWhile (· != 46) = 46 :: t := by
  induction w with
  | nil => simp
  | cons c cs ih =>
    obtain ⟨d, hd, rfl⟩ := h c (by simp)
    have := ih fun c hc => h c (by simp [hc])
    simp only [BitVec.ofNat_eq_ofNat] at this
    simp [(digit_facts d hd).2.2.2.2, this]

/-- A decimal fraction reads as the digits and places it was written from. -/
theorem fractionOf_written (v k : Nat) :
    fractionOf (decimal (v / 10 ^ (k + 1)) ++ 46 :: lastDigits (k + 1) v) = some (v, k) := by
  have h := takeWhile_digits (decimal (v / 10 ^ (k + 1))) (lastDigits (k + 1) v) (decimalGo_digits _ _)
  have hl := lastDigits_length (k + 1) v
  have hne : (decimal (v / 10 ^ (k + 1))).isEmpty = false := by
    cases hh : decimal (v / 10 ^ (k + 1)) with
    | nil => exact absurd hh (decimal_ne_nil _)
    | cons _ _ => rfl
  have hd : digitsFrom 10 0 (decimal (v / 10 ^ (k + 1)) ++ lastDigits (k + 1) v) = some v := by
    rw [digitsFrom_append]
    unfold decimal
    rw [digitsFrom_decimalGo _ _ (by omega)]
    simp only [Option.bind_some, digitsFrom_lastDigits]
    congr 1
    exact Nat.div_add_mod' v (10 ^ (k + 1))
  unfold fractionOf
  simp only [h.1, h.2]
  match hm : lastDigits (k + 1) v with
  | [] => rw [hm] at hl; simp at hl
  | c :: cs =>
    rw [hm] at hl hd
    simp at hl
    simp [hne, hd, hl]

theorem fractionOf_digits (w : Text) (h : ∀ c ∈ w, ∃ d, d < 10 ∧ c = BitVec.ofNat 8 (48 + d)) :
    fractionOf w = none := by
  have : w.dropWhile (· != 46#8) = [] := by
    induction w with
    | nil => rfl
    | cons c cs ih =>
      obtain ⟨d, hd, rfl⟩ := h c (by simp)
      simp [(digit_facts d hd).2.2.2.2]
      simpa using ih fun c hc => h c (by simp [hc])
  simp [fractionOf, this]

/-- A decimal number is no fraction. -/
theorem fractionOf_decimal (n : Nat) : fractionOf (decimal n) = none :=
  fractionOf_digits _ (decimalGo_digits _ _)

/-! ### The lexer -/

/-- The token is read back as written, standing alone. -/
def cleanToken : Token → Bool
  | .word w => cleanWord w
  | .other _ => false
  | .hash | .comma | .colon | .lparen | .rparen | .plus | .minus | .star | .slash | .gap => true

/-- The token is a word. -/
def isWordToken : Token → Bool
  | .word _ => true
  | .hash | .comma | .colon | .lparen | .rparen | .plus | .minus | .star | .slash | .gap | .other _ => false

/-- Every token is clean, and no word stands directly after a word. -/
def cleanTokens : List Token → Bool
  | [] => true
  | t :: ts => cleanToken t && !(isWordToken t && (ts.head?.map isWordToken).getD false) && cleanTokens ts

theorem lexGo_word (v w rest : Text) (h : w.all fun c => isWordChar c && toLower c == c) :
    lexGo v (w ++ rest) = lexGo (v ++ w) rest := by
  induction w generalizing v with
  | nil => simp
  | cons c cs ih =>
    simp only [List.all_cons, Bool.and_eq_true, beq_iff_eq] at h
    simp only [List.cons_append, lexGo, h.1.1, if_true, h.1.2]
    rw [ih _ h.2]
    simp

/-- The characters of clean tokens read back as those tokens. -/
theorem lexGo_render (ts : List Token) (w : Text) (h : cleanTokens ts = true)
    (hw : w = [] ∨ (ts.head?.map isWordToken).getD false = false) :
    lexGo w (render ts) = flushWord w ++ ts := by
  induction ts generalizing w with
  | nil => simp [render, lexGo]
  | cons t ts ih =>
    simp only [cleanTokens, Bool.and_eq_true, Bool.not_eq_true', Bool.and_eq_false_iff] at h
    obtain ⟨⟨ht, hsep⟩, hts⟩ := h
    have hr : render (t :: ts) = t.text ++ render ts := rfl
    rw [hr]
    cases t with
    | word u =>
      have hw' : w = [] := by simpa [isWordToken] using hw
      subst hw'
      simp only [cleanToken, cleanWord, Bool.and_eq_true, Bool.not_eq_true'] at ht
      simp only [isWordToken, Bool.true_eq_false, false_or] at hsep
      rw [Token.text, lexGo_word _ _ _ ht.2, ih _ hts (.inr hsep)]
      simp [flushWord, ht.1]
    | other c => simp [cleanToken] at ht
    | _ =>
      simp only [Token.text, List.singleton_append]
      rw [lexGo]
      simp [isWordChar, isBlank, punct, ih [] hts (.inl rfl), flushWord]

/-- The text of clean tokens reads back as those tokens, blanks that separate nothing dropped. -/
theorem lex_render (ts : List Token) (h : cleanTokens ts = true) : lex (render ts) = squeeze ts := by
  simp [lex, lexGo_render ts [] h (.inl rfl), flushWord]

/-- Clean tokens one after the other stay clean where a word does not meet a word. -/
theorem cleanTokens_append (ts us : List Token) :
    cleanTokens (ts ++ us) = true ↔
      cleanTokens ts = true ∧ cleanTokens us = true ∧
        ((ts.getLast?.map isWordToken).getD false && (us.head?.map isWordToken).getD false) = false := by
  induction ts with
  | nil => simp [cleanTokens]
  | cons t ts ih =>
    cases ts with
    | nil =>
      cases us with
      | nil => simp [cleanTokens]
      | cons u us =>
        simp only [List.singleton_append, cleanTokens, List.head?_cons, Option.map_some, Option.getD_some,
          List.head?_nil, Option.map_none, Option.getD_none, List.getLast?_singleton]
        cases isWordToken t <;> cases isWordToken u <;> cases cleanToken t <;> simp
    | cons u ts =>
      have h1 : cleanTokens (t :: u :: ts ++ us) =
          (cleanToken t && !(isWordToken t && isWordToken u) && cleanTokens (u :: ts ++ us)) := rfl
      have h2 : cleanTokens (t :: u :: ts) =
          (cleanToken t && !(isWordToken t && isWordToken u) && cleanTokens (u :: ts)) := rfl
      rw [h1, h2, List.getLast?_cons_cons]
      simp only [Bool.and_eq_true, ih, and_assoc]

theorem cleanToken_reg (q : Reg) : cleanToken (regToken q) = true := cleanWord_reg q

/-- An addressing mode is clean. It ends in a word only where it ends in an offset register. -/
theorem cleanTokens_ea (e : Ea) : cleanTokens e.tokens = true := by
  obtain ⟨mode, k⟩ := e
  cases mode <;> simp [Ea.tokens, cleanTokens, cleanToken, isWordToken, cleanWord_reg]

theorem ea_head (e : Ea) : (e.tokens.head?.map isWordToken).getD false = false := by
  obtain ⟨mode, k⟩ := e
  cases mode <;> rfl

theorem cleanTokens_memMove (sp : Space) (mm : MemMove) : cleanTokens (mm.tokens sp) = true := by
  cases mm with
  | load e d =>
    simp [MemMove.tokens, cleanTokens_append, cleanTokens, cleanToken, isWordToken, regToken, cleanWord_reg,
      cleanWord_space, cleanTokens_ea]
  | store s e =>
    simp [MemMove.tokens, cleanTokens, cleanToken, isWordToken, regToken, cleanWord_reg,
      cleanWord_space, cleanTokens_ea, ea_head]

theorem cleanTokens_imm (v : Imm) : cleanTokens v.tokens = true := by
  cases v with
  | int v =>
    by_cases h : v < 0 <;>
      simp [Imm.tokens, signTokens, natTokens, h, cleanTokens, cleanToken, isWordToken, cleanWord_decimal]
  | frac v k =>
    by_cases h : v < 0 <;>
      simp [Imm.tokens, signTokens, h, cleanTokens, cleanToken, isWordToken, cleanWord_fraction]

theorem cleanTokens_moves (mv : Moves) : cleanTokens mv.tokens = true := by
  cases mv <;>
    simp [Moves.tokens, cleanTokens_append, cleanTokens, cleanToken, isWordToken, regToken, cleanWord_reg,
      cleanTokens_ea, cleanTokens_memMove, cleanTokens_imm]

theorem cleanTokens_field (mv : Moves) : cleanTokens mv.field = true := by
  have h := cleanTokens_moves mv
  cases mv <;> simp_all [Moves.field, cleanTokens, cleanToken, isWordToken]

theorem field_head (mv : Moves) : (mv.field.head?.map isWordToken).getD false = false := by
  cases mv <;> rfl

/-- The operands of the product instructions. -/
theorem cleanTokens_product (neg : Bool) (p q : MulReg) (d : AccName) (mv : Moves) :
    cleanTokens (productTokens neg p q d mv) = true := by
  cases neg <;>
    simp [productTokens, signTokens, cleanTokens, cleanToken, isWordToken, regToken, cleanWord_reg,
      cleanTokens_field, field_head]

/-- What the encoder writes for an instruction's operands is clean. -/
theorem cleanTokens_operands (i : Instr) : cleanTokens i.operands = true := by
  cases i with
  | moveI v d => exact cleanTokens_moves (.i v d)
  | moveR s d => exact cleanTokens_moves (.r s d)
  | moveU e => exact cleanTokens_moves (.u e)
  | moveX mm => exact cleanTokens_moves (.x mm)
  | moveY mm => exact cleanTokens_moves (.y mm)
  | moveXY mx my => exact cleanTokens_moves (.xy mx my)
  | mac neg p q d mv => exact cleanTokens_product neg p q d mv
  | macr neg p q d mv => exact cleanTokens_product neg p q d mv
  | mpy neg p q d mv => exact cleanTokens_product neg p q d mv
  | ori v =>
    have : cleanWord (text "mr") = true := by decide
    simp [Instr.operands, cleanTokens, cleanToken, isWordToken, natTokens, cleanWord_decimal, this]
  | _ =>
    simp [Instr.operands, cleanTokens_append, cleanTokens, cleanToken, isWordToken, regToken, natTokens,
      cleanWord_reg, cleanWord_space, cleanWord_decimal, cleanTokens_ea, ea_head, cleanTokens_field,
      field_head]

end Sys2Proof
end

