-- ==== Sys2Proof/Laws/Operands.lean ====
section
/-! SUPPORT. When operands stop their statement, in the terms of Safety, and what their writes change. -/

namespace Sys2Proof.Machine

theorem aguStops_eq_none (mode : Mode) (g : AguResult) :
    aguStops mode g = none ↔ g ≠ .reserved ∧ (mode = .indexed → g ≠ .draw) := by
  cases g <;> simp [aguStops]

/-- A mode stops its statement exactly when it is not usable. -/
theorem State.eaStops_eq_none (s : State) (e : Ea) : s.eaStops e = none ↔ EaUsable s e := by
  obtain ⟨mode, k⟩ := e
  unfold State.eaStops EaUsable
  by_cases hk : k ∈ s.aguWritten
  · simp [hk]
  · cases mode <;> simp [hk, State.aguFor, modeArith, aguStops_eq_none, aguAdd_eq_reserved_iff,
      aguIndexed_eq_reserved_iff, aguIndexed_eq_draw_iff]

/-- An access stops its statement exactly when it is not usable. -/
theorem State.accessStops_eq_none (s : State) (sp : Space) (a : Addr) :
    s.accessStops sp a = none ↔ AccessUsable s sp a := by
  unfold State.accessStops AccessUsable
  split <;> simp_all

/-- A memory move stops its statement exactly when it is not usable. -/
theorem State.memMoveStops_eq_none (s : State) (sp : Space) (mm : MemMove) :
    s.memMoveStops sp mm = none ↔ MemMoveUsable s sp mm := by
  unfold State.memMoveStops MemMoveUsable MemoryUsable State.accessStops
  rw [← State.eaStops_eq_none]
  cases s.eaStops mm.ea with
  | some f => simp
  | none => cases s.isPeriph sp (s.eaAddr sp mm.ea) <;> simp

/-- A move field stops its statement exactly when it is not usable. -/
theorem State.movesStop_eq_none (s : State) (mv : Moves) : s.movesStop mv = none ↔ MovesUsable s mv := by
  cases mv <;> simp [State.movesStop, MovesUsable, State.eaStops_eq_none, State.memMoveStops_eq_none,
    firstHalt_eq_none]

/-! ### What the writes of the operand forms change -/

/-- The writes of a mode: its address register where it updates, no word of memory, no event. -/
theorem State.eaWrites_spec (s : State) (sp : Space) (e : Ea) :
    (s.eaWrites sp e).flatMap Write.regs = updated e ∧ (s.eaWrites sp e).flatMap Write.cells = [] ∧
    (s.eaWrites sp e).flatMap Write.recorded = [] := by
  obtain ⟨mode, k⟩ := e
  cases mode <;> simp [State.eaWrites, updated, Mode.updates, Write.regs, Write.cells, Write.recorded]

/-- The registers a memory move writes, in the order of its writes. -/
def memMoveRegs : MemMove → List Reg
  | .load e d => d :: updated e
  | .store _ e => updated e

/-- The writes of a memory move: its destination and its address register, the word it stores to, no event. -/
theorem State.memMoveWrites_spec (s : State) (sp : Space) (mm : MemMove) :
    (s.memMoveWrites sp mm).flatMap Write.regs = memMoveRegs mm ∧
    (s.memMoveWrites sp mm).flatMap Write.cells = storedBy s sp mm ∧
    (s.memMoveWrites sp mm).flatMap Write.recorded = [] := by
  cases mm with
  | load e d =>
    simp [State.memMoveWrites, s.eaWrites_spec sp e, Write.regs, Write.cells, memMoveRegs, Write.recorded, storedBy]
  | store r e =>
    simp [State.memMoveWrites, s.eaWrites_spec sp e, Write.regs, Write.cells, memMoveRegs, Write.recorded, storedBy]

/-- The registers a move field writes, in the order of its writes. -/
def movesRegs : Moves → List Reg
  | .none => []
  | .i _ d | .r _ d => [d]
  | .u e => updated e
  | .x mm | .y mm => memMoveRegs mm
  | .xy mx my => memMoveRegs mx ++ memMoveRegs my
  | .ry _ d my => d :: memMoveRegs my

theorem storedBy_space (s : State) (sp : Space) (mm : MemMove) (c : Space × Addr) (h : c ∈ storedBy s sp mm) :
    c.1 = sp := by
  cases mm <;> simp [storedBy] at h
  simp [h]

/-- The writes of a move field: the registers it touches, the words it stores to, no event. -/
theorem State.movesWrites_spec (s : State) (mv : Moves) :
    (s.movesWrites mv).flatMap Write.regs = movesRegs mv ∧
    (s.movesWrites mv).flatMap Write.cells = stored s mv ∧
    (s.movesWrites mv).flatMap Write.recorded = [] := by
  cases mv <;>
    simp [State.movesWrites, State.regMoveWrite, immMoveWrite, movesRegs, stored, Write.regs, Write.cells,
      Write.recorded, State.eaWrites_spec, State.memMoveWrites_spec]

/-- No move field stores to one word twice. -/
theorem stored_nodup (s : State) (mv : Moves) : (stored s mv).Nodup := by
  have one : ∀ sp mm, (storedBy s sp mm).Nodup := fun sp mm => by cases mm <;> simp [storedBy]
  cases mv with
  | xy mx my =>
    refine List.nodup_append.2 ⟨one _ _, one _ _, fun a ha b hb hab => ?_⟩
    have h3 := storedBy_space s .x mx a ha
    have h4 := storedBy_space s .y my b hb
    simp [hab, h4] at h3
  | x mm | y mm | ry _ _ mm => exact one _ _
  | none | i _ _ | r _ _ | u _ => simp [stored]

theorem mem_movesRegs (mv : Moves) (d : Reg) : d ∈ movesRegs mv ↔ d ∈ touched mv := by
  cases mv with
  | x mm | y mm =>
    cases mm <;> simp [movesRegs, touched, memMoveRegs, Moves.dsts, Moves.eas, MemMove.dst, MemMove.ea]
  | xy mx my =>
    cases mx <;> cases my <;>
      simp [movesRegs, touched, memMoveRegs, Moves.dsts, Moves.eas, MemMove.dst, MemMove.ea] <;> tauto
  | ry a b my =>
    cases my <;> simp [movesRegs, touched, memMoveRegs, Moves.dsts, Moves.eas, MemMove.dst, MemMove.ea]
  | none | i _ _ | r _ _ | u _ => simp [movesRegs, touched, Moves.dsts, Moves.eas]

/-! ### What well-formedness says of the writes (R81, R111) -/

theorem clash_eq_false (ds : List Reg) : clash ds = false ↔ Apart ds := by
  induction ds with
  | nil => simp [clash, Apart]
  | cons d ds ih => simp [clash, Apart, ih, List.pairwise_cons]

theorem updateClash_eq_false (es : List Ea) (ds : List Reg) :
    updateClash es ds = false ↔ ∀ e ∈ es, e.mode.updates = true → ∀ d ∈ ds, d.aguNum ≠ some e.k := by
  simp [updateClash]

theorem overlaps_r (d : Reg) (k : AguNum) (h : d.aguNum ≠ some k) : d.overlaps (.r k) = false := by
  cases d <;> simp_all [Reg.overlaps, Reg.aguNum, Reg.accOf]

/-- The registers moves may read and write (R16, R17). -/
theorem regsIllFormed_eq_none (srcs dsts : List Reg) :
    regsIllFormed srcs dsts = none ↔ (∀ q ∈ srcs, q.readable = true) ∧ ∀ d ∈ dsts, d.writable = true := by
  unfold regsIllFormed
  rw [← List.all_eq_true, ← List.all_eq_true]
  cases srcs.all Reg.readable <;> cases dsts.all Reg.writable <;> simp

/-- What a well-formed move field keeps: its modes' restrictions, no source that is not read and no destination that is
not written by moves, no two writes of one register, no load of a register of a number whose `Rn` a mode updates. -/
theorem movesIllFormed_eq_none (alu : List Reg) (mv : Moves) :
    movesIllFormed alu mv = none ↔
      mv.modesIllFormed = none ∧ regsIllFormed mv.srcs mv.dsts = none ∧ Apart (alu ++ mv.dsts) ∧
      ∀ e ∈ mv.eas, e.mode.updates = true → ∀ d ∈ mv.dsts, d.aguNum ≠ some e.k := by
  rw [← clash_eq_false, ← updateClash_eq_false]
  unfold movesIllFormed
  cases mv.modesIllFormed <;> cases regsIllFormed mv.srcs mv.dsts <;> cases clash (alu ++ mv.dsts) <;>
    cases updateClash mv.eas mv.dsts <;> simp

/-- In an XY: reference the two modes are usable there and the two address registers differ (R35, R80). -/
theorem xyIllFormed_eq_none (mx my : MemMove) :
    xyIllFormed mx my = none ↔
      mx.ea.mode.inXY = true ∧ my.ea.mode.inXY = true ∧ upperHalf mx.ea.k ≠ upperHalf my.ea.k := by
  unfold xyIllFormed
  cases mx.ea.mode.inXY <;> cases my.ea.mode.inXY <;> simp

/-- The registers a well-formed statement writes are apart. -/
theorem apart_of_wellFormed (alu : List Reg) (mv : Moves) (ha : ∀ d ∈ alu, d.aguNum = none)
    (h : movesIllFormed alu mv = none) : Apart (alu ++ movesRegs mv) := by
  obtain ⟨hm, -, hc, hu⟩ := (movesIllFormed_eq_none alu mv).1 h
  have key : ∀ e ∈ mv.eas, ∀ d ∈ alu ++ mv.dsts, ∀ r ∈ updated e, d.overlaps r = false := by
    intro e he d hd r hr
    by_cases hup : e.mode.updates = true
    · simp only [updated, hup, if_true, List.mem_singleton] at hr
      subst hr
      rcases List.mem_append.1 hd with hd | hd
      · exact overlaps_r d _ (by rw [ha d hd]; simp)
      · exact overlaps_r d _ (hu e he hup d hd)
    · simp [updated, hup] at hr
  have single : ∀ e, Apart (updated e) := fun e => by unfold updated Apart; split <;> simp
  have two : ∀ mx my, mv = .xy mx my → ∀ a ∈ updated mx.ea, ∀ b ∈ updated my.ea, a.overlaps b = false := by
    rintro mx my rfl a ha b hb
    have hk : mx.ea.k ≠ my.ea.k := fun hh => ((xyIllFormed_eq_none mx my).1 hm).2.2 (by rw [hh])
    have ha' : a = .r mx.ea.k := by unfold updated at ha; split at ha <;> simp_all
    have hb' : b = .r my.ea.k := by unfold updated at hb; split at hb <;> simp_all
    rw [ha', hb']
    exact overlaps_r _ _ (by simpa [Reg.aguNum] using hk)
  have sym : ∀ a b : Reg, a.overlaps b = false → b.overlaps a = false := fun a b h => by rwa [Reg.overlaps_symm]
  unfold Apart at *
  rw [List.pairwise_append] at hc ⊢
  have h3 : ∀ a ∈ alu, ∀ b ∈ movesRegs mv, a.overlaps b = false := by
    intro a ha' b hb
    rcases List.mem_append.1 ((mem_movesRegs mv b).1 hb) with hb | hb
    · exact hc.2.2 a ha' b hb
    · simp only [List.mem_flatMap] at hb
      obtain ⟨e, he, hb⟩ := hb
      exact key e he a (by simp [ha']) b hb
  refine ⟨hc.1, ?_, h3⟩
  have hd := hc.2.1
  have key2 : ∀ e ∈ mv.eas, ∀ d ∈ mv.dsts, ∀ r ∈ updated e, d.overlaps r = false :=
    fun e he d hd => key e he d (by simp [hd])
  cases mv with
  | none => simp [movesRegs]
  | i v d => simp [movesRegs]
  | r a b => simp [movesRegs]
  | u e => exact single e
  | x mm | y mm =>
    cases mm with
    | load e d =>
      simp only [movesRegs, memMoveRegs, List.pairwise_cons]
      exact ⟨key2 e (by simp [Moves.eas, MemMove.ea]) d (by simp [Moves.dsts, MemMove.dst]), single e⟩
    | store d e => exact single e
  | xy mx my =>
    have two := two mx my rfl
    simp only [movesRegs]
    cases mx <;> cases my <;>
      simp [memMoveRegs, List.pairwise_append, List.pairwise_cons, Moves.dsts, Moves.eas, MemMove.dst,
        MemMove.ea] at * <;>
      grind
  | ry a b my =>
    simp only [movesRegs]
    cases my <;>
      simp [memMoveRegs, List.pairwise_cons, Moves.dsts, Moves.eas, MemMove.dst, MemMove.ea] at * <;>
      grind

end Sys2Proof.Machine
end

