-- ==== Sys2Proof/Laws/PerInstr.lean ====
section
/-! SUPPORT. Statements made per instruction: the text the encoder writes for an instruction is read by the lexer as
the tokens it was written from. -/

namespace Sys2Proof.Laws.LexEncode

/-- The lexer gives back the tokens of the instruction, blanks that separate nothing dropped. -/
def Statement (i : Instr) : Prop := lex (encode i) = squeeze i.tokens

/-- An instruction's tokens are clean, so the lexer gives them back. -/
theorem of_clean (i : Instr) : Statement i :=
  lex_render _ (by simp [Instr.tokens, cleanTokens, cleanToken, isWordToken, cleanWord_mnemonic, cleanTokens_operands])

theorem moveI (v : Imm) (d : Reg) : Statement (.moveI v d) := of_clean _

theorem moveR (s : Reg) (d : Reg) : Statement (.moveR s d) := of_clean _

theorem moveU (e : Ea) : Statement (.moveU e) := of_clean _

theorem moveX (mm : MemMove) : Statement (.moveX mm) := of_clean _

theorem moveY (mm : MemMove) : Statement (.moveY mm) := of_clean _

theorem moveXY (mx : MemMove) (my : MemMove) : Statement (.moveXY mx my) := of_clean _

theorem clr (d : AccName) (mv : Moves) : Statement (.clr d mv) := of_clean _

theorem mac (neg : Bool) (p : MulReg) (q : MulReg) (d : AccName) (mv : Moves) : Statement (.mac neg p q d mv) := of_clean _

theorem macr (neg : Bool) (p : MulReg) (q : MulReg) (d : AccName) (mv : Moves) : Statement (.macr neg p q d mv) := of_clean _

theorem mpy (neg : Bool) (p : MulReg) (q : MulReg) (d : AccName) (mv : Moves) : Statement (.mpy neg p q d mv) := of_clean _

theorem rnd (d : AccName) (mv : Moves) : Statement (.rnd d mv) := of_clean _

theorem subl (s : AccName) (d : AccName) (mv : Moves) : Statement (.subl s d mv) := of_clean _

theorem lsl (d : AccName) (mv : Moves) : Statement (.lsl d mv) := of_clean _

theorem lsr (d : AccName) (mv : Moves) : Statement (.lsr d mv) := of_clean _

theorem movepReg (pp : Addr) (d : Reg) : Statement (.movepReg pp d) := of_clean _

theorem movepMem (pp : Addr) (e : Ea) : Statement (.movepMem pp e) := of_clean _

theorem movepOut (s : Reg) (pp : Addr) : Statement (.movepOut s pp) := of_clean _

theorem lua (e : Ea) (d : AguNum) : Statement (.lua e d) := of_clean _

theorem rep (c : Nat) : Statement (.rep c) := of_clean _

theorem doImm (c : Nat) (l : Nat) : Statement (.doImm c l) := of_clean _

theorem doReg (s : Reg) (l : Nat) : Statement (.doReg s l) := of_clean _

theorem jmp (l : Nat) : Statement (.jmp l) := of_clean _

theorem ori (v : BitVec 8) : Statement (.ori v) := of_clean _

end Sys2Proof.Laws.LexEncode
end

