-- ==== Sys2Proof/Laws/Step.lean ====
section
/-! SUPPORT. What an instruction can do, said once: an instruction that completes either makes its writes and goes on,
or changes only the control state. -/

namespace Sys2Proof.Machine

/-! ### When the control instructions and MOVEP stop -/

theorem State.movepStops_eq_none (s : State) (pp : Addr) : s.movepStops pp = none ↔ MovepUsable s pp := by
  unfold State.movepStops MovepUsable
  cases s.rep <;> cases s.isPeriph .y pp <;> simp

theorem endsBody_iff (d pc : Nat) (t : Text) :
    endsBody d pc t = true ↔
      ∃ i target, decode t = .ok i ∧ doTarget i = some target ∧ d < pc ∧ (target = pc + 1 ∨ target = pc + 2) := by
  unfold endsBody doTargetOf
  cases decode t with
  | error e => simp
  | ok i => cases h : doTarget i <;> simp [h]

/-- Which statements of a program end the body of one of its DOs. -/
theorem bodyEndsFrom_iff (p : List Text) (k pc : Nat) :
    bodyEndsFrom k pc p = true ↔
      ∃ d u i target, p[d]? = some u ∧ decode u = .ok i ∧ doTarget i = some target ∧ k + d < pc ∧
        (target = pc + 1 ∨ target = pc + 2) := by
  induction p generalizing k with
  | nil => simp [bodyEndsFrom]
  | cons t rest ih =>
    rw [bodyEndsFrom, Bool.or_eq_true, endsBody_iff, ih]
    constructor
    · rintro (⟨i, target, h⟩ | ⟨d, u, i, target, h⟩)
      · exact ⟨0, t, i, target, rfl, h⟩
      · exact ⟨d + 1, u, i, target, h.1, h.2.1, h.2.2.1, by omega, h.2.2.2.2⟩
    · rintro ⟨_ | d, u, i, target, h⟩
      · cases h.1
        exact .inl ⟨i, target, h.2⟩
      · exact .inr ⟨d, u, i, target, h.1, h.2.1, h.2.2.1, by omega, h.2.2.2.2⟩

/-- REP, DO and JMP may stand at the pc exactly where Safety says so. -/
theorem State.controlStops_eq_none (s : State) : s.controlStops = none ↔ ControlUsable s := by
  have hb : bodyEndsFrom 0 s.pc s.prog = false ↔
      ∀ d target, DoAt s d target → d < s.pc → target ≠ s.pc + 1 ∧ target ≠ s.pc + 2 := by
    rw [← Bool.not_eq_true, bodyEndsFrom_iff]
    constructor
    · rintro h d target ⟨u, i, hu, hi, ht⟩ hd
      by_contra hc
      exact h ⟨d, u, i, target, hu, hi, ht, by omega, by omega⟩
    · rintro h ⟨d, u, i, target, hu, hi, ht, hd, hc⟩
      have := h d target ⟨u, i, hu, hi, ht⟩ (by omega)
      omega
  unfold State.controlStops ControlUsable State.atLoopEnd
  rw [← hb]
  cases s.rep <;> cases bodyEndsFrom 0 s.pc s.prog <;> simp

/-- JMP runs where it may stand and no loop is active. -/
theorem State.jmpStops_eq_none (s : State) : s.jmpStops = none ↔ ControlUsable s ∧ s.loops = [] := by
  unfold State.jmpStops
  rw [← State.controlStops_eq_none]
  cases s.controlStops <;> cases s.loops <;> simp

/-- DO runs exactly where Safety says so. -/
theorem State.doStops_eq_none (s : State) (count target : Nat) :
    s.doStops count target = none ↔ DoUsable s count target := by
  unfold State.doStops DoUsable
  rw [← State.controlStops_eq_none]
  have hm : s.maxLoops ≤ s.loops.length ↔ ¬ 2 * (s.loops.length + 1) ≤ s.launch.stackDepth := by
    unfold State.maxLoops
    omega
  cases s.controlStops with
  | some f => simp
  | none =>
    simp only [hm]
    by_cases h1 : count = 0
    · simp [h1]
    by_cases h2 : 2 * (s.loops.length + 1) ≤ s.launch.stackDepth
    · by_cases h3 : s.pc + 2 ≤ target
      · simp [h1, h2, h3, show ¬ target ≤ s.pc by omega, show ¬ target = s.pc + 1 by omega]
      · by_cases h4 : target ≤ s.pc
        · simp [h1, h2, h3, h4]
        · simp [h1, h2, show target = s.pc + 1 by omega]
    · simp [h1, h2]

/-! ### What an instruction does -/

/-- The writes of an instruction that does not itself change the pc; none for REP, DO and JMP. -/
def writesOf (s : State) : Instr → Option (List Write)
  | .moveI v d => some (s.movesWrites (.i v d))
  | .moveR src d => some (s.movesWrites (.r src d))
  | .moveU e => some (s.movesWrites (.u e))
  | .moveX mm => some (s.movesWrites (.x mm))
  | .moveY mm => some (s.movesWrites (.y mm))
  | .moveXY mx my => some (s.movesWrites (.xy mx my))
  | .clr d mv => some (.acc d (clrResult s.sr).1 :: .status (clrResult s.sr).2 :: s.movesWrites mv)
  | .mac neg p q d mv =>
    let g := Config.aluMac neg (s.mul p) (s.mul q) (s.acc d) s.sr
    some (.acc d g.1 :: .status g.2 :: s.movesWrites mv)
  | .macr neg p q d mv =>
    let g := Config.aluMacr neg (s.mul p) (s.mul q) (s.acc d) s.sr
    some (.acc d g.1 :: .status g.2 :: s.movesWrites mv)
  | .mpy neg p q d mv =>
    let g := Config.aluMpy neg (s.mul p) (s.mul q) s.sr
    some (.acc d g.1 :: .status g.2 :: s.movesWrites mv)
  | .rnd d mv =>
    let g := Config.aluRnd (s.acc d) s.sr
    some (.acc d g.1 :: .status g.2 :: s.movesWrites mv)
  | .subl src d mv =>
    let g := Config.aluSubl (s.acc src) (s.acc d) s.sr
    some (.acc d g.1 :: .status g.2 :: s.movesWrites mv)
  | .lsl d mv =>
    let g := lslResult (s.acc d) s.sr
    some (.acc d g.1 :: .status g.2 :: s.movesWrites mv)
  | .lsr d mv =>
    let g := lsrResult (s.acc d) s.sr
    some (.acc d g.1 :: .status g.2 :: s.movesWrites mv)
  | .movepReg pp d => some (.reg d .word (.bits .word (s.memRead .y pp)) :: s.readWrites .y pp)
  | .movepMem pp e =>
    some (s.readWrites .y pp ++ (s.memWrites .x (s.eaAddr .x e) (s.memRead .y pp) ++ s.eaWrites .x e))
  | .movepOut src pp => some (s.memWrites .y pp (s.storeWord src))
  | .lua e d => some [.ptr d (s.aguValue .x e)]
  | .ori mask => some [.status (orMr s.sr mask)]
  | .rep _ | .doImm _ _ | .doReg _ _ | .jmp _ => none

/-- The AGU numbers an instruction writes by a data move or LUA (R165). -/
def aguWritesOf : Instr → List AguNum
  | .moveI _ d | .moveR _ d | .movepReg _ d => aguNums [d]
  | .moveX mm | .moveY mm => aguNums mm.dst
  | .moveXY mx my => aguNums (mx.dst ++ my.dst)
  | .clr _ mv | .rnd _ mv | .lsl _ mv | .lsr _ mv | .subl _ _ mv => aguNums mv.dsts
  | .mac _ _ _ _ mv | .macr _ _ _ _ mv | .mpy _ _ _ _ mv => aguNums mv.dsts
  | .lua _ d => [d]
  | .moveU _ | .movepMem _ _ | .movepOut _ _ | .rep _ | .doImm _ _ | .doReg _ _ | .jmp _ | .ori _ => []

theorem moveStatement_eq_next (s t : State) (mv : Moves) :
    s.moveStatement mv = .next t ↔
      s.movesStop mv = none ∧ s.retire (s.movesWrites mv) (aguNums mv.dsts) = t := outcome_eq_next _ _ _

theorem aluStatement_eq_next (s t : State) (d : AccName) (g : Acc × Status) (mv : Moves) :
    s.aluStatement d g mv = .next t ↔
      s.movesStop mv = none ∧ s.retire (.acc d g.1 :: .status g.2 :: s.movesWrites mv) (aguNums mv.dsts) = t :=
  outcome_eq_next _ _ _

/-- An instruction that completes and is none of REP, DO and JMP makes its writes and goes on. -/
theorem exec_eq_retire (i : Instr) (s t : State) (ws : List Write) (h : exec i s = .next t)
    (hw : writesOf s i = some ws) : t = s.retire ws (aguWritesOf i) := by
  cases i with
  | moveI v d => cases hw; exact ((moveStatement_eq_next s t (.i v d)).1 h).2.symm
  | ori v => cases hw; cases h; rfl
  | moveR a b => cases hw; exact ((moveStatement_eq_next s t (.r a b)).1 h).2.symm
  | moveU e => cases hw; exact ((moveStatement_eq_next s t (.u e)).1 h).2.symm
  | moveX mm => cases hw; exact ((moveStatement_eq_next s t (.x mm)).1 h).2.symm
  | moveY mm => cases hw; exact ((moveStatement_eq_next s t (.y mm)).1 h).2.symm
  | moveXY mx my => cases hw; exact ((moveStatement_eq_next s t (.xy mx my)).1 h).2.symm
  | clr d mv => cases hw; exact ((aluStatement_eq_next s t d _ mv).1 h).2.symm
  | mac neg p q d mv => cases hw; exact ((aluStatement_eq_next s t d _ mv).1 h).2.symm
  | macr neg p q d mv => cases hw; exact ((aluStatement_eq_next s t d _ mv).1 h).2.symm
  | mpy neg p q d mv => cases hw; exact ((aluStatement_eq_next s t d _ mv).1 h).2.symm
  | rnd d mv => cases hw; exact ((aluStatement_eq_next s t d _ mv).1 h).2.symm
  | subl src d mv => cases hw; exact ((aluStatement_eq_next s t d _ mv).1 h).2.symm
  | lsl d mv => cases hw; exact ((aluStatement_eq_next s t d _ mv).1 h).2.symm
  | lsr d mv => cases hw; exact ((aluStatement_eq_next s t d _ mv).1 h).2.symm
  | movepReg pp d => cases hw; unfold exec execMovepReg at h; exact ((outcome_eq_next _ _ _).1 h).2.symm
  | movepMem pp e => cases hw; unfold exec execMovepMem at h; exact ((outcome_eq_next _ _ _).1 h).2.symm
  | movepOut src pp => cases hw; unfold exec execMovepOut at h; exact ((outcome_eq_next _ _ _).1 h).2.symm
  | lua e d => cases hw; unfold exec execLua at h; exact ((outcome_eq_next _ _ _).1 h).2.symm
  | rep _ | doImm _ _ | doReg _ _ | jmp _ => simp [writesOf] at hw

/-- REP, DO and JMP change only the pc, the loops, the repeat counter and (DO) `sr`. -/
theorem exec_control (i : Instr) (s t : State) (h : exec i s = .next t) (hw : writesOf s i = none) :
    ∃ loops rep pc sr, t = ((((s.setLoops loops).setRep rep).setPc pc).setSr sr).ran [] ∧
      (sr = s.sr ∨ i.mnemonic = .do_) := by
  cases i with
  | rep c =>
    refine ⟨s.loops, some c, s.pc + 1, s.sr, ?_, .inl rfl⟩
    unfold exec execRep at h
    exact ((outcome_eq_next _ _ _).1 h).2.symm
  | doImm c l =>
    refine ⟨⟨c, s.pc + 1, l - 1⟩ :: s.loops, s.rep, s.pc + 1, Config.doStatus s.sr, ?_, .inr rfl⟩
    unfold exec execDoImm State.doStatement at h
    exact ((outcome_eq_next _ _ _).1 h).2.symm
  | doReg q l =>
    refine ⟨⟨s.unsigned q, s.pc + 1, l - 1⟩ :: s.loops, s.rep, s.pc + 1, Config.doStatus s.sr, ?_, .inr rfl⟩
    unfold exec execDoReg State.doStatement at h
    exact ((outcome_eq_next _ _ _).1 h).2.symm
  | jmp l =>
    refine ⟨s.loops, s.rep, l, s.sr, ?_, .inl rfl⟩
    unfold exec execJmp at h
    exact ((outcome_eq_next _ _ _).1 h).2.symm
  | _ => simp [writesOf] at hw

/-- A step that completes runs the decoded instruction. -/
theorem step_eq_next (s t : State) (h : step s = .next t) :
    ∃ u i, s.prog[s.pc]? = some u ∧ decode u = .ok i ∧ exec i s = .next t := by
  unfold step State.fetch at h
  split at h
  · cases h
  · rename_i u hu
    split at h
    · cases h
    · exact ⟨u, _, hu, ‹_›, h⟩

end Sys2Proof.Machine
end

