-- ==== Sys2Proof/Machine/Timing.lean ====
section
/-! DEFINITION. The lengths and times the spec gives (R3, R51, R82, R170, R171). They are informative: no instruction
reads time, the machine has no clock (R147, D25), and no step uses them. -/

namespace Sys2Proof.Machine

/-- Clock cycles in one instruction cycle (R3, R170). -/
def clocksPerCycle : Nat := 2

/-- The clocks a mode adds to its instruction; none are stated for `(Rn)` (R72, R82, R170). -/
def extraClocks : Mode → Option Nat
  | .noUpdate => none
  | .postInc | .postDec | .postIncN | .postDecN => some 0
  | .indexed | .preDec => some 2

/-- No mode adds a word to its instruction (R51, R82). -/
def extraWords (_ : Mode) : Nat := 0

/-- The length of a statement in words of P:, where R51 settles it. (That the two-word statement of the IIR listing is
DO is PRESUMED, G15, log entry 32. R51 shows one word for the immediates of the listings; that a MOVE of any other
immediate is one word too is a DESIGN CHOICE, log entry 32.) -/
def instrWords : Instr → Option Nat
  | .moveI _ _ | .moveR _ _ | .movepReg _ _ | .movepMem _ _ | .movepOut _ _ | .rep _ | .ori _ | .rnd _ .none => some 1
  | .clr _ (.xy _ _) | .mac _ _ _ _ (.xy _ _) | .macr _ _ _ _ (.xy _ _) | .mpy _ _ _ _ (.xy _ _) => some 1
  | .macr _ _ _ _ (.u _) => some 1
  | .doImm _ _ => some 2
  | .clr _ _ | .mac _ _ _ _ _ | .macr _ _ _ _ _ | .mpy _ _ _ _ _ | .rnd _ _ => none
  | .moveU _ | .moveX _ | .moveY _ | .moveXY _ _ | .subl _ _ _ | .lsl _ _ | .lsr _ _ => none
  | .lua _ _ | .doReg _ _ | .jmp _ => none

/-- The instruction cycles of a statement before its modes' extra clocks. The source prints only the sums of R171; the
split is PRESUMED (G22, log entry 32). -/
def baseCycles : Instr → Option Nat
  | .clr _ _ | .mac _ _ _ _ _ | .macr _ _ _ _ _ | .mpy _ _ _ _ _ | .rnd _ _ | .subl _ _ _ | .lsl _ _ | .lsr _ _ => some 1
  | .movepReg _ _ | .movepMem _ _ | .movepOut _ _ | .rep _ => some 2
  | .doImm _ _ | .doReg _ _ => some 3
  | .moveI _ _ | .moveR _ _ | .moveU _ | .moveX _ | .moveY _ | .moveXY _ _ | .lua _ _ | .jmp _ | .ori _ => none

end Sys2Proof.Machine
end

