-- ==== Sys2Proof/Tests/Slice0.lean ====
section
/-! SUPPORT. Tests of the model, and for each statement with hypotheses a state and operands that meet them. Expected
results are from the spec: the statements of its listings and the vectors of `95_test_vectors.md`. -/

namespace Sys2Proof.Tests

open Sys2Proof Sys2Proof.Machine Sys2Proof.Claims

/-! ### Well-formedness: for each check a term it refuses -/

theorem test_illFormed_indexed_update_alone :
    (Instr.moveU ⟨.indexed, 0⟩).illFormed = some .modeUpdatesNothingAlone := by decide
theorem test_illFormed_predecrement_alone :
    (Instr.moveU ⟨.preDec, 0⟩).illFormed = some .modeUpdatesNothingAlone := by decide
theorem test_illFormed_mode_in_xy :
    (Instr.moveXY (.load ⟨.postDecN, 0⟩ (.mul .x1)) (.load ⟨.postInc, 4⟩ (.mul .y0))).illFormed =
      some .modeNotInXY := by decide
theorem test_illFormed_xy_bank :
    (Instr.moveXY (.load ⟨.postInc, 0⟩ (.mul .x0)) (.load ⟨.postInc, 1⟩ (.mul .y0))).illFormed =
      some .xyBank := by decide
theorem test_illFormed_two_writes :
    (Instr.clr .a (.r (.n 0) (.high .a))).illFormed = some .twoWrites := by decide
theorem test_illFormed_update_and_load :
    (Instr.moveX (.load ⟨.postInc, 3⟩ (.n 3))).illFormed = some .updateAndLoad := by decide
theorem test_illFormed_lua_mode : (Instr.lua ⟨.noUpdate, 0⟩ 1).illFormed = some .modeUpdatesNothingAlone := by decide
theorem test_illFormed_lua_self : (Instr.lua ⟨.postInc, 1⟩ 1).illFormed = some .luaSelf := by decide
theorem test_illFormed_status_read : (Instr.movepOut .sr 0xFFE0).illFormed = some .statusRead := by decide
theorem test_illFormed_pc_written : (Instr.moveX (.load ⟨.postInc, 0⟩ .pc)).illFormed = some .pcWritten := by decide
theorem test_illFormed_status_twice : (Instr.rnd .a (.r (.mul .x0) .mr)).illFormed = some .twoWrites := by decide
theorem test_illFormed_count : (Instr.rep 65536).illFormed = some .countRange := by decide
theorem test_wellFormed_count : (Instr.doImm 65535 3).wf = true := by decide

/-! ### Decoding: statements as the listings write them (R53 to R57) -/

theorem test_decode_moveI : decode (text "        move    #-1,m0   ;linear") = .ok (.moveI (.int (-1)) (.m 0)) := by
  decide
theorem test_decode_moveI_fraction : decode (text "move #0.5,y1") = .ok (.moveI (.frac 5 0) (.mul .y1)) := by decide
theorem test_decode_moveR : decode (text "move n0,b1") = .ok (.moveR (.n 0) (.high .b)) := by decide
theorem test_decode_moveU : decode (text "move (r0)-n0") = .ok (.moveU ⟨.postDecN, 0⟩) := by decide
theorem test_decode_moveX : decode (text "MOVE Y1,X:(R6+N6)") = .ok (.moveX (.store (.mul .y1) ⟨.indexed, 6⟩)) := by
  decide
theorem test_decode_moveY : decode (text "MOVE Y0,Y:(R3)-") = .ok (.moveY (.store (.mul .y0) ⟨.postDec, 3⟩)) := by
  decide
theorem test_decode_moveXY : decode (text "move a,x:(r5)+n5 y:(r1)+n1,y1") =
    .ok (.moveXY (.store (.acc .a) ⟨.postIncN, 5⟩) (.load ⟨.postIncN, 1⟩ (.mul .y1))) := by decide
theorem test_decode_blank_after_sign : decode (text "move a,x:(r5)+ n1,y:(r1)+n1") =
    .ok (.moveXY (.store (.acc .a) ⟨.postInc, 5⟩) (.store (.n 1) ⟨.postIncN, 1⟩)) := by decide
theorem test_decode_clr : decode (text "clr a x:(r0)+,x0 y:(r4)+,y0") =
    .ok (.clr .a (.xy (.load ⟨.postInc, 0⟩ (.mul .x0)) (.load ⟨.postInc, 4⟩ (.mul .y0)))) := by decide
theorem test_decode_mac : decode (text "mac x0,y0,a y0,b b,y:(r5)+") =
    .ok (.mac false .x0 .y0 .a (.ry (.mul .y0) (.acc .b) (.store (.acc .b) ⟨.postInc, 5⟩))) := by decide
theorem test_decode_macr : decode (text "macr -x0,y1,b a,x:(r5)+ y:(r0),a") =
    .ok (.macr true .x0 .y1 .b (.xy (.store (.acc .a) ⟨.postInc, 5⟩) (.load ⟨.noUpdate, 0⟩ (.acc .a)))) := by decide
theorem test_decode_mpy : decode (text "mpy y0,y1,a") = .ok (.mpy false .y0 .y1 .a .none) := by decide
theorem test_decode_rnd : decode (text "rnd a ;round result") = .ok (.rnd .a .none) := by decide
theorem test_decode_subl : decode (text "subl b,a x:(r0),b b,y:(r4)") =
    .ok (.subl .b .a (.xy (.load ⟨.noUpdate, 0⟩ (.acc .b)) (.store (.acc .b) ⟨.noUpdate, 4⟩))) := by decide
theorem test_decode_lsl : decode (text "lsl a b1,n0") = .ok (.lsl .a (.r (.high .b) (.n 0))) := by decide
theorem test_decode_lsr : decode (text "lsr b n2,a1") = .ok (.lsr .b (.r (.n 2) (.high .a))) := by decide
theorem test_decode_movepReg : decode (text "movep y:$ffe0,y0") = .ok (.movepReg 0xFFE0 (.mul .y0)) := by decide
theorem test_decode_movepMem : decode (text "movep y:$ffe0,x:(r0)") = .ok (.movepMem 0xFFE0 ⟨.noUpdate, 0⟩) := by
  decide
theorem test_decode_movepOut : decode (text "movep a,y:$FFC1") = .ok (.movepOut (.acc .a) 0xFFC1) := by decide
theorem test_decode_lua : decode (text "lua (r0)+n0,r1") = .ok (.lua ⟨.postIncN, 0⟩ 1) := by decide
theorem test_decode_rep : decode (text "rep #20-1") = .ok (.rep 19) := by decide
theorem test_decode_doImm : decode (text "do #8/2,9") = .ok (.doImm 4 9) := by decide
theorem test_decode_doReg : decodeWith [(text "_end_grp", .int 9)] (text "do n2,_end_grp") = .ok (.doReg (.n 2) 9) := by
  decide
theorem test_decode_jmp : decodeWith [(text "_smploop", .int 2)] (text "jmp _smploop") = .ok (.jmp 2) := by decide
theorem test_decode_ori : decode (text "ori #$08,mr") = .ok (.ori 0x08) := by decide
theorem test_decode_log2 : decodeWith [(text "points", .int 1024)] (text "move #@cvi(@log(points)/@log(2)+0.5),n0") =
    .ok (.moveI (.int 10) (.n 0)) := by decide

/-! Statements of the FFT and IIR listings as printed, with blanks after a sign (R2, R55). -/

theorem test_decode_printed_lua : decode (text "lua (r0) + n0,r1") = .ok (.lua ⟨.postIncN, 0⟩ 1) := by decide
theorem test_decode_printed_load : decode (text "move x:(r6) + n6,x0") =
    .ok (.moveX (.load ⟨.postIncN, 6⟩ (.mul .x0))) := by decide
theorem test_decode_printed_store : decode (text "macr -x0,y1,b a,x:(r5) + y:(r0),a") =
    .ok (.macr true .x0 .y1 .b (.xy (.store (.acc .a) ⟨.postInc, 5⟩) (.load ⟨.noUpdate, 0⟩ (.acc .a)))) := by decide
theorem test_decode_printed_offsets : decode (text "move a,x:(r5) + n5 y:(r1) + n1,y1") =
    .ok (.moveXY (.store (.acc .a) ⟨.postIncN, 5⟩) (.load ⟨.postIncN, 1⟩ (.mul .y1))) := by decide
theorem test_decode_printed_log2 :
    decodeWith [(text "points", .int 1024), (text "_end_pass", .int 40)]
      (text "do #@cvi (@log(points)/@log(2) + 0.5),_end_pass") = .ok (.doImm 10 40) := by decide
theorem test_decode_alu_immediate : decode (text "clr a #1,x0") = .ok (.clr .a (.i (.int 1) (.mul .x0))) := by decide

/-- A `_` label is local to its macro (R7): each of two macros has its own `_end`. -/
theorem test_local_labels :
    (State.reset.load [] [text "one macro", text "  do #2,_end", text "  rep #3", text "_end", text "  endm",
      text "two macro", text "  jmp _end", text "_end", text "  endm"]).map (·.prog) =
    some [encode (.doImm 2 2), encode (.rep 3), encode (.jmp 3)] := by decide

/-- An indented word is no label (R53): `wait` is refused, not dropped (R129). -/
theorem test_load_refuses_wait :
    State.reset.load [] [text "  wait"] = none ∧ State.reset.load [] [text "  move r0,r4", text "  wait r0"] = none ∧
    decode (text "  wait move r0,r4") = .error .notInSource := by decide

/-- A directive's word in an operand is a symbol. -/
theorem test_load_page_symbol :
    (State.reset.load [] [text "  jmp page", text "page equ 7"]).map (·.prog) = none ∧
    (State.reset.load [(text "page", .int 7)] [text "  jmp page"]).map (·.prog) = some [encode (.jmp 7)] := by decide

theorem test_decode_refuses_mnemonic : decode (text "add x0,a") = .error .notInSource := by decide
theorem test_decode_refuses_long : decode (text "move l:(r0)+,a") = .error .longSpace := by decide
theorem test_decode_refuses_program : decode (text "move a,p:(r0)+") = .error .programSpace := by decide
theorem test_decode_refuses_shape : decode (text "move x:(r0)+n1,a") = .error .operandShape := by decide
theorem test_decode_refuses_empty : decode (text " ; nothing") = .error .emptyStatement := by decide
theorem test_decode_refuses_ill_formed :
    decode (text "move x:(r0)-n0,x1 y:(r4)+,y0") = .error (.illFormed .modeNotInXY) := by decide

/-! ### Address arithmetic (vectors of section 2 of `95_test_vectors.md`) -/

theorem test_agu_modulo_wrap_down : aguAdd 16 .minusN 2 4 = .value 19 := by decide
theorem test_agu_gap_up : aguAdd 7 .plusOne 0 5 = .value 2 := by decide
theorem test_agu_gap_down : aguAdd 7 .minusOne 0 5 = .draw := by decide
theorem test_agu_block_jump_wraps : aguAdd 0xFFFD .plusN 8 5 = .value 0x0005 := by decide
theorem test_agu_unpredictable : aguAdd 75 .plusN 22 20 = .draw := by decide
theorem test_agu_reverse : aguAdd 0x0102 .plusN 4 0 = .value 0x0106 := by decide +kernel
theorem test_agu_reverse_carry_lost : aguAdd 0x0003 .plusN 0x0002 0 = .value 0 := by decide +kernel
theorem test_agu_reverse_four_bits : aguAdd 0x1238 .plusN 0x0008 0 = .value 0x1234 := by decide +kernel
theorem test_agu_reserved : aguAdd 5 .plusOne 0 0x8000 = .reserved := by decide
theorem test_agu_reserved_top : aguAdd 5 .minusN 0 0xFFFE = .reserved := by decide

/-! ### One step of each instruction -/

/-- A small state: linear modifiers but for numbers 2, 3 and 5, which are modulo 21. -/
def base : State :=
  { State.reset with
    r := #v[0x10, 0x20, 75, 64, 0x40, 64, 0x200, 0]
    n := #v[2, 0xFFFB, 15, 0, 3, 0, 0x10, 0]
    m := #v[0xFFFF, 0xFFFF, 20, 20, 0xFFFF, 20, 0xFFFF, 0xFFFF]
    x0 := 5
    y0 := 7
    a := ⟨0, 4, 9⟩
    b := ⟨0, 8, 3⟩
    xmem := [(0x10, 0x111), (75, 0x222), (84, 0x333)]
    ymem := [(0x40, 0x444)] }

/-- What `f` says of the state after one step on the statement `t`; none where the step stops. -/
def after {α : Type} (s : State) (t : String) (f : State → α) : Option α :=
  match step { s with prog := [text t] } with
  | .next u => some (f u)
  | .fault _ => none
  | .refused _ => none

/-- Why a step on the statement `t` is refused, if it is. -/
def refusal (s : State) (t : String) : Option Refusal :=
  match step { s with prog := [text t] } with
  | .next _ => none
  | .fault _ => none
  | .refused f => some f

theorem test_moveI_minus_one : after base "move #-1,m5" (fun t => (t.M 5, t.pc)) = some (0xFFFF, 1) := by decide
theorem test_moveR_sr : after base "move r2,sr" (fun t => t.sr) = some 75 := by decide
theorem test_moveR : after base "move m2,m4" (fun t => (t.M 4, t.M 2)) = some (20, 20) := by decide
theorem test_moveU_modulo : after { base with r := base.r.set 5 1, n := base.n.set 5 2, m := base.m.set 5 4 }
    "move (r5)-n5" (fun t => t.R 5) = some 4 := by decide
theorem test_moveX_postIncN : after base "move x:(r2)+n2,x0" (fun t => (t.x0, t.R 2, t.N 2)) =
    some (0x222, 69, 15) := by rfl
theorem test_moveX_preDec : after base "move x:-(r5),y1" (fun t => (t.y1, t.R 5)) = some (0x333, 84) := by rfl
theorem test_moveY_store : after base "move x0,y:(r3)-" (fun t => (t.ymem, t.R 3)) =
    some (Memory.put base.ymem 64 5, 84) := by rfl
theorem test_moveXY : after base "move x0,x:(r1)+ y:(r4)+n4,x1"
    (fun t => (t.xmem, t.R 1, t.x1, t.R 4)) = some (Memory.put base.xmem 0x20 5, 0x21, 0x444, 0x43) := by rfl
theorem test_clr : after base "clr a x:(r0)+,x0 y:(r4)+,y0" (fun t => (t.a, t.x0, t.y0, t.R 0)) =
    some (Acc.zero, 0x111, 0x444, 0x11) := by rfl
theorem test_clr_immediate : after base "clr a #5,n3" (fun t => (t.a, t.N 3)) = some (Acc.zero, 5) := by rfl
theorem test_mac_loads : after base "mac x0,y0,a x:(r0)+,x0 y:(r4)+,y0" (fun t => (t.x0, t.y0, t.b)) =
    some (0x111, 0x444, base.b) := by rfl
theorem test_macr_updates : after { base with r := base.r.set 3 0 } "macr x0,y0,a (r3)-" (fun t => (t.R 3, t.x0)) =
    some (20, 5) := by rfl
theorem test_mpy : after base "mpy y0,y1,a x:(r0)+,x0" (fun t => (t.x0, t.R 0)) = some (0x111, 0x11) := by rfl
theorem test_rnd : after base "rnd a" (fun t => (t.b, t.pc)) = some (base.b, 1) := by rfl
theorem test_subl_store_is_old : after base "subl b,a x:(r0),y1 y0,y:(r4)" (fun t => (t.y1, t.ymem)) =
    some (0x111, Memory.put base.ymem 0x40 7) := by rfl
theorem test_lsl : after base "lsl a" (fun t => t.a.p1) = some 8 := by
  have h : shiftedLeft 4 = 8 := by
    apply BitVec.eq_of_toNat_eq
    simp [shiftedLeft, Nat.shiftLeft_eq]
  exact (rfl : _ = some (shiftedLeft 4)).trans (congrArg some h)
/-- With room for the number 16 in the middle part. -/
theorem test_lsr (h : 16 < 2 ^ Config.highBits) : after base "lsr b" (fun t => t.b.p1.toNat) = some 4 := by
  have h8 : (8#Config.highBits).msb = false := by
    simp [BitVec.msb_eq_decide]
    rw [Nat.mod_eq_of_lt (by omega)]
    cases hb : Config.highBits with
    | zero => simp [hb] at h
    | succ k => rw [hb, Nat.pow_succ] at h; simp; omega
  have h4 : ∀ v : BitVec Config.highBits, (shiftedRight 8 v).toNat = 4 := by
    intro v
    simp [shiftedRight, h8, Nat.mod_eq_of_lt (show 8 < 2 ^ Config.highBits by omega), Nat.shiftRight_eq_div_pow]
  exact (rfl : _ = some (shiftedRight 8 _).toNat).trans (congrArg some (h4 _))
theorem test_movepReg_event : after base "movep y:$ffe0,y0" (fun t => t.events.length) = some 1 := by decide
theorem test_movepMem_keeps_pointer : after base "movep y:$ffe0,x:(r0)" (fun t => (t.R 0, t.events.length)) =
    some (0x10, 1) := by decide
theorem test_movepOut : after base "movep x0,y:$ffe1" (fun t => t.events) = some [.output .y 0xFFE1 5] := by rfl
theorem test_movep_elsewhere : refusal base "movep y:$1234,y0" = some .notPeripheral := by decide
theorem test_lua : after base "lua (r2)+n2,r4" (fun t => (t.R 4, t.R 2)) = some (69, 75) := by decide
theorem test_rep : after base "rep #3" (fun t => (t.rep, t.pc)) = some (some 3, 1) := by decide
theorem test_rep_zero : refusal base "rep #0" = some .repCountZero := by decide
theorem test_doImm : after base "do #4,5" (fun t => (t.loops, t.pc)) = some ([⟨4, 1, 4⟩], 1) := by decide
theorem test_doReg : after base "do n2,3" (fun t => t.loops) = some [⟨15, 1, 2⟩] := by decide
theorem test_do_zero : refusal base "do #0,5" = some .doCountZero := by decide
theorem test_jmp : after base "jmp 7" (fun t => t.pc) = some 7 := by decide
theorem test_jmp_at_body_end : refusal { base with prog := [] } "jmp 7" = none ∧
    (match step { base with pc := 2, prog := [text "do #2,4", text "move r0,r4", text "jmp 0", text "move r4,r0"] } with
      | .refused f => some f
      | .next _ => none
      | .fault _ => none) = some .loopEndRestriction := by decide
theorem test_jmp_in_loop : refusal { base with loops := [⟨2, 0, 5⟩] } "jmp 7" = some .jumpFromLoop := by decide
theorem test_ori : after base "ori #$08,mr" (fun t => mrOf t.sr) = some 0x0B := by decide

theorem test_reserved_modifier : refusal { base with m := base.m.set 0 0x9000 } "move x:(r0)+,x0" =
    some .reservedModifier := by decide
theorem test_move_at_device : refusal { base with r := base.r.set 0 0xFFE0 } "move y:(r0),x0" =
    some .peripheralMove := by decide
theorem test_use_after_write : refusal { base with aguWritten := [0] } "move x:(r0)+n0,x0" =
    some .aguWriteThenUse := by decide
theorem test_unpredictable_address : refusal { base with n := base.n.set 2 22 } "move y1,x:(r2+n2)" =
    some .unpredictableAddress := by decide

/-- The statement placed by `withFetchWord` is the one the next step runs. -/
theorem test_withFetchWord :
    (match step (State.reset.withFetchWord 24 0x646E72) with
      | .refused f => some f
      | .next _ => none
      | .fault _ => none) = some (.undecoded .operandShape) := by decide

/-- Table words carry no bits, and the number of a statement's text is read as that statement. -/
theorem test_decodeTableWord : decodeTableWord 24 0 = none ∧
    decodeTableWord 40 0x6120646E72 = some (.rnd .a .none) := by decide

/-- The words of the FIR listing's loop, and its instruction cycles for 20 taps (R51, R171). -/
theorem test_fir_loop_words_and_cycles :
    let mac : Instr := .mac false .x0 .y0 .a (.xy (.load ⟨.postInc, 0⟩ (.mul .x0)) (.load ⟨.postInc, 4⟩ (.mul .y0)))
    let clr : Instr := .clr .a (.xy (.load ⟨.postInc, 0⟩ (.mul .x0)) (.load ⟨.postInc, 4⟩ (.mul .y0)))
    let loop : List Instr := [.movepMem 0xFFE0 ⟨.noUpdate, 0⟩, clr, .rep 19, mac,
      .macr false .x0 .y0 .a (.u ⟨.postDec, 0⟩), .movepOut (.acc .a) 0xFFE1]
    (loop.filterMap instrWords).sum = 6 ∧ (loop.filterMap baseCycles).sum + 18 = 27 := by decide

/-! ### Witnesses: for each statement with hypotheses, values that meet them, clause by clause -/

theorem eaOk (s : State) (e : Ea) (h : s.eaStops e = none) : EaUsable s e := (s.eaStops_eq_none e).1 h
theorem memOk (s : State) (sp : Space) (mm : MemMove) (h : s.memMoveStops sp mm = none) : MemMoveUsable s sp mm :=
  (s.memMoveStops_eq_none sp mm).1 h
theorem movesOk (s : State) (mv : Moves) (h : s.movesStop mv = none) : MovesUsable s mv :=
  (s.movesStop_eq_none mv).1 h
theorem accessOk (s : State) (sp : Space) (a : Addr) (h : s.accessStops sp a = none) : AccessUsable s sp a :=
  (s.accessStops_eq_none sp a).1 h
theorem ramOk (s : State) (sp : Space) (a : Addr) (h : s.isPeriph sp a = false) (hr : s.isRam sp a = true) :
    MemoryUsable s sp a := ⟨h, hr⟩
theorem movepOk (s : State) (pp : Addr) (h : s.rep = none) (hp : s.isPeriph .y pp = true) : MovepUsable s pp := ⟨h, hp⟩

/-- The move field of the FIR listing's products. -/
def firMoves : Moves := .xy (.load ⟨.postInc, 0⟩ (.mul .x0)) (.load ⟨.postInc, 4⟩ (.mul .y0))

theorem witness_BlockIsLeastPowerOfTwo : isModulo 1 = true ∧ isModulo 0x7FFF = true := by decide

theorem witness_ModuloStepGoesRoundBuffer :
    (isModulo 20 = true ∧ properStep .plusN 21 20 ∧ (84 : Addr).toNat ≤ bufferUpper 84 20) ∧
    (isModulo 0x7FFF = true ∧ properStep .minusN 0x8000 0x7FFF ∧ (0x8000 : Addr).toNat ≤ bufferUpper 0x8000 0x7FFF) ∧
    (isModulo 5 = true ∧ properStep .plusN 0 5 ∧ bufferUpper 6 5 < (6 : Addr).toNat ∧ 0 ≤ signedStep .plusN 0) := by
  unfold properStep
  decide

theorem witness_StepDownFromGapIsUnpredictable :
    isModulo 5 = true ∧ properStep .minusOne 0 5 ∧ bufferUpper 6 5 < (6 : Addr).toNat ∧ signedStep .minusOne 0 < 0 := by
  unfold properStep
  decide

theorem witness_LargeOffsetJumpsBlocksOrIsUnpredictable :
    (isModulo 20 = true ∧ modulus 20 < (32 : Addr).toInt.natAbs ∧ (32 : Addr).toInt = (1 : Nat) * blockSize 20) ∧
    (modulus 20 < (22 : Addr).toInt.natAbs ∧ ∀ p : Nat, 0 < p → (22 : Addr).toInt ≠ p * blockSize 20) ∧
    (modulus 20 < (0x8000 : Addr).toInt.natAbs ∧ ∀ p : Nat, 0 < p → (0x8000 : Addr).toInt ≠ p * blockSize 20) := by
  have h1 : (22 : Addr).toInt = 22 := by decide
  have h2 : blockSize 20 = 32 := by decide
  have h3 : (0x8000 : Addr).toInt = -32768 := by decide
  refine ⟨by decide, ⟨by decide, fun p hp => ?_⟩, ⟨by decide, fun p hp => ?_⟩⟩
  · rw [h1, h2]; omega
  · rw [h2, h3]; omega

theorem witness_OffsetOfWholePowerOfTwoBufferReturns :
    (isModulo 7 = true ∧ modulus 7 = blockSize 7 ∧ (8 : Addr).toInt = modulus 7) ∧
    (isModulo 1 = true ∧ modulus 1 = blockSize 1 ∧ (2 : Addr).toInt = modulus 1) := by decide

theorem witness_ReverseCarryStepsBitReversed : (1 ≤ 1 ∧ 1 ≤ 16) ∧ 1 ≤ 16 ∧ 16 ≤ 16 := by decide

/-- A state whose modifiers are the ends of the ranges of R14. -/
def ends : State := { base with m := #v[0, 1, 0x7FFF, 0x8000, 0xFFFE, 0xFFFF, 20, 20] }

theorem witness_ModifierSelectsOneArithmetic :
    modeStep .postInc = some .plusOne ∧ (ends.M 5).toNat = 65535 ∧
    (1 ≤ (ends.M 1).toNat ∧ (ends.M 1).toNat ≤ 32767) ∧ (1 ≤ (ends.M 2).toNat ∧ (ends.M 2).toNat ≤ 32767) ∧
    (ends.M 0).toNat = 0 ∧ modeStep .indexed = some .plusN ∧ (32768 ≤ (ends.M 3).toNat ∧ (ends.M 3).toNat ≤ 65534) ∧
    (32768 ≤ (ends.M 4).toNat ∧ (ends.M 4).toNat ≤ 65534) := by decide

theorem witness_ModesGiveOperandAddress :
    base.M 6 ≠ 0 ∧ aguAdd (base.R 6) .plusN (base.N 6) (base.M 6) = .value 0x210 ∧
    aguAdd (base.R 5) .minusOne (base.N 5) (base.M 5) = .value 84 := by decide

theorem witness_PredecrementUsesNewPointer :
    aguAdd (base.R 5) .minusOne (base.N 5) (base.M 5) = .value 84 ∧
    (memInstr .x (.load ⟨.preDec, 5⟩ (.high .b))).wf = true ∧ (5 : AguNum) ∉ base.aguWritten ∧
    MemoryUsable base .x 84 := ⟨by decide, by decide, by decide, ramOk _ _ _ (by decide) (by decide)⟩

theorem witness_UpdateOnlyMoveStepsPointer :
    (fieldOf (.moveU ⟨.postIncN, 2⟩) = some ([], .u ⟨.postIncN, 2⟩) ∧ (Instr.moveU ⟨.postIncN, 2⟩).wf = true ∧
      EaUsable base ⟨.postIncN, 2⟩) ∧
    (fieldOf (.macr false .x0 .y0 .a (.u ⟨.postDec, 3⟩)) = some ([.acc .a, .sr], .u ⟨.postDec, 3⟩) ∧
      (Instr.macr false .x0 .y0 .a (.u ⟨.postDec, 3⟩)).wf = true ∧ EaUsable base ⟨.postDec, 3⟩) :=
  ⟨⟨by decide, by decide, eaOk _ _ (by decide)⟩, by decide, by decide, eaOk _ _ (by decide)⟩

theorem witness_ReservedModifierIsRefused :
    (isReserved (ends.M 3) = true ∧ (⟨.postInc, 3⟩ : Ea) ∈ easOf (.moveU ⟨.postInc, 3⟩) ∧ Mode.postInc ≠ .noUpdate ∧
      easOf (.moveU ⟨.postInc, 3⟩) = [⟨.postInc, 3⟩] ∧ (3 : AguNum) ∉ ends.aguWritten ∧
      ∀ pp, Instr.moveU ⟨.postInc, 3⟩ = .movepMem pp ⟨.postInc, 3⟩ → MovepUsable ends pp) ∧
    (easOf (.movepMem 0xFFE0 ⟨.postInc, 3⟩) = [⟨.postInc, 3⟩] ∧ MovepUsable ends 0xFFE0) ∧
    (isReserved (ends.M 4) = true ∧ (4 : AguNum) ∉ ends.aguWritten ∧ MemoryUsable ends .x (ends.R 4)) ∧
    (32768 ≤ 32768 ∧ 32768 ≤ 65534) ∧ 32768 ≤ 65534 ∧ 65534 ≤ 65534 :=
  ⟨⟨by decide, by decide, by decide, by decide, by decide, fun _ h => by cases h⟩,
    ⟨by decide, movepOk _ _ rfl (by decide)⟩, ⟨by decide, by decide, ramOk _ _ _ (by decide) (by decide)⟩, by decide, by decide, by decide⟩

/-- A state in which the statement before wrote `N0`. -/
def written : State := { base with aguWritten := [0] }

theorem witness_UseAfterAguWriteIsRefused :
    (⟨.postIncN, 0⟩ : Ea) ∈ easOf (.moveU ⟨.postIncN, 0⟩) ∧ (0 : AguNum) ∈ written.aguWritten ∧
    easOf (.moveU ⟨.postIncN, 0⟩) = [⟨.postIncN, 0⟩] ∧
    (∀ pp, Instr.moveU ⟨.postIncN, 0⟩ = .movepMem pp ⟨.postIncN, 0⟩ → MovepUsable written pp) ∧
    easOf (.movepMem 0xFFC0 ⟨.postIncN, 0⟩) = [⟨.postIncN, 0⟩] ∧ MovepUsable written 0xFFC0 :=
  ⟨by decide, by decide, by decide, fun _ h => (by cases h), by decide, movepOk _ _ rfl (by decide)⟩

theorem witness_AguWritesAreRemembered :
    (∃ t, exec (.moveI (.int 3) (.n 0)) base = .next t ∧ 0 ∈ t.aguWritten) ∧
    (∃ t, exec (.lua ⟨.postInc, 0⟩ 1) base = .next t ∧ 1 ∈ t.aguWritten) ∧
    ∃ t, exec (.moveU ⟨.postInc, 0⟩) base = .next t ∧ 0 ∉ t.aguWritten :=
  ⟨⟨_, rfl, by decide⟩, ⟨_, rfl, by decide⟩, ⟨_, rfl, by decide⟩⟩

/-- A state whose `N2` is larger than the modulus 21 of number 2 and no multiple of the block length 32. -/
def largeOffset : State := { base with n := base.n.set 2 22 }

/-- A state whose pointer 2 stands in the gap above the buffer 64 to 84 and whose `N2` is minus the modulus. -/
def inGap : State := { base with r := base.r.set 2 85, n := base.n.set 2 0xFFEB }

theorem witness_UnpredictableIndexIsRefused :
    (isModulo (largeOffset.M 2) = true ∧ modulus (largeOffset.M 2) < (largeOffset.N 2).toInt.natAbs ∧
      ¬ (0 < (largeOffset.N 2).toInt ∧ (largeOffset.N 2).toInt % blockSize (largeOffset.M 2) = 0)) ∧
    (isModulo (inGap.M 2) = true ∧ (inGap.N 2).toInt.natAbs ≤ modulus (inGap.M 2) ∧
      bufferUpper (inGap.R 2) (inGap.M 2) < (inGap.R 2).toNat ∧ (inGap.N 2).toInt < 0) ∧
    (aguAdd (inGap.R 2) .plusN (inGap.N 2) (inGap.M 2) = .draw ∧
      (⟨.indexed, 2⟩ : Ea) ∈ easOf (.clr .b (.y (.load ⟨.indexed, 2⟩ (.mul .x0)))) ∧ (2 : AguNum) ∉ inGap.aguWritten ∧
      easOf (.movepMem 0xFFE0 ⟨.indexed, 2⟩) = [⟨.indexed, 2⟩]) ∧ MovepUsable inGap 0xFFE0 :=
  ⟨by decide, by decide, by decide, movepOk _ _ rfl (by decide)⟩

theorem witness_MoveImmediateWritesDestination :
    (Instr.moveI (.int (-1)) (.m 0)).wf = true ∧ (Imm.int (-1) = .int (-1)) ∧ (Reg.m 0 = .r 0 ∨ Reg.m 0 = .n 0 ∨ Reg.m 0 = .m 0) := by decide

theorem witness_MoveRegisterTransfers :
    ((Instr.moveR (.n 0) (.m 7)).wf = true ∧ (Instr.moveR .pc .sr).wf = true) ∧
    width (.r 0) = width .sr ∧ width (.n 0) = width (.m 7) ∧ width (.mul .x0) = width (.mul .y1) ∧ width (.low .a) = width (.low .b) ∧
    width (.acc .a) = width (.acc .b) :=
  ⟨⟨by decide, by decide⟩, rfl, rfl, rfl, rfl, rfl⟩

theorem witness_MemoryMoveTransfersWord :
    ((Instr.moveX (.load ⟨.postIncN, 2⟩ (.mul .x0))).wf = true ∧
      MemMoveUsable base .x (.load ⟨.postIncN, 2⟩ (.mul .x0))) ∧
    (Instr.moveY (.store (.mul .x0) ⟨.preDec, 7⟩)).wf = true ∧
      MemMoveUsable base .y (.store (.mul .x0) ⟨.preDec, 7⟩) :=
  ⟨⟨by decide, memOk _ _ _ (by decide)⟩, by decide, memOk _ _ _ (by decide)⟩

theorem witness_MoveXYMakesBothTransfers :
    (fieldOf (.moveXY (.store (.mul .x0) ⟨.postInc, 3⟩) (.load ⟨.postIncN, 4⟩ (.mul .x1))) =
        some ([], .xy (.store (.mul .x0) ⟨.postInc, 3⟩) (.load ⟨.postIncN, 4⟩ (.mul .x1))) ∧
      (Instr.moveXY (.store (.mul .x0) ⟨.postInc, 3⟩) (.load ⟨.postIncN, 4⟩ (.mul .x1))).wf = true ∧
      MemMoveUsable base .x (.store (.mul .x0) ⟨.postInc, 3⟩) ∧
      MemMoveUsable base .y (.load ⟨.postIncN, 4⟩ (.mul .x1))) ∧
    (fieldOf (.clr .a firMoves) = some ([.acc .a, .sr], firMoves) ∧ (Instr.clr .a firMoves).wf = true) :=
  ⟨⟨by decide, by decide, memOk _ _ _ (by decide), memOk _ _ _ (by decide)⟩, by decide, by decide⟩

/-- A state whose X: memory ends just below the address `R0` holds. -/
def short : State := { base with launch := { base.launch with xRam := [(0, 15)] } }

/-- No memory and no device stands at the address. -/
theorem notUsable (s : State) (sp : Space) (a : Addr) (h : s.isPeriph sp a = false) (hr : s.isRam sp a = false) :
    ¬ AccessUsable s sp a := by
  simp [AccessUsable, h, hr]

theorem witness_UnallocatedAccessIsStuck :
    ((∀ e ∈ easOf (.clr .a firMoves), EaUsable short e) ∧
      (∀ pp e, Instr.clr .a firMoves = .movepMem pp e → MovepUsable short pp) ∧
      (∀ p ∈ accessesOf short (.clr .a firMoves), short.isPeriph p.1 p.2 = true →
        (Instr.clr .a firMoves).mnemonic = .movep) ∧
      ∃ p ∈ accessesOf short (.clr .a firMoves), ¬ AccessUsable short p.1 p.2) ∧
    ((∀ e ∈ easOf (.movepMem 0xFFE0 ⟨.postInc, 0⟩), EaUsable short e) ∧
      (∀ pp e, Instr.movepMem 0xFFE0 ⟨.postInc, 0⟩ = .movepMem pp e → MovepUsable short pp) ∧
      (Instr.movepMem 0xFFE0 ⟨.postInc, 0⟩).mnemonic = .movep ∧
      ∃ p ∈ accessesOf short (.movepMem 0xFFE0 ⟨.postInc, 0⟩), ¬ AccessUsable short p.1 p.2) :=
  ⟨⟨fun e he => eaOk _ _ (by revert e; decide), fun _ _ h => (by cases h), by decide,
      (.x, 0x10), by decide, notUsable _ _ _ (by decide) (by decide)⟩,
    fun e he => eaOk _ _ (by revert e; decide), fun _ _ h => (by cases h; exact movepOk _ _ rfl (by decide)), rfl,
      (.x, 0x10), by decide, notUsable _ _ _ (by decide) (by decide)⟩

/-- A state whose `R0` points at a device register. -/
def atDevice : State := { base with r := base.r.set 0 0xFFE0 }

theorem witness_OrdinaryMovesLeaveDevicesAlone :
    fieldOf (.rnd .a (.xy (.load ⟨.postInc, 4⟩ (.mul .x0)) (.load ⟨.postInc, 0⟩ (.mul .y0)))) =
      some ([.acc .a, .sr], .xy (.load ⟨.postInc, 4⟩ (.mul .x0)) (.load ⟨.postInc, 0⟩ (.mul .y0))) ∧
    (.y, 0xFFE0) ∈ accessed atDevice (.xy (.load ⟨.postInc, 4⟩ (.mul .x0)) (.load ⟨.postInc, 0⟩ (.mul .y0))) ∧
    atDevice.isPeriph .y 0xFFE0 = true ∧
    (∀ e ∈ (Moves.xy (.load ⟨.postInc, 4⟩ (.mul .x0)) (.load ⟨.postInc, 0⟩ (.mul .y0))).eas, EaUsable atDevice e) ∧
    ∀ p ∈ accessed atDevice (.xy (.load ⟨.postInc, 4⟩ (.mul .x0)) (.load ⟨.postInc, 0⟩ (.mul .y0))),
      AccessUsable atDevice p.1 p.2 :=
  ⟨rfl, by decide, by decide, fun e he => eaOk _ _ (by revert e; decide), fun p hp => accessOk _ _ _ (by revert p; decide)⟩

/-- A state in which `R0` and `R4` hold one address. -/
def sameAddr : State := { base with r := base.r.set 4 0x10 }

theorem witness_LoadReadsLastStore :
    ∃ t, exec (memInstr .x (.store (.mul .y0) ⟨.noUpdate, 0⟩)) sameAddr = .next t ∧ sameAddr.R 0 = sameAddr.R 4 ∧
      4 ∉ t.aguWritten := ⟨_, rfl, by decide, by decide⟩

/-- The move field of R114's corner case: the X: move stores `a`, and the Y: move loads it. -/
def cornerMoves : Moves := .xy (.store (.acc .a) ⟨.postInc, 5⟩) (.load ⟨.noUpdate, 0⟩ (.acc .a))

theorem witness_SourcesAreReadBeforeWrites :
    (fieldOf (.macr true .x0 .y1 .b cornerMoves) = some ([.acc .b, .sr], cornerMoves) ∧
      (Instr.macr true .x0 .y1 .b cornerMoves).wf = true ∧ MovesUsable base cornerMoves ∧
      (aluResult base (.macr true .x0 .y1 .b cornerMoves)).isSome = true) ∧
    MovesUsable base firMoves ∧ MemMoveUsable base .x (.store (.acc .a) ⟨.postInc, 0⟩) :=
  ⟨⟨rfl, by decide, movesOk _ _ (by decide), rfl⟩, movesOk _ _ (by decide), memOk _ _ _ (by decide)⟩

theorem witness_ClrZeroesAccumulator : (Instr.clr .a firMoves).wf = true ∧ MovesUsable base firMoves :=
  ⟨by decide, movesOk _ _ (by decide)⟩

theorem witness_MacAndMacrApplyTheirFunctions :
    MovesUsable base firMoves ∧ (Instr.mac false .x0 .y0 .a firMoves).wf = true ∧
    (Instr.macr true .x1 .y1 .b firMoves).wf = true := ⟨movesOk _ _ (by decide), by decide, by decide⟩

theorem witness_MpyAppliesItsFunction :
    (Instr.mpy true .x1 .x1 .b firMoves).wf = true ∧ MovesUsable base firMoves := ⟨by decide, movesOk _ _ (by decide)⟩

theorem witness_RndAndSublApplyTheirFunctions :
    MovesUsable base firMoves ∧ (Instr.rnd .a firMoves).wf = true ∧ (Instr.subl .b .a firMoves).wf = true :=
  ⟨movesOk _ _ (by decide), by decide, by decide⟩

theorem witness_LslDoublesMiddlePart :
    (Instr.lsl .a (.r (.high .b) (.n 0))).wf = true ∧ MovesUsable base (.r (.high .b) (.n 0)) :=
  ⟨by decide, movesOk _ _ (by decide)⟩

theorem witness_LsrHalvesMiddlePart :
    (Instr.lsr .b (.r (.n 2) (.high .a))).wf = true ∧ MovesUsable base (.r (.n 2) (.high .a)) ∧
    Config.highBits + 1 ≠ Config.highBits ∧ 2 * (State.reset.acc .b).p1.toNat < 2 ^ Config.highBits := by
  refine ⟨by decide, movesOk _ _ (by decide), by omega, ?_⟩
  show 2 * (0#Config.highBits).toNat < _
  simp

theorem witness_OriSetsMaskBitsOfMr : 7 < 8 ∧ (0x08 : BitVec 8).getLsbD 3 = true := by decide

theorem witness_MovepReadsDeviceToRegister :
    (Instr.movepReg 0xFFE0 (.mul .y0)).wf = true ∧ MovepUsable base 0xFFE0 ∧ MovepUsable base 0xFFC0 :=
  ⟨by decide, movepOk _ _ rfl (by decide), movepOk _ _ rfl (by decide)⟩

/-- A state in which the word of X: that `R0` points at is a device register. -/
def xDevice : State := { base with launch := { base.launch with periph := [(.x, 0x10), (.y, 0xFFE0)] } }

theorem witness_MovepReadsDeviceToMemory :
    (MovepUsable base 0xFFE0 ∧ EaUsable base ⟨.postIncN, 2⟩ ∧ AccessUsable base .x (base.eaAddr .x ⟨.postIncN, 2⟩) ∧
      base.isPeriph .x (base.eaAddr .x ⟨.postIncN, 2⟩) = false) ∧
    MovepUsable xDevice 0xFFE0 ∧ EaUsable xDevice ⟨.postInc, 0⟩ ∧
      AccessUsable xDevice .x (xDevice.eaAddr .x ⟨.postInc, 0⟩) ∧
      xDevice.isPeriph .x (xDevice.eaAddr .x ⟨.postInc, 0⟩) = true :=
  ⟨⟨movepOk _ _ rfl (by decide), eaOk _ _ (by decide), accessOk _ _ _ (by decide), by decide⟩,
    movepOk _ _ rfl (by decide), eaOk _ _ (by decide), accessOk _ _ _ (by decide), by decide⟩

theorem witness_MovepWritesDevice : MovepUsable base 0xFFE1 := movepOk _ _ rfl (by decide)

theorem witness_MovepOutsideDevicesIsRefused : base.rep = none ∧ base.isPeriph .y 0xFFE2 = false := by decide

theorem witness_LuaLoadsUpdatedAddress :
    (Instr.lua ⟨.postIncN, 2⟩ 4).wf = true ∧ EaUsable base ⟨.postIncN, 2⟩ ∧
    base.aguFor ⟨.postIncN, 2⟩ = some (.value 69) := ⟨by decide, eaOk _ _ (by decide), by decide⟩

theorem controlOk (s : State) (h : s.controlStops = none) : ControlUsable s := s.controlStops_eq_none.1 h

theorem witness_RepStartsRepeat : ControlUsable base ∧ 1 ≠ 0 := ⟨controlOk _ (by decide), by decide⟩

/-- A state with a repeat of three. -/
def repeating : State := { base with rep := some 3, prog := [text "move r0,r4"] }

/-- The states of a run, while its steps complete. -/
def runOf (s : State) : Nat → State
  | 0 => s
  | n + 1 =>
    match step (runOf s n) with
    | .next t => t
    | .fault _ => s
    | .refused _ => s

theorem witness_RepeatedStatementRunsCountTimes :
    repeating.rep = some 3 ∧ 1 ≤ 3 ∧ 2 < 3 ∧ Runs repeating 3 (runOf repeating) := by
  refine ⟨rfl, by decide, by decide, rfl, fun j hj => ?_⟩
  interval_cases j <;> rfl

/-- A state six loops deep at statement 10, none of them ending there: one more loop fits. -/
def deep : State :=
  { base with pc := 10, loops := [⟨2, 6, 20⟩, ⟨2, 5, 21⟩, ⟨2, 4, 22⟩, ⟨2, 3, 23⟩, ⟨2, 2, 24⟩, ⟨2, 1, 25⟩] }

theorem deep_control : ControlUsable deep := controlOk _ (by decide)

theorem witness_DoPushesLoop : DoUsable deep 1 12 ∧ DoUsable base 65535 2 :=
  ⟨⟨deep_control, by decide, by decide, by decide, by decide⟩,
    ⟨controlOk _ (by decide), by decide, by decide, by decide, by decide⟩⟩

theorem witness_DoTakesRegisterCount : DoUsable base (base.unsigned (.n 2)) 3 ∧ Reg.n 2 = .n 2 :=
  ⟨⟨controlOk _ (by decide), by decide, by decide, by decide, by decide⟩, rfl⟩

/-- A state at the first statement of a loop of four statements to run twice. -/
def looping : State := { base with pc := 3, loops := [⟨2, 3, 6⟩] }

/-- A state at the first statement of a loop of two statements to run twice. -/
def looping2 : State := { base with loops := [⟨2, 0, 1⟩], prog := [text "move r0,r4", text "move r4,r0"] }

theorem witness_LoopBodyRunsCountTimes :
    (looping.loops = ⟨2, 3, 6⟩ :: [] ∧ looping.pc = 3 ∧ 3 ≤ 6 ∧ 1 ≤ 2 ∧ looping.rep = none ∧
      7 < 2 * (6 - 3 + 1)) ∧
    looping2.loops = ⟨2, 0, 1⟩ :: [] ∧ looping2.pc = 0 ∧ looping2.rep = none ∧
    (∀ p u i, 0 ≤ p → p ≤ 1 → looping2.prog[p]? = some u → decode u = .ok i → isControl i = false) ∧
    Runs looping2 (2 * (1 - 0 + 1)) (runOf looping2) := by
  have h0 : decode (text "move r0,r4") = .ok (.moveR (.r 0) (.r 4)) := by decide
  have h1 : decode (text "move r4,r0") = .ok (.moveR (.r 4) (.r 0)) := by decide
  refine ⟨by decide, rfl, rfl, rfl, fun p u i _ hp hu hi => ?_, rfl, fun j hj => ?_⟩
  · interval_cases p
    · cases (Option.some.inj hu.symm); rw [h0] at hi; cases hi; rfl
    · cases (Option.some.inj hu.symm); rw [h1] at hi; cases hi; rfl
  · interval_cases j <;> rfl

theorem witness_JmpGoesToLabel : ControlUsable base ∧ base.loops = [] := ⟨controlOk _ (by decide), rfl⟩

/-- A state seven loops deep: no loop fits. -/
def full : State := { deep with loops := ⟨2, 7, 19⟩ :: deep.loops }

theorem witness_ZeroCountAndFullStackAreRefused :
    ControlUsable full ∧ full.unsigned (.n 3) = 0 ∧ 1 ≠ 0 ∧ full.launch.stackDepth < 2 * (full.loops.length + 1) ∧
    full.unsigned (.n 2) ≠ 0 :=
  ⟨controlOk _ (by decide), by decide, by decide, by decide, by decide⟩

/-- A program in which JMP leads into a DO body: no loop is active at its next-to-last statement. -/
def jumped : State := { base with pc := 3, prog := [text "jmp 3", text "do #2,5", text "move r0,r4", text "rep #2"] }

theorem witness_LoopPlacementsAreRefused :
    repeating.rep ≠ none ∧
    (jumped.rep = none ∧ DoAt jumped 1 5 ∧ 1 < jumped.pc ∧ 5 = jumped.pc + 2) ∧
    (({ looping with pc := 6 }).rep = none ∧ (⟨2, 3, 6⟩ : LoopRecord) ∈ looping.loops ∧ 3 ≤ 6 ∧ 6 = 6 ∧ 5 + 1 = 6) ∧
    (ControlUsable looping ∧ (⟨2, 3, 6⟩ : LoopRecord) ∈ looping.loops) ∧
    (ControlUsable deep ∧ 1 ≠ 0 ∧ deep.unsigned (.n 2) ≠ 0 ∧ 2 * (deep.loops.length + 1) ≤ deep.launch.stackDepth ∧
      10 ≤ deep.pc ∧ 11 = deep.pc + 1 ∧
      (deep.pc + 2 ≤ 21 ∧ (⟨2, 6, 20⟩ : LoopRecord) ∈ deep.loops ∧ 20 = 21 - 1)) :=
  ⟨by decide, ⟨by decide, ⟨_, .doImm 2 5, rfl, by decide, by decide⟩, by decide, by decide⟩, by decide,
    ⟨controlOk _ (by decide), by decide⟩, deep_control, by decide, by decide, by decide, by decide, by decide, by decide⟩

theorem witness_DecodeInvertsEncode :
    (Instr.mac true .x0 .y1 .b firMoves).wf = true ∧ (Instr.moveI (.frac (-5) 0) (.mul .y1)).wf = true := by decide

theorem witness_DecodedInstructionsAreWellFormed : ∃ i, decode (text "rep #65535") = .ok i := ⟨.rep 65535, by decide⟩

theorem witness_DecodedXYReferencesAreLegal :
    (decode (text "move x:(r3)+,x0 y:(r4)+,y0") =
        .ok (.moveXY (.load ⟨.postInc, 3⟩ (.mul .x0)) (.load ⟨.postInc, 4⟩ (.mul .y0))) ∧
      fieldOf (.moveXY (.load ⟨.postInc, 3⟩ (.mul .x0)) (.load ⟨.postInc, 4⟩ (.mul .y0))) =
        some ([], .xy (.load ⟨.postInc, 3⟩ (.mul .x0)) (.load ⟨.postInc, 4⟩ (.mul .y0)))) ∧
    decode (text "clr a x:(r0)+,x0 y:(r4)+,y0") = .ok (.clr .a firMoves) ∧
    fieldOf (.clr .a firMoves) = some ([.acc .a, .sr], firMoves) := by decide

theorem witness_DecodedMovesLeaveStatusUnreadAndPcUnwritten :
    decode (text "move x0,mr") = .ok (.moveR (.mul .x0) .mr) ∧ srcsOf (.moveR (.mul .x0) .mr) = [.mul .x0] ∧
    dstsOf (.moveR (.mul .x0) .mr) = [.mr] := by decide

theorem witness_DecodedStatementsWriteOnce :
    decode (text "lsl a b1,n0") = .ok (.lsl .a (.r (.high .b) (.n 0))) ∧
    fieldOf (.lsl .a (.r (.high .b) (.n 0))) = some ([.acc .a, .sr], .r (.high .b) (.n 0)) ∧
    (⟨.postInc, 0⟩ : Ea) ∈ firMoves.eas ∧ Mode.postInc.updates = true ∧ Reg.mul .x0 ∈ firMoves.dsts := by decide

/-- A state with one statement at the pc. -/
def one : State := { base with prog := [text "ori #$08,mr"] }

theorem one_steps : ∃ t, step one = .next t ∧ t.sr ≠ one.sr := ⟨_, rfl, by decide⟩

theorem witness_StepRunsDecodedInstruction :
    one.prog[one.pc]? = some (text "ori #$08,mr") ∧ decode (text "ori #$08,mr") = .ok (.ori 0x08) := by decide

theorem witness_StepEndsPastLastStatement :
    ({ one with pc := 1 }).prog.length ≤ ({ one with pc := 1 }).pc ∧
    ({ one with prog := [text "nop"] }).prog[0]? = some (text "nop") ∧ decode (text "nop") = .error .notInSource := by
  decide

theorem one_ne_blank : (1 : Word) ≠ Config.blankWord := fun h => by
  have := congrArg BitVec.toNat h
  simp [Config.blankWord, Config.wordBits] at this

theorem single_wf (k : Nat) (hk : k < 65536) : Memory.wf [(k, (1 : Word))] = true := by
  simpa [Memory.wf, Memory.wfFrom, hk] using one_ne_blank

/-- `one` with memory in canonical form whatever the width of a word is. -/
def oneWord : State := { one with xmem := [(16, 1)], ymem := [(65535, 1)] }

theorem oneWord_inv : Inv oneWord := by
  refine ⟨single_wf _ (by decide), single_wf _ (by decide), by decide, by decide, List.Pairwise.nil,
    fun c h => by cases h⟩

theorem witness_StepKeepsInvariant : Inv oneWord ∧ ∃ t, step oneWord = .next t := ⟨oneWord_inv, _, rfl⟩

theorem witness_StepKeepsProgramAndNumbersDrawsAnew : ∃ t, step one = .next t := ⟨_, rfl⟩

theorem witness_ModesLeaveOffsetsAndModifiers :
    (∃ t, exec (.moveI (.int 3) (.n 0)) base = .next t ∧ t.N 0 ≠ base.N 0) ∧
    (∃ t, exec (.moveI (.int 3) (.m 0)) base = .next t ∧ t.M 0 ≠ base.M 0) ∧
    (∃ t, exec (.lua ⟨.postIncN, 2⟩ 4) base = .next t ∧ t.R 4 ≠ base.R 4) ∧
    ∃ t, exec (.moveU ⟨.postInc, 7⟩) base = .next t ∧ t.R 7 ≠ base.R 7 :=
  ⟨⟨_, rfl, by decide⟩, ⟨_, rfl, by decide⟩, ⟨_, rfl, by decide⟩, ⟨_, rfl, by decide⟩⟩

theorem witness_OnlyAluDoAndOriChangeStatus : ∃ t, exec (.ori 0x08) base = .next t ∧ t.sr ≠ base.sr :=
  ⟨_, rfl, by decide⟩

theorem witness_EventsAreKeptInOrder :
    ∃ t, step { base with prog := [text "movep y:$ffe0,x:(r0)"] } = .next t ∧ t.events ≠ base.events :=
  ⟨_, rfl, by decide⟩

theorem witness_MemoryKeepsLastWrite : (0 : Addr) ≠ 0xFFFF ∧ Memory.wf [(16, (1 : Word))] = true :=
  ⟨by decide, single_wf _ (by decide)⟩

end Sys2Proof.Tests
end

section
/-! SUPPORT. What a statement with a move field does, be it a MOVE or a data-ALU operation with its moves: it stops where
its moves stop, and otherwise leaves every effect of its moves (R111, R114) and changes nothing else. -/

namespace Sys2Proof.Claims

open Sys2Proof.Machine

/-! ### MOVE and the data-ALU operations as one form -/

/-- The writes of an instruction's data-ALU operation, of its destination and of `sr`; none for a MOVE. -/
def aluWrites (s : State) (i : Instr) : List Write :=
  match aluResult s i with
  | some (d, g) => [.acc d g.1, .status g.2]
  | none => []

/-- The writes of a statement with the move field `mv`. -/
def fieldWrites (s : State) (i : Instr) (mv : Moves) : List Write := aluWrites s i ++ s.movesWrites mv

/-- The state after a statement with the move field `mv` that nothing stops. -/
def fieldNext (s : State) (i : Instr) (mv : Moves) : State :=
  s.retire (fieldWrites s i mv) (Machine.aguNums mv.dsts)

variable {s : State} {i : Instr} {alu : List Reg} {mv : Moves} {sp : Space} {e : Ea} {mm : MemMove}
  {ws : List Write} {w : List AguNum}

theorem exec_of_fieldOf (hf : fieldOf i = some (alu, mv)) :
    exec i s = outcome (s.movesStop mv) (fieldNext s i mv) := by
  cases i <;> cases hf <;> rfl

theorem exec_eq_next_of_fieldOf (hf : fieldOf i = some (alu, mv)) (hu : MovesUsable s mv) :
    exec i s = .next (fieldNext s i mv) := by
  rw [exec_of_fieldOf hf, (s.movesStop_eq_none mv).2 hu, outcome_none]

theorem illFormed_of_fieldOf (hf : fieldOf i = some (alu, mv)) : i.illFormed = movesIllFormed alu mv := by
  cases i <;> cases hf <;> rfl

theorem movesIllFormed_of_wf (hf : fieldOf i = some (alu, mv)) (hwf : i.wf = true) : movesIllFormed alu mv = none := by
  rwa [Instr.wf, illFormed_of_fieldOf hf, Option.isNone_iff_eq_none] at hwf

/-- A data-ALU operation writes no AGU register (R115 to R122). -/
theorem aguNum_of_fieldOf (hf : fieldOf i = some (alu, mv)) : ∀ d ∈ alu, d.aguNum = none := by
  cases i <;> cases hf <;> simp [aluDsts, Reg.aguNum]

/-- The writes of a data-ALU operation: its registers, no word of memory, no event. -/
theorem aluWrites_spec (s : State) (hf : fieldOf i = some (alu, mv)) :
    (aluWrites s i).flatMap Write.regs = alu ∧ (aluWrites s i).flatMap Write.cells = [] ∧
    (aluWrites s i).flatMap Write.recorded = [] := by
  cases i <;> cases hf <;> exact ⟨rfl, rfl, rfl⟩

/-- The writes of a statement with a move field: its registers, the words its moves store to, no event. -/
theorem fieldWrites_spec (s : State) (hf : fieldOf i = some (alu, mv)) :
    (fieldWrites s i mv).flatMap Write.regs = alu ++ movesRegs mv ∧
    (fieldWrites s i mv).flatMap Write.cells = stored s mv ∧
    (fieldWrites s i mv).flatMap Write.recorded = [] := by
  simp [fieldWrites, aluWrites_spec s hf, s.movesWrites_spec mv]

/-! ### The effect of writes made together, none of which undoes another -/

theorem aguValue_of_value {v : Addr} (h : s.aguFor e = some (.value v)) : s.aguValue sp e = v := by
  simp [State.aguValue, h, AguResult.get]

theorem eaWrites_of_updates (h : e.mode.updates = true) : s.eaWrites sp e = [.ptr e.k (s.aguValue sp e)] := by
  obtain ⟨mode, k⟩ := e
  cases mode
  case noUpdate | indexed => cases h
  all_goals rfl

theorem R_retire (s : State) (ws : List Write) (w : List AguNum) (k : AguNum) :
    (s.retire ws w).R k = (s.commit ws).R k := by
  simpa [State.read] using s.read_retire ws w (.r k) (by simp)

theorem ptrEffect_retire (hin : s.eaWrites sp e ⊆ ws) (hp : Apart (ws.flatMap Write.regs)) :
    PtrEffect s (s.retire ws w) e := by
  intro hup v hv
  rw [eaWrites_of_updates hup, aguValue_of_value hv] at hin
  rw [R_retire]
  exact s.R_commit_of_mem ws e.k v (hin (by simp)) hp

theorem read_retire_of_mem {d : Reg} {src : Place} {v : Value} (hin : .reg d src v ∈ ws)
    (hp : Apart (ws.flatMap Write.regs)) (hd : d.writable = true) :
    (s.retire ws w).read d = received src d v := by
  have hpc : d ≠ .pc := by
    rintro rfl
    cases hd
  rw [s.read_retire ws w d hpc]
  exact s.read_commit_of_mem ws d src v hin hp hd

theorem memMoveEffect_retire (hin : s.memMoveWrites sp mm ⊆ ws) (hp : Apart (ws.flatMap Write.regs))
    (hn : (ws.flatMap Write.cells).Nodup) (hd : ∀ d ∈ mm.dst, d.writable = true) :
    MemMoveEffect s (s.retire ws w) sp mm := by
  cases mm with
  | load e d =>
    obtain ⟨hreg, hea⟩ := List.cons_subset.1 hin
    exact ⟨read_retire_of_mem hreg hp (hd d (by simp [MemMove.dst])), ptrEffect_retire hea hp⟩
  | store src e =>
    obtain ⟨hmem, hea⟩ := List.cons_subset.1 hin
    refine ⟨?_, ptrEffect_retire hea hp⟩
    rw [s.peek_retire]
    exact s.peek_commit_of_mem ws sp _ _ hmem hn

theorem movesEffect_retire (hin : s.movesWrites mv ⊆ ws) (hp : Apart (ws.flatMap Write.regs))
    (hn : (ws.flatMap Write.cells).Nodup) (hd : ∀ d ∈ mv.dsts, d.writable = true) :
    MovesEffect s (s.retire ws w) mv := by
  cases mv with
  | none => trivial
  | i v d => exact read_retire_of_mem (hin (by simp [State.movesWrites, immMoveWrite])) hp (hd d (by simp [Moves.dsts]))
  | r src d =>
    exact read_retire_of_mem (hin (by simp [State.movesWrites, State.regMoveWrite])) hp (hd d (by simp [Moves.dsts]))
  | u e => exact ptrEffect_retire hin hp
  | x mm => exact memMoveEffect_retire hin hp hn hd
  | y mm => exact memMoveEffect_retire hin hp hn hd
  | xy mx my =>
    obtain ⟨hx, hy⟩ := List.append_subset.1 hin
    obtain ⟨hdx, hdy⟩ := List.forall_mem_append.1 hd
    exact ⟨memMoveEffect_retire hx hp hn hdx, memMoveEffect_retire hy hp hn hdy⟩
  | ry src d my =>
    obtain ⟨hr, hy⟩ := List.cons_subset.1 hin
    obtain ⟨hdr, hdy⟩ := List.forall_mem_cons.1 hd
    exact ⟨read_retire_of_mem hr hp hdr, memMoveEffect_retire hy hp hn hdy⟩

/-- A statement changes no register and no word of memory but those of its writes. -/
theorem frame_retire {regs : List Reg} (hr : ws.flatMap Write.regs ⊆ regs) :
    Frame s (s.retire ws w) regs (ws.flatMap Write.cells) := by
  obtain ⟨-, -, -, hsr, -, hprog, -, hlaunch, -⟩ := s.retire_fields ws w
  refine ⟨fun q hq hother => ?_, fun hnot j hj => ?_, fun sp a hother => ?_, hprog, hlaunch⟩
  · rw [s.read_retire ws w q hq]
    exact s.read_commit_other ws q fun d hd => hother d (hr hd)
  · rw [hsr]
    exact s.commit_sr_low ws (fun hin => hnot (hr hin)) j hj
  · rw [s.peek_retire]
    exact s.peek_commit_other ws sp a hother

theorem flow_retire (s : State) (ws : List Write) (w : List AguNum) : Flow s (s.retire ws w) := by
  obtain ⟨hpc, hloops, hrep, -⟩ := s.retire_fields ws w
  exact ⟨hpc, hloops, hrep⟩

/-! ### What a well-formed statement with a move field does -/

theorem movesEffect_of_wf (hf : fieldOf i = some (alu, mv)) (hwf : i.wf = true) :
    MovesEffect s (fieldNext s i mv) mv := by
  have hill := movesIllFormed_of_wf hf hwf
  obtain ⟨-, hregs, -, -⟩ := (movesIllFormed_eq_none alu mv).1 hill
  obtain ⟨hr, hc, -⟩ := fieldWrites_spec s hf
  refine movesEffect_retire (List.subset_append_right _ _) ?_ ?_ ((regsIllFormed_eq_none _ _).1 hregs).2
  · rw [hr]
    exact apart_of_wellFormed alu mv (aguNum_of_fieldOf hf) hill
  · rw [hc]
    exact stored_nodup s mv

theorem frame_of_fieldOf (hf : fieldOf i = some (alu, mv)) :
    Frame s (fieldNext s i mv) (alu ++ touched mv) (stored s mv) := by
  obtain ⟨hr, hc, -⟩ := fieldWrites_spec s hf
  rw [← hc]
  apply frame_retire
  rw [hr]
  intro d hd
  simpa [mem_movesRegs] using hd

/-- A statement with a move field records no access to a device register (D26). -/
theorem events_of_fieldOf (hf : fieldOf i = some (alu, mv)) :
    (fieldNext s i mv).events = s.events := by
  obtain ⟨-, -, -, -, -, -, -, -, hev⟩ := s.retire_fields (fieldWrites s i mv) (Machine.aguNums mv.dsts)
  rw [fieldNext, hev, (fieldWrites_spec s hf).2.2, List.append_nil]

/-- A MOVE makes its moves and does nothing else (R114). -/
theorem moveEffect_of_wf (hf : fieldOf i = some ([], mv)) (hwf : i.wf = true) :
    MoveEffect s (fieldNext s i mv) mv :=
  ⟨movesEffect_of_wf hf hwf, frame_of_fieldOf hf, events_of_fieldOf hf, flow_retire _ _ _⟩

end Sys2Proof.Claims
end

section
/-! SUPPORT. The statements on addressing modes. -/

namespace Sys2Proof.Claims

open Sys2Proof.Machine

/-! ### An XY: reference (R80) -/

theorem inXY_iff_mem (mode : Mode) :
    mode.inXY = true ↔ mode ∈ [Mode.noUpdate, .postInc, .postDec, .postIncN] := by
  cases mode <;> decide

/-- The operands of a well-formed XY: reference: the modes R80 admits, and two address registers. -/
theorem xy_operands_of_wf {i : Instr} {alu : List Reg} {mx my : MemMove} (hf : fieldOf i = some (alu, .xy mx my))
    (hwf : i.wf = true) : mx.ea.mode.inXY = true ∧ my.ea.mode.inXY = true ∧ mx.ea.k ≠ my.ea.k := by
  obtain ⟨hmodes, -⟩ := (movesIllFormed_eq_none alu _).1 (movesIllFormed_of_wf hf hwf)
  obtain ⟨hx, hy, hhalf⟩ := (xyIllFormed_eq_none mx my).1 hmodes
  exact ⟨hx, hy, fun hk => hhalf (by rw [hk])⟩

/-- Settles O20: the writes of a well-formed statement are apart, so each of the two moves leaves its effect; MOVE has
no other writes. -/
theorem moveXYMakesBothTransfers : Obligations.MoveXYMakesBothTransfers := by
  intro s i alu mx my hf hwf
  obtain ⟨hx, hy, hk⟩ := xy_operands_of_wf hf hwf
  refine ⟨(inXY_iff_mem _).1 hx, (inXY_iff_mem _).1 hy, hk, fun hux huy => ?_⟩
  obtain ⟨hex, hey⟩ := movesEffect_of_wf (s := s) hf hwf
  refine ⟨_, exec_eq_next_of_fieldOf hf ⟨hux, huy⟩, hex, hey, ?_⟩
  rintro rfl
  exact moveEffect_of_wf rfl hwf

end Sys2Proof.Claims
end

section
/-! SUPPORT. The statements on address modifiers. -/

namespace Sys2Proof.Claims

open Sys2Proof.Machine

/-! ### Linear arithmetic (R91) -/

theorem addr_add_eq_ofNat_mod (r n : Addr) : r + n = BitVec.ofNat 16 ((r.toNat + n.toNat) % 65536) := by
  bv_omega

theorem addr_sub_eq_ofNat_mod (r n : Addr) : r - n = BitVec.ofNat 16 ((r.toNat + 65536 - n.toNat) % 65536) := by
  bv_omega

/-- Settles O1: under the modifier $FFFF a step is 16-bit addition or subtraction of its offset, and the steps of one
have the offset 1. -/
theorem linearArithmeticWraps : Obligations.LinearArithmeticWraps := by
  intro r n
  have linear (step : AguStep) : aguAdd r step n 0xFFFF = .value (aguLinear r step n) :=
    aguAdd_linear r n 0xFFFF step rfl
  refine ⟨?plusOne, ?minusOne, ?plusN, ?minusN⟩
  case plusOne => exact (linear _).trans (congrArg _ (addr_add_eq_ofNat_mod r 1))
  case minusOne => exact (linear _).trans (congrArg _ (addr_sub_eq_ofNat_mod r 1))
  case plusN => exact (linear _).trans (congrArg _ (addr_add_eq_ofNat_mod r n))
  case minusN => exact (linear _).trans (congrArg _ (addr_sub_eq_ofNat_mod r n))

end Sys2Proof.Claims
end

section
/-! SUPPORT. The state after going on to the next statement and after each control instruction, case by case. -/

namespace Sys2Proof.Claims

open Sys2Proof.Machine

/-! ### Going on to the next statement (R126, R127) -/

theorem leave_of_not_last {s : State} (h : ∀ top rest, s.loops = top :: rest → top.last ≠ s.pc) :
    s.leave = s.setPc (s.pc + 1) := by
  unfold State.leave
  cases hl : s.loops with
  | nil => rfl
  | cons top rest => simp [h top rest hl]

theorem leave_of_more {s : State} {top : LoopRecord} {rest : List LoopRecord} (hl : s.loops = top :: rest)
    (hlast : top.last = s.pc) (hcount : 1 < top.count) :
    s.leave = (s.setLoops ({ top with count := top.count - 1 } :: rest)).setPc top.first := by
  simp [State.leave, hl, hlast, hcount]

theorem leave_of_done {s : State} {top : LoopRecord} {rest : List LoopRecord} (hl : s.loops = top :: rest)
    (hlast : top.last = s.pc) (hcount : ¬ 1 < top.count) : s.leave = (s.setLoops rest).setPc (s.pc + 1) := by
  simp [State.leave, hl, hlast, hcount]

theorem advance_of_rep_none {s : State} (h : s.rep = none) : s.advance = s.leave := by
  simp [State.advance, h]

theorem advance_of_more {s : State} {c : Nat} (h : s.rep = some c) (hc : 1 < c) :
    s.advance = s.setRep (some (c - 1)) := by
  simp [State.advance, h, hc]

theorem advance_of_last {s : State} {c : Nat} (h : s.rep = some c) (hc : ¬ 1 < c) :
    s.advance = (s.setRep none).leave := by
  simp [State.advance, h, hc]

/-! ### The control instructions -/

/-- The state after DO with its count read (R127). -/
def doNext (s : State) (count target : Nat) : State :=
  (((s.setLoops (⟨count, s.pc + 1, target - 1⟩ :: s.loops)).setPc (s.pc + 1)).setSr (Config.doStatus s.sr)).ran []

/-- The state after REP (R126). -/
def repNext (s : State) (count : Nat) : State := ((s.setRep (some count)).setPc (s.pc + 1)).ran []

theorem doStatement_eq_next_iff (s t : State) (count target : Nat) :
    s.doStatement count target = .next t ↔ DoUsable s count target ∧ doNext s count target = t := by
  rw [State.doStatement, outcome_eq_next, Option.map_eq_none_iff, State.doStops_eq_none]
  rfl

theorem repStops_eq_none (s : State) (count : Nat) : s.repStops count = none ↔ ControlUsable s ∧ count ≠ 0 := by
  rw [← State.controlStops_eq_none]
  unfold State.repStops
  cases s.controlStops <;> simp

theorem execRep_eq_next_iff (s t : State) (count : Nat) :
    exec (.rep count) s = .next t ↔ (ControlUsable s ∧ count ≠ 0) ∧ repNext s count = t := by
  rw [exec, execRep, outcome_eq_next, Option.map_eq_none_iff, repStops_eq_none]
  rfl

theorem execJmp_eq_next_iff (s t : State) (target : Nat) :
    exec (.jmp target) s = .next t ↔ (ControlUsable s ∧ s.loops = []) ∧ (s.setPc target).ran [] = t := by
  rw [exec, execJmp, outcome_eq_next, Option.map_eq_none_iff, State.jmpStops_eq_none]

end Sys2Proof.Claims
end

section
/-! SUPPORT. The invariant of the machine: every part of a statement keeps it. -/

namespace Sys2Proof.Claims

open Sys2Proof.Machine

/-- The invariant speaks of the memories, the loops, the repeat counter and the launch parameters only. -/
theorem inv_congr {s t : State} (h : Inv s) (hm : ∀ sp, (t.mem sp).wf = true) (hl : t.loops = s.loops)
    (hr : t.rep = s.rep) (hg : t.launch = s.launch) : Inv t where
  xmem := hm .x
  ymem := hm .y
  stack := by simpa [State.stackUsed, hl, hg] using h.stack
  loops := by simpa [hl] using h.loops
  ends := by simpa [hl] using h.ends
  rep := by simpa [hr] using h.rep

theorem mem_wf_of_inv {s : State} (h : Inv s) (sp : Space) : (s.mem sp).wf = true := by
  cases sp
  · exact h.xmem
  · exact h.ymem

/-! ### The writes of a statement -/

theorem mem_wf_apply {s : State} (h : ∀ sp, (s.mem sp).wf = true) (w : Write) (sp : Space) :
    ((s.apply w).mem sp).wf = true := by
  cases w with
  | mem sp' a v =>
    simp only [State.apply, State.setMem_mem]
    split
    · exact Memory.wf_put _ a v (h sp')
    · exact h sp
  | reg d src v => simpa [State.apply, s.mem_write d src v sp] using h sp
  | acc d v | status v | ptr k v | event e => simpa [State.apply] using h sp

theorem inv_apply {s : State} (h : Inv s) (w : Write) : Inv (s.apply w) := by
  obtain ⟨-, hl, hr, -, -, -, hg, -⟩ := s.apply_fields w
  exact inv_congr h (mem_wf_apply (mem_wf_of_inv h) w) hl hr hg

theorem inv_commit {s : State} (h : Inv s) (ws : List Write) : Inv (s.commit ws) := by
  induction ws generalizing s with
  | nil => exact h
  | cons w ws ih => exact ih (inv_apply h w)

/-! ### Going on -/

theorem inv_setPc {s : State} (h : Inv s) (pc : Nat) : Inv (s.setPc pc) :=
  inv_congr h (by simpa using mem_wf_of_inv h) rfl rfl rfl

theorem inv_ran {s : State} (h : Inv s) (w : List AguNum) : Inv (s.ran w) :=
  inv_congr h (by simpa using mem_wf_of_inv h) rfl rfl rfl

theorem inv_setRep {s : State} (h : Inv s) {r : Option Nat} (hr : ∀ c, r = some c → 1 ≤ c) : Inv (s.setRep r) where
  xmem := h.xmem
  ymem := h.ymem
  stack := h.stack
  loops := h.loops
  ends := h.ends
  rep := hr

theorem inv_setLoops {s : State} (h : Inv s) {ls : List LoopRecord} (hn : 2 * ls.length ≤ s.launch.stackDepth)
    (hb : ∀ g ∈ ls, 1 ≤ g.count ∧ g.first ≤ g.last) (he : ls.Pairwise fun g h => g.last ≠ h.last) :
    Inv (s.setLoops ls) where
  xmem := h.xmem
  ymem := h.ymem
  stack := hn
  loops := hb
  ends := he
  rep := h.rep

theorem inv_leave {s : State} (h : Inv s) : Inv s.leave := by
  cases hl : s.loops with
  | nil =>
    rw [leave_of_not_last (by simp [hl])]
    exact inv_setPc h _
  | cons top rest =>
    have hstack : 2 * (rest.length + 1) ≤ s.launch.stackDepth := by simpa [State.stackUsed, hl] using h.stack
    obtain ⟨htop, hrest⟩ := List.forall_mem_cons.1 (hl ▸ h.loops)
    obtain ⟨hne, hends⟩ := List.pairwise_cons.1 (hl ▸ h.ends)
    by_cases hlast : top.last = s.pc
    · by_cases hcount : 1 < top.count
      · have hcount' : 1 ≤ top.count - 1 := by omega
        have hagain : Inv (s.setLoops ({ top with count := top.count - 1 } :: rest)) :=
          inv_setLoops h hstack (List.forall_mem_cons.2 ⟨⟨hcount', htop.2⟩, hrest⟩) (List.pairwise_cons.2 ⟨hne, hends⟩)
        rw [leave_of_more hl hlast hcount]
        exact inv_setPc hagain _
      · rw [leave_of_done hl hlast hcount]
        exact inv_setPc (inv_setLoops h (by omega) hrest hends) _
    · rw [leave_of_not_last (by simpa [hl] using hlast)]
      exact inv_setPc h _

theorem inv_advance {s : State} (h : Inv s) : Inv s.advance := by
  cases hr : s.rep with
  | none =>
    rw [advance_of_rep_none hr]
    exact inv_leave h
  | some c =>
    by_cases hc : 1 < c
    · rw [advance_of_more hr hc]
      exact inv_setRep h fun d hd => by cases hd; omega
    · rw [advance_of_last hr hc]
      exact inv_leave (inv_setRep h (by simp))

/-! ### DO, and every instruction -/

/-- A DO that may run pushes a loop with an iteration and a body, which fits the stack and shares its end with no
active loop (R127). -/
theorem inv_doNext {s : State} (h : Inv s) {count target : Nat} (hu : DoUsable s count target) :
    Inv (doNext s count target) := by
  obtain ⟨-, hcount, hstack, htarget, hends⟩ := hu
  have hbody : 1 ≤ count ∧ s.pc + 1 ≤ target - 1 := by omega
  have hpush : Inv (s.setLoops (⟨count, s.pc + 1, target - 1⟩ :: s.loops)) :=
    inv_setLoops h hstack (List.forall_mem_cons.2 ⟨hbody, h.loops⟩)
      (List.pairwise_cons.2 ⟨fun g hg => (hends g hg).symm, h.ends⟩)
  exact inv_congr hpush (by simpa [doNext] using mem_wf_of_inv hpush) rfl rfl rfl

theorem inv_exec {i : Instr} {s t : State} (h : Inv s) (hx : exec i s = .next t) : Inv t := by
  cases hw : writesOf s i with
  | some ws =>
    rw [exec_eq_retire i s t ws hx hw]
    exact inv_ran (inv_advance (inv_commit h ws)) _
  | none =>
    cases i with
    | rep count =>
      obtain ⟨⟨-, hcount⟩, rfl⟩ := (execRep_eq_next_iff s t count).1 hx
      exact inv_ran (inv_setPc (inv_setRep h fun c hc => by cases hc; omega) _) _
    | doImm count target =>
      obtain ⟨hu, rfl⟩ := (doStatement_eq_next_iff s t count target).1 hx
      exact inv_doNext h hu
    | doReg src target =>
      obtain ⟨hu, rfl⟩ := (doStatement_eq_next_iff s t (s.unsigned src) target).1 hx
      exact inv_doNext h hu
    | jmp target =>
      obtain ⟨-, rfl⟩ := (execJmp_eq_next_iff s t target).1 hx
      exact inv_ran (inv_setPc h _) _
    | _ => simp [writesOf] at hw

/-- Settles O53: writes keep the memories' canonical form, the advance of the pc takes a loop or a repetition only where
one is left, and DO pushes its loop only where it fits. -/
theorem stepKeepsInvariant : Obligations.StepKeepsInvariant := by
  intro s t h hstep
  obtain ⟨u, i, -, -, hx⟩ := step_eq_next s t hstep
  exact inv_exec h hx

/-- Settles O54: at reset the memories and the loops are empty. -/
theorem resetMeetsInvariant : Obligations.ResetMeetsInvariant where
  xmem := rfl
  ymem := rfl
  stack := Nat.zero_le _
  loops := by simp [State.reset]
  ends := List.Pairwise.nil
  rep := by simp [State.reset]

end Sys2Proof.Claims
end

section
/-! SUPPORT. What the readers read from what the encoder writes. Two facts carry it: a blank that separates nothing is
dropped by `squeeze` and one after a sign is kept, and every reader is given the rest of the statement, of which it
needs to know its first token only. -/

namespace Sys2Proof.Claims

/-! ### Blanks -/

/-- The tokens hold no blank. -/
def Gapless (ts : List Token) : Prop := ∀ t ∈ ts, t.isGap = false

/-- Nothing follows, or a comma does. -/
def AtEnd (ts : List Token) : Prop := ts = [] ∨ ∃ us, ts = .comma :: us

/-- The blank that separates a store's mode from the move after it, where the mode ends in a sign. -/
def eaSeparator (e : Ea) : List Token :=
  match e.mode with
  | .postInc | .postDec => [.gap]
  | .noUpdate | .postIncN | .postDecN | .indexed | .preDec => []

theorem gapless_nil : Gapless [] := by simp [Gapless]

theorem gapless_cons {t : Token} {ts : List Token} : Gapless (t :: ts) ↔ t.isGap = false ∧ Gapless ts :=
  List.forall_mem_cons

theorem gapless_append {ts us : List Token} : Gapless (ts ++ us) ↔ Gapless ts ∧ Gapless us :=
  List.forall_mem_append

theorem gapless_ea (e : Ea) : Gapless e.tokens := by
  obtain ⟨mode, k⟩ := e
  cases mode <;> simp [Gapless, Ea.tokens, Token.isGap]

theorem gapless_memMove (sp : Space) (mm : MemMove) : Gapless (mm.tokens sp) := by
  cases mm <;> simp [MemMove.tokens, gapless_cons, gapless_append, gapless_ea, gapless_nil, regToken, Token.isGap]

theorem gapless_imm (v : Imm) : Gapless v.tokens := by
  cases v <;> simp only [Imm.tokens, signTokens, natTokens] <;> split <;> simp [Gapless, Token.isGap]

theorem squeeze_gap (ts : List Token) : squeeze (.gap :: ts) = squeeze ts := by simp [squeeze]

/-- A blank is kept after a sign only. -/
theorem squeeze_word (w : Text) (ts : List Token) : squeeze (.word w :: ts) = .word w :: squeeze ts := by
  simp [squeeze]

theorem squeeze_cons {t : Token} {ts : List Token} (ht : t.isGap = false) (hts : ts.head? ≠ some .gap) :
    squeeze (t :: ts) = t :: squeeze ts := by
  cases t with
  | gap => cases ht
  | plus | minus =>
    cases ts with
    | nil => rfl
    | cons u us => cases u <;> simp_all [squeeze]
  | _ => simp [squeeze]

theorem head?_ne_gap {ts : List Token} (h : Gapless ts) : ts.head? ≠ some .gap := by
  cases ts with
  | nil => simp
  | cons t ts =>
    rintro ⟨⟩
    cases (gapless_cons.1 h).1

theorem squeeze_append_of_gapless {ts us : List Token} (h : Gapless ts) (hus : us.head? ≠ some .gap) :
    squeeze (ts ++ us) = ts ++ squeeze us := by
  induction ts with
  | nil => rfl
  | cons t ts ih =>
    obtain ⟨ht, hts⟩ := gapless_cons.1 h
    have hhead : (ts ++ us).head? ≠ some .gap := by
      cases ts with
      | nil => exact hus
      | cons u ts => simpa using head?_ne_gap hts
    rw [List.cons_append, squeeze_cons ht hhead, ih hts, List.cons_append]

theorem squeeze_of_gapless {ts : List Token} (h : Gapless ts) : squeeze ts = ts := by
  simpa [squeeze] using squeeze_append_of_gapless (us := []) h (by simp)

theorem dropGaps_of_gapless {ts : List Token} (h : Gapless ts) : dropGaps ts = ts :=
  List.filter_eq_self.2 (by simpa [Gapless] using h)

theorem settle_cons {t : Token} (ht : t.isGap = false) (ts : List Token) : settle (t :: ts) = t :: settle ts := by
  cases t with
  | gap => cases ht
  | _ => rfl

theorem settle_append_of_gapless {ts : List Token} (h : Gapless ts) (us : List Token) :
    settle (ts ++ us) = ts ++ settle us := by
  induction ts with
  | nil => rfl
  | cons t ts ih =>
    obtain ⟨ht, hts⟩ := gapless_cons.1 h
    rw [List.cons_append, settle_cons ht, ih hts, List.cons_append]

theorem settle_of_gapless {ts : List Token} (h : Gapless ts) : settle ts = ts := by
  simpa [settle] using settle_append_of_gapless h []

/-- The blank after a store's mode stays where the mode ends in a sign. -/
theorem squeeze_ea_gap (e : Ea) (us : List Token) :
    squeeze (e.tokens ++ .gap :: us) = e.tokens ++ (eaSeparator e ++ squeeze us) := by
  obtain ⟨mode, k⟩ := e
  cases mode <;> simp [Ea.tokens, eaSeparator, squeeze]

/-! ### Numbers and immediates -/

theorem atEnd_nil : AtEnd [] := .inl rfl
theorem atEnd_comma (ts : List Token) : AtEnd (.comma :: ts) := .inr ⟨ts, rfl⟩

theorem readExpr_factor_number (f n : Nat) {ts : List Token} (h : AtEnd ts) :
    readExpr [] (f + 1) .factor (.word (decimal n) :: ts) = some ((n : Int), ts) := by
  obtain rfl | ⟨us, rfl⟩ := h <;> simp [readExpr, integerOf, numberOf_decimal]

theorem readExpr_factor_negative (f n : Nat) {ts : List Token} (h : AtEnd ts) :
    readExpr [] (f + 2) .factor (.minus :: .word (decimal n) :: ts) = some (-(n : Int), ts) := by
  rw [readExpr, readExpr_factor_number f n h]

/-- A sum that is one factor, with nothing to add or to multiply after it. -/
theorem readExpr_sum_of_factor {f : Nat} {v : Int} {us ts : List Token} (h : AtEnd ts)
    (hf : readExpr [] (f + 1) .factor us = some (v, ts)) : readExpr [] (f + 3) .sum us = some (v, ts) := by
  have hproduct : readExpr [] (f + 2) .product us = some (v, ts) := by
    rw [readExpr, hf]
    obtain rfl | ⟨us, rfl⟩ := h <;> simp [readExpr]
  rw [readExpr, hproduct]
  obtain rfl | ⟨us, rfl⟩ := h <;> simp [readExpr]

theorem readInt_number (n : Nat) {ts : List Token} (h : AtEnd ts) (hg : Gapless ts) :
    readInt [] (.word (decimal n) :: ts) = some ((n : Int), ts) := by
  rw [readInt, dropGaps_of_gapless (gapless_cons.2 ⟨rfl, hg⟩)]
  exact readExpr_sum_of_factor h (readExpr_factor_number _ n h)

theorem readInt_negative (n : Nat) {ts : List Token} (h : AtEnd ts) (hg : Gapless ts) :
    readInt [] (.minus :: .word (decimal n) :: ts) = some (-(n : Int), ts) := by
  rw [readInt, dropGaps_of_gapless (gapless_cons.2 ⟨rfl, gapless_cons.2 ⟨rfl, hg⟩⟩)]
  exact readExpr_sum_of_factor h (readExpr_factor_negative _ n h)

theorem readNat_natTokens (n : Nat) {ts : List Token} (h : AtEnd ts) (hg : Gapless ts) :
    readNat [] (natTokens n ++ ts) = some (n, ts) := by
  simp [natTokens, readNat, readInt_number n h hg]

theorem readInt_int (v : Int) {ts : List Token} (h : AtEnd ts) (hg : Gapless ts) :
    readInt [] ((Imm.int v).tokens ++ ts) = some (v, ts) := by
  by_cases hv : v < 0
  · have hread := readInt_negative v.natAbs h hg
    rw [show -(v.natAbs : Int) = v by omega] at hread
    simpa [Imm.tokens, signTokens, natTokens, hv] using hread
  · have hread := readInt_number v.natAbs h hg
    rw [show (v.natAbs : Int) = v by omega] at hread
    simpa [Imm.tokens, signTokens, natTokens, hv] using hread

theorem readFraction_decimal (n : Nat) : readFraction [] (decimal n) = none := by
  simp [readFraction, fractionOf_decimal, symbolOf]

theorem readFraction_written (v k : Nat) :
    readFraction [] (decimal (v / 10 ^ (k + 1)) ++ 46#8 :: lastDigits (k + 1) v) = some ((v : Int), k) := by
  have h := fractionOf_written v k
  simp only [BitVec.ofNat_eq_ofNat] at h
  simp [readFraction, h]

/-- An immediate reads as itself: an integer's digits are no fraction, and a fraction's are read before an integer is
tried. -/
theorem readImm_tokens (v : Imm) {ts : List Token} (h : AtEnd ts) (hg : Gapless ts) :
    readImm [] (v.tokens ++ ts) = some (v, ts) := by
  have hgap : dropGaps (v.tokens ++ ts) = v.tokens ++ ts :=
    dropGaps_of_gapless (gapless_append.2 ⟨gapless_imm v, hg⟩)
  unfold readImm
  rw [hgap]
  cases v with
  | int v =>
    rw [readInt_int v h hg]
    by_cases hv : v < 0 <;> simp [Imm.tokens, signTokens, natTokens, hv, readFraction_decimal]
  | frac v k =>
    by_cases hv : v < 0
    · have habs : -|v| = v := by rw [abs_of_neg hv, neg_neg]
      simp [Imm.tokens, signTokens, hv, readFraction_written, habs]
    · have habs : (v.natAbs : Int) = v := by omega
      simp [Imm.tokens, signTokens, hv, readFraction_written, habs]

/-! ### Registers and modes -/

theorem readReg_regToken (q : Reg) (ts : List Token) : readReg (regToken q :: ts) = some (q, ts) := by
  simp [readReg, regToken, regOf_name]

theorem readAcc_regToken (d : AccName) (ts : List Token) : readAcc (regToken (.acc d) :: ts) = some (d, ts) := by
  simp [readAcc, regToken, regOf_name]

theorem spaceOf_name (sp : Space) : spaceOf sp.name = .ok sp := by cases sp <;> decide

theorem readEa_tokens (e : Ea) {ts : List Token} (h : AtEnd ts) : readEa (e.tokens ++ ts) = some (e, ts) := by
  obtain ⟨mode, k⟩ := e
  obtain rfl | ⟨us, rfl⟩ := h <;> cases mode <;> simp [Ea.tokens, readEa, readUpdate, regOf_name]

/-- A mode is read up to the word after it: its separator keeps a final sign from taking that word as an offset. -/
theorem readEa_separated (e : Ea) (w : Text) (ts : List Token) :
    readEa (e.tokens ++ (eaSeparator e ++ .word w :: ts)) = some (e, .word w :: ts) := by
  obtain ⟨mode, k⟩ := e
  cases mode <;> simp [Ea.tokens, eaSeparator, readEa, readUpdate, regOf_name]

/-! ### Moves -/

theorem readOneMove_load (sp : Space) (e : Ea) (d : Reg) {ts : List Token} (hg : Gapless ts) :
    readOneMove ((MemMove.load e d).tokens sp ++ ts) = .ok (.mem sp (.load e d), ts) := by
  have hgap : Gapless (e.tokens ++ .comma :: regToken d :: ts) :=
    gapless_append.2 ⟨gapless_ea e, gapless_cons.2 ⟨rfl, gapless_cons.2 ⟨rfl, hg⟩⟩⟩
  simp [MemMove.tokens, readOneMove, readSpaced, spaceOf_name, dropGaps_of_gapless hgap,
    readEa_tokens e (atEnd_comma _), readReg_regToken]

theorem readOneMove_store {sp : Space} {src : Reg} {e : Ea} {us ts : List Token}
    (h : readEa (settle (e.tokens ++ us)) = some (e, ts)) :
    readOneMove ((MemMove.store src e).tokens sp ++ us) = .ok (.mem sp (.store src e), ts) := by
  simp [MemMove.tokens, readOneMove, regToken, regOf_name, readSpaced, spaceOf_name, h]

/-- The last move of a statement. -/
theorem readOneMove_memMove (sp : Space) (mm : MemMove) : readOneMove (mm.tokens sp) = .ok (.mem sp mm, []) := by
  cases mm with
  | load e d => simpa using readOneMove_load sp e d gapless_nil
  | store src e =>
    have hea : readEa (settle (e.tokens ++ [])) = some (e, []) := by
      rw [List.append_nil, settle_of_gapless (gapless_ea e)]
      simpa using readEa_tokens e atEnd_nil
    simpa using readOneMove_store (sp := sp) (src := src) hea

theorem readOneMove_regs (src dst : Reg) {ts : List Token} (h : ts.head? ≠ some .colon) :
    readOneMove (regToken src :: .comma :: regToken dst :: ts) = .ok (.regs src dst, ts) := by
  have hts : ∀ us, ts ≠ .colon :: us := by
    rintro us rfl
    exact h rfl
  simp [readOneMove, regToken, regOf_name]

/-- The blanks left in the operands of a first move before a second one. -/
def moveSeparator : MemMove → List Token
  | .load _ _ => []
  | .store _ e => eaSeparator e

theorem squeeze_memMove_gap (sp : Space) (mm : MemMove) (us : List Token) :
    squeeze (mm.tokens sp ++ .gap :: us) = mm.tokens sp ++ (moveSeparator mm ++ squeeze us) := by
  cases mm with
  | load e d =>
    have hgap : Gapless ([.word sp.name, .colon] ++ e.tokens ++ [.comma]) := by
      simp [gapless_append, gapless_cons, gapless_ea, gapless_nil, Token.isGap]
    have h := squeeze_append_of_gapless (us := regToken d :: .gap :: us) hgap (by simp [regToken])
    simpa [MemMove.tokens, moveSeparator, regToken, squeeze_word, squeeze_gap] using h
  | store src e =>
    simp [MemMove.tokens, moveSeparator, regToken, squeeze, squeeze_ea_gap]

/-- A second move in Y: begins with a word that the first move's mode does not take: the letter `y`, or the register of
a store, which a comma follows. -/
theorem settle_separator_memMove (e : Ea) (my : MemMove) :
    settle (e.tokens ++ (eaSeparator e ++ my.tokens .y)) = e.tokens ++ (eaSeparator e ++ my.tokens .y) := by
  have hy : isOffset Space.y.name = false := by decide
  rw [settle_append_of_gapless (gapless_ea e)]
  congr 1
  have hg := settle_of_gapless (gapless_memMove .y my)
  have hsep : settle (.gap :: my.tokens .y) = .gap :: my.tokens .y := by
    cases my <;> simp_all [MemMove.tokens, regToken, settle, startsComma]
  obtain ⟨mode, k⟩ := e
  cases mode
  case postInc | postDec => exact hsep
  all_goals exact hg

theorem readOneMove_first (mx my : MemMove) :
    readOneMove (mx.tokens .x ++ (moveSeparator mx ++ my.tokens .y)) = .ok (.mem .x mx, my.tokens .y) := by
  cases mx with
  | load e d => exact readOneMove_load .x e d (gapless_memMove .y my)
  | store src e =>
    apply readOneMove_store
    rw [moveSeparator, settle_separator_memMove]
    cases my <;> exact readEa_separated e _ _

theorem memMove_tokens_cons (sp : Space) (mm : MemMove) : ∃ w ts, mm.tokens sp = .word w :: ts := by
  cases mm <;> exact ⟨_, _, rfl⟩

/-- The move field of a statement reads as itself. -/
theorem readMoves_squeeze (mv : Moves) : readMoves [] (squeeze mv.tokens) = .ok mv := by
  cases mv with
  | none => rfl
  | i v d =>
    have hgap : Gapless [.comma, regToken d] := by simp [Gapless, regToken, Token.isGap]
    have htokens : Gapless (Moves.i v d).tokens := by
      simpa [Moves.tokens, gapless_cons, gapless_append, gapless_imm, Token.isGap] using gapless_cons.1 hgap
    rw [squeeze_of_gapless htokens]
    simp [Moves.tokens, readMoves, readImm_tokens v (atEnd_comma _) hgap, readReg_regToken]
  | r src d =>
    have htokens : Gapless (Moves.r src d).tokens := by simp [Gapless, Moves.tokens, regToken, Token.isGap]
    rw [squeeze_of_gapless htokens]
    have h := readOneMove_regs src d (ts := []) (by simp)
    simp_all [Moves.tokens, readMoves, regToken]
  | u e =>
    have h := readEa_tokens e atEnd_nil
    rw [List.append_nil] at h
    simp only [Moves.tokens, squeeze_of_gapless (gapless_ea e)]
    have hdrop := dropGaps_of_gapless (gapless_ea e)
    obtain ⟨mode, k⟩ := e
    cases mode <;> simp_all [Ea.tokens, readMoves]
  | x mm =>
    have h := readOneMove_memMove .x mm
    simp only [Moves.tokens, squeeze_of_gapless (gapless_memMove .x mm)]
    obtain ⟨w, ts, htokens⟩ := memMove_tokens_cons .x mm
    simp_all [readMoves]
  | y mm =>
    have h := readOneMove_memMove .y mm
    simp only [Moves.tokens, squeeze_of_gapless (gapless_memMove .y mm)]
    obtain ⟨w, ts, htokens⟩ := memMove_tokens_cons .y mm
    simp_all [readMoves]
  | xy mx my =>
    have hx := readOneMove_first mx my
    have hy := readOneMove_memMove .y my
    have hsqueeze : squeeze (Moves.xy mx my).tokens = mx.tokens .x ++ (moveSeparator mx ++ my.tokens .y) := by
      simp [Moves.tokens, squeeze_memMove_gap, squeeze_of_gapless (gapless_memMove .y my)]
    rw [hsqueeze]
    obtain ⟨w, ts, htokens⟩ := memMove_tokens_cons .x mx
    obtain ⟨v, us, htokens'⟩ := memMove_tokens_cons .y my
    simp_all [readMoves]
  | ry src d my =>
    obtain ⟨v, us, htokens⟩ := memMove_tokens_cons .y my
    have hr := readOneMove_regs src d (ts := my.tokens .y) (by simp [htokens])
    have hy := readOneMove_memMove .y my
    have hsqueeze : squeeze (Moves.ry src d my).tokens = regToken src :: .comma :: regToken d :: my.tokens .y := by
      simp [Moves.tokens, regToken, squeeze, squeeze_of_gapless (gapless_memMove .y my)]
    rw [hsqueeze]
    simp_all [readMoves, regToken]

end Sys2Proof.Claims
end

section
/-! SUPPORT. The statements on the decoder: it inverts the encoder, and what it decodes is well formed. -/

namespace Sys2Proof.Claims

open Sys2Proof.Machine

/-! ### The operands of each mnemonic -/

/-- The blank before a move field separates nothing: the operand field ends in a word. -/
theorem squeeze_field (mv : Moves) : squeeze mv.field = squeeze mv.tokens := by
  cases mv <;> simp [Moves.field, Moves.tokens, squeeze]

theorem readMove_tokens {i : Instr} {mv : Moves} (hf : fieldOf i = some ([], mv)) :
    readMove [] (squeeze mv.tokens) = .ok i := by
  cases i <;> cases hf <;> simp [readMove, readMoves_squeeze]

theorem readOneAcc_tokens (mk : AccName → Moves → Instr) (d : AccName) (mv : Moves) :
    readOneAcc [] mk (squeeze ([regToken (.acc d)] ++ mv.field)) = .ok (mk d mv) := by
  have hread := readAcc_regToken d (squeeze mv.tokens)
  simp only [regToken] at hread
  simp [readOneAcc, regToken, squeeze_word, squeeze_field, hread, readMoves_squeeze, Except.map]

theorem readTwoAcc_tokens (s d : AccName) (mv : Moves) :
    readTwoAcc [] (squeeze ([regToken (.acc s), .comma, regToken (.acc d)] ++ mv.field)) = .ok (.subl s d mv) := by
  simp [readTwoAcc, regToken, squeeze, squeeze_field, readAcc, regOf_name, readMoves_squeeze, Except.map]

theorem readSign_tokens (neg : Bool) (w : Text) (ts : List Token) :
    readSign (signTokens neg ++ .word w :: ts) = (neg, .word w :: ts) := by
  cases neg <;> rfl

theorem readProduct_tokens (mk : Bool → MulReg → MulReg → AccName → Moves → Instr) (neg : Bool) (p q : MulReg)
    (d : AccName) (mv : Moves) :
    readProduct [] mk (squeeze (productTokens neg p q d mv)) = .ok (mk neg p q d mv) := by
  have hsqueeze : squeeze (productTokens neg p q d mv) = signTokens neg ++ .word (Reg.mul p).name ::
      [.comma, .word (Reg.mul q).name, .comma, .word (Reg.acc d).name] ++ squeeze mv.tokens := by
    cases neg <;> simp [productTokens, signTokens, regToken, squeeze, squeeze_field]
  rw [hsqueeze, List.append_assoc, List.cons_append, readProduct, readSign_tokens]
  simp [readMul, readAcc, regOf_name, readMoves_squeeze, Except.map]

theorem readAddress_natTokens (pp : Addr) {ts : List Token} (h : AtEnd ts) (hg : Gapless ts) :
    readAddress [] (natTokens pp.toNat ++ ts) = some (pp, ts) := by
  simp [readAddress, readNat_natTokens _ h hg, pp.isLt]

theorem gapless_natTokens (n : Nat) : Gapless (natTokens n) := by simp [Gapless, natTokens, Token.isGap]

/-- The operands of an instruction with no move field hold no blank. -/
theorem gapless_operands {i : Instr} (h : fieldOf i = none) : Gapless i.operands := by
  cases i
  case movepReg | movepMem | movepOut | lua | rep | doImm | doReg | jmp | ori =>
    simp [Instr.operands, gapless_append, gapless_cons, gapless_nil, gapless_ea, gapless_natTokens, regToken,
      Token.isGap]
  all_goals cases h

theorem readOperands_squeeze (i : Instr) : readOperands [] i.mnemonic (squeeze i.operands) = .ok i := by
  cases i with
  | moveI v d => exact readMove_tokens (mv := .i v d) rfl
  | moveR s d => exact readMove_tokens (mv := .r s d) rfl
  | moveU e => exact readMove_tokens (mv := .u e) rfl
  | moveX mm => exact readMove_tokens (mv := .x mm) rfl
  | moveY mm => exact readMove_tokens (mv := .y mm) rfl
  | moveXY mx my => exact readMove_tokens (mv := .xy mx my) rfl
  | clr d mv => exact readOneAcc_tokens .clr d mv
  | rnd d mv => exact readOneAcc_tokens .rnd d mv
  | lsl d mv => exact readOneAcc_tokens .lsl d mv
  | lsr d mv => exact readOneAcc_tokens .lsr d mv
  | subl s d mv => exact readTwoAcc_tokens s d mv
  | mac neg p q d mv => exact readProduct_tokens .mac neg p q d mv
  | macr neg p q d mv => exact readProduct_tokens .macr neg p q d mv
  | mpy neg p q d mv => exact readProduct_tokens .mpy neg p q d mv
  | movepReg pp d =>
    have hpp := readAddress_natTokens pp (atEnd_comma [regToken d]) (by simp [Gapless, regToken, Token.isGap])
    rw [squeeze_of_gapless (gapless_operands rfl)]
    simp_all [Instr.operands, Instr.mnemonic, readOperands, readMovep, regToken, readReg, regOf_name, Space.name, text]
  | movepMem pp e =>
    have hpp := readAddress_natTokens pp (atEnd_comma (.word Space.x.name :: .colon :: e.tokens))
      (by simp [gapless_cons, gapless_ea, Token.isGap])
    have hea := readEa_tokens e atEnd_nil
    have hx := spaceOf_name .x
    rw [squeeze_of_gapless (gapless_operands rfl)]
    simp_all [Instr.operands, Instr.mnemonic, readOperands, readMovep, readSpaced, Space.name, text]
  | movepOut s pp =>
    have hpp := readAddress_natTokens pp atEnd_nil gapless_nil
    rw [squeeze_of_gapless (gapless_operands rfl)]
    simp_all [Instr.operands, Instr.mnemonic, readOperands, readMovep, regToken, regOf_name, Space.name, text]
  | lua e d =>
    have hg : Gapless (Instr.lua e d).operands := gapless_operands rfl
    have hea := readEa_tokens e (atEnd_comma [regToken (.r d)])
    rw [squeeze_of_gapless hg, Instr.mnemonic, readOperands, readLua, dropGaps_of_gapless hg, Instr.operands, hea]
    simp [readReg_regToken]
  | rep c =>
    have hc := readNat_natTokens c atEnd_nil gapless_nil
    rw [squeeze_of_gapless (gapless_operands rfl)]
    simp_all [Instr.operands, Instr.mnemonic, readOperands, readRep]
  | doImm c l =>
    have hc := readNat_natTokens c (atEnd_comma (natTokens l)) (gapless_cons.2 ⟨rfl, gapless_natTokens l⟩)
    have hl := readNat_natTokens l atEnd_nil gapless_nil
    rw [squeeze_of_gapless (gapless_operands rfl)]
    simp_all [Instr.operands, Instr.mnemonic, readOperands, readDo]
  | doReg s l =>
    have hl := readNat_natTokens l atEnd_nil gapless_nil
    rw [squeeze_of_gapless (gapless_operands rfl)]
    simp_all [Instr.operands, Instr.mnemonic, readOperands, readDo, regToken, readReg, regOf_name]
  | jmp l =>
    have hl := readNat_natTokens l atEnd_nil gapless_nil
    rw [squeeze_of_gapless (gapless_operands rfl)]
    simp_all [Instr.operands, Instr.mnemonic, readOperands, readJmp]
  | ori v =>
    have hv := readNat_natTokens v.toNat (atEnd_comma [.word (text "mr")]) (by simp [Gapless, Token.isGap])
    rw [squeeze_of_gapless (gapless_operands rfl)]
    simp_all [Instr.operands, Instr.mnemonic, readOperands, readOri, v.isLt]

/-! ### The whole statement -/

theorem dropLabel_mnemonic {w : Text} {q : Mnemonic} (h : mnemonicOf w = some q) (ts : List Token) :
    dropLabel (.word w :: ts) = .word w :: ts := by
  unfold dropLabel
  split
  · rename_i heq
    cases heq
    simp [h]
  · rfl

/-- The encoder's text begins with the mnemonic, so that no label is read from it. -/
theorem statementTokens_encode (i : Instr) :
    statementTokens (encode i) = .word i.mnemonic.name :: squeeze i.operands := by
  have hlex : lex (encode i) = .word i.mnemonic.name :: squeeze i.operands := by
    rw [Laws.LexEncode.of_clean i, Instr.tokens]
    simp [squeeze]
  rw [statementTokens, hlex, dropLabel_mnemonic (mnemonicOf_name _), ite_self]

theorem parse_encode (i : Instr) : parse [] (statementTokens (encode i)) = .ok i := by
  rw [statementTokens_encode]
  simp [parse, mnemonicOf_name, readOperands_squeeze]

theorem checked_eq_ok_iff (i j : Instr) : checked i = .ok j ↔ i.wf = true ∧ i = j := by
  unfold checked Instr.wf
  cases i.illFormed <;> simp

/-- Settles O45: the lexer gives back the tokens of the instruction, the mnemonic is no label, and the reader of each
mnemonic reads its operands from them. -/
theorem decodeInvertsEncode : Obligations.DecodeInvertsEncode := by
  intro i hwf
  rw [decode, decodeWith, parse_encode]
  exact (checked_eq_ok_iff i i).2 ⟨hwf, rfl⟩

/-! ### What the decoder answers -/

/-- Settles O46: the decoder's last act is the check of well-formedness. -/
theorem decodedInstructionsAreWellFormed : Obligations.DecodedInstructionsAreWellFormed := by
  intro t i h
  unfold decode decodeWith at h
  split at h
  · cases h
  · obtain ⟨hwf, rfl⟩ := (checked_eq_ok_iff _ i).1 h
    exact hwf

theorem not_mem_of_inXY {mode : Mode} (h : mode.inXY = true) : mode ∉ [Mode.postDecN, .indexed, .preDec] := by
  cases mode
  case noUpdate | postInc | postDec | postIncN => decide
  all_goals cases h

/-- Settles O47: the pair of moves passed the check on XY: references. -/
theorem decodedXYReferencesAreLegal : Obligations.DecodedXYReferencesAreLegal := by
  intro t i alu mx my hdecode hf
  have hill := movesIllFormed_of_wf hf (decodedInstructionsAreWellFormed t i hdecode)
  obtain ⟨hmodes, -⟩ := (movesIllFormed_eq_none alu _).1 hill
  obtain ⟨hx, hy, hhalf⟩ := (xyIllFormed_eq_none mx my).1 hmodes
  have hhalves : (mx.ea.k.val ≤ 3 ∧ 4 ≤ my.ea.k.val) ∨ (4 ≤ mx.ea.k.val ∧ my.ea.k.val ≤ 3) := by
    simp only [upperHalf, ne_eq, decide_eq_decide] at hhalf
    omega
  exact ⟨not_mem_of_inXY hx, not_mem_of_inXY hy, hhalves, fun hk => hhalf (by rw [hk])⟩

/-- Settles O48: the move field passed the checks on two writes and on updates beside loads. -/
theorem decodedStatementsWriteOnce : Obligations.DecodedStatementsWriteOnce := by
  intro t i alu mv hdecode hf
  have hill := movesIllFormed_of_wf hf (decodedInstructionsAreWellFormed t i hdecode)
  obtain ⟨-, -, hapart, hupdate⟩ := (movesIllFormed_eq_none alu mv).1 hill
  refine ⟨hapart, fun e he hup d hd => ?_⟩
  have hk := hupdate e he hup d hd
  refine ⟨?_, ?_, ?_⟩ <;> rintro rfl <;> exact hk rfl

theorem ne_status_of_readable {q : Reg} (h : q.readable = true) : q ≠ .sr ∧ q ≠ .mr := by
  constructor <;> rintro rfl <;> cases h

theorem ne_pc_of_writable {d : Reg} (h : d.writable = true) : d ≠ .pc := by
  rintro rfl
  cases h

theorem srcs_dsts_of_fieldOf {i : Instr} {alu : List Reg} {mv : Moves} (hf : fieldOf i = some (alu, mv)) :
    srcsOf i = mv.srcs ∧ dstsOf i = mv.dsts := by
  cases i <;> cases hf <;> exact ⟨rfl, rfl⟩

/-- A well-formed instruction reads and writes only what moves may. -/
theorem regsIllFormed_of_wf {i : Instr} (h : i.wf = true) : regsIllFormed (srcsOf i) (dstsOf i) = none := by
  cases hf : fieldOf i with
  | some p =>
    obtain ⟨alu, mv⟩ := p
    obtain ⟨-, hregs, -⟩ := (movesIllFormed_eq_none alu mv).1 (movesIllFormed_of_wf hf h)
    obtain ⟨hsrcs, hdsts⟩ := srcs_dsts_of_fieldOf hf
    rwa [hsrcs, hdsts]
  | none =>
    cases i
    case movepReg | movepOut | doReg => exact Option.isNone_iff_eq_none.1 h
    case movepMem | lua | rep | doImm | jmp | ori => rfl
    all_goals cases hf

/-- Settles O49: the registers of every decoded instruction passed the check on them. -/
theorem decodedMovesLeaveStatusUnreadAndPcUnwritten : Obligations.DecodedMovesLeaveStatusUnreadAndPcUnwritten := by
  intro t i hdecode
  have hregs := regsIllFormed_of_wf (decodedInstructionsAreWellFormed t i hdecode)
  obtain ⟨hsrcs, hdsts⟩ := (regsIllFormed_eq_none _ _).1 hregs
  exact ⟨fun q hq => ne_status_of_readable (hsrcs q hq), fun d hd => ne_pc_of_writable (hdsts d hd)⟩

/-- Settles O50, by running the decoder on each text. -/
theorem listingStatementsDecode : Obligations.ListingStatementsDecode := by
  refine ⟨?_, ?_, ?_, ?_, ?_, ?_⟩ <;> decide

end Sys2Proof.Claims
end

section
/-! SUPPORT. The statements on modulo and reverse-carry arithmetic, and on how the modifier selects one. -/

namespace Sys2Proof.Claims

open Sys2Proof.Machine

/-! ### The modulo buffer (R92, R93) -/

theorem modulus_eq (m : Addr) : modulus m = m.toNat + 1 := rfl

theorem bufferUpper_eq (r m : Addr) : bufferUpper r m = bufferBase r m + m.toNat := rfl

/-- A modulo buffer: its length is less than its block's, its pointer is in the block, and the block in memory. -/
theorem buffer_bounds {r m : Addr} (h : isModulo m = true) :
    1 ≤ m.toNat ∧ m.toNat < blockSize m ∧ bufferBase r m ≤ r.toNat ∧ r.toNat < bufferBase r m + blockSize m ∧
      blockSize m ≤ 2 * m.toNat ∧ bufferBase r m + blockSize m ≤ 65536 := by
  obtain ⟨hpos, -⟩ := (isModulo_iff m).1 h
  obtain ⟨hfit, hblock⟩ := modulus_le_blockSize m (by omega)
  rw [modulus_eq] at hfit
  obtain ⟨hle, hlt⟩ := bufferBase_le r m
  exact ⟨hpos, hfit, hle, hlt, hblock, bufferBase_block_le r m h⟩

theorem blockBits_le_of_modulus_le {m : Addr} (h : isModulo m = true) {k : Nat} (hk : modulus m ≤ 2 ^ k) :
    blockBits m ≤ k := by
  obtain ⟨hpos, -⟩ := (isModulo_iff m).1 h
  rw [modulus_eq] at hk
  exact (Nat.log2_lt (by omega)).2 hk

/-- Settles O2: a block is the least power of two that the modulus fits in, and blocks tile the address space. -/
theorem blockIsLeastPowerOfTwo : Obligations.BlockIsLeastPowerOfTwo := by
  intro r m h
  obtain ⟨-, hfit, hle, hlt, -, htop⟩ := buffer_bounds (r := r) h
  refine ⟨hfit, fun k => blockBits_le_of_modulus_le h, Nat.mod_eq_zero_of_dvd (bufferBase_dvd r m), hle, hlt, ?_, ?_⟩
  · rw [bufferUpper_eq, modulus_eq]
    omega
  · rw [bufferUpper_eq]
    omega

/-! ### Steps round the buffer (R94) -/

/-- A modulo step with an offset within the modulus is a wrapping step. -/
theorem aguAdd_of_proper {r n m : Addr} {step : AguStep} (h : isModulo m = true) (hp : properStep step n m) :
    aguAdd r step n m = aguWrap r (signedStep step n) m := by
  rw [aguAdd_modulo r n m step h]
  unfold properStep at hp
  cases step with
  | plusOne | minusOne => rfl
  | plusN => exact if_pos (decide_eq_true hp)
  | minusN =>
    rw [signedStep, Int.natAbs_neg] at hp
    exact if_pos (decide_eq_true hp)

/-- The value is in the buffer of `r`, at the distance from the base that a step of `d` round it leads to. -/
def InBufferAfter (r m : Addr) (d : Int) (v : Addr) : Prop :=
  bufferBase r m ≤ v.toNat ∧ v.toNat ≤ bufferUpper r m ∧
    ((v.toNat : Int) - bufferBase r m) = ((r.toNat : Int) - bufferBase r m + d) % modulus m

/-- A number in the buffer that differs from the sum by whole turns. -/
theorem inBufferAfter_ofInt {r m : Addr} {d t turns : Int} (h : isModulo m = true) (hlow : bufferBase r m ≤ t)
    (hup : t ≤ bufferUpper r m) (ht : t = r.toNat + d + modulus m * turns) :
    InBufferAfter r m d (BitVec.ofInt 16 t) := by
  obtain ⟨-, hfit, -, -, -, htop⟩ := buffer_bounds (r := r) h
  rw [bufferUpper_eq] at hup
  have hv : ((BitVec.ofInt 16 t).toNat : Int) = t := by
    rw [BitVec.toNat_ofInt]
    omega
  have hdist : t - bufferBase r m = (r.toNat - bufferBase r m + d) + modulus m * turns := by omega
  have hmod : t - bufferBase r m = (t - bufferBase r m) % modulus m :=
    (Int.emod_eq_of_lt (by omega) (by rw [modulus_eq]; omega)).symm
  refine ⟨by omega, by rw [bufferUpper_eq]; omega, ?_⟩
  rw [hv, hmod, hdist, Int.add_mul_emod_self_left]

/-- A pointer in its buffer takes at most one turn to stay in it. -/
theorem aguWrap_in_buffer {r m : Addr} {d : Int} (h : isModulo m = true) (hr : r.toNat ≤ bufferUpper r m)
    (hd : d.natAbs ≤ modulus m) : ∃ v, aguWrap r d m = .value v ∧ InBufferAfter r m d v := by
  obtain ⟨-, -, hle, -, -, -⟩ := buffer_bounds (r := r) h
  have hu := bufferUpper_eq r m
  have hM := modulus_eq m
  rw [aguWrap, if_neg (by omega)]
  dsimp only
  by_cases habove : (bufferUpper r m : Int) < r.toNat + d
  · rw [if_pos habove]
    exact ⟨_, rfl, inBufferAfter_ofInt (turns := -1) h (by omega) (by omega) (by omega)⟩
  by_cases hbelow : (r.toNat : Int) + d < bufferBase r m
  · rw [if_neg habove, if_pos hbelow]
    exact ⟨_, rfl, inBufferAfter_ofInt (turns := 1) h (by omega) (by omega) (by omega)⟩
  · rw [if_neg habove, if_neg hbelow]
    exact ⟨_, rfl, inBufferAfter_ofInt (turns := 0) h (by omega) (by omega) (by omega)⟩

theorem aguWrap_up_from_gap {r m : Addr} {d : Int} (hr : bufferUpper r m < r.toNat) (hd : 0 ≤ d) :
    aguWrap r d m = .value (BitVec.ofInt 16 (r.toNat + d - modulus m)) := by
  rw [aguWrap, if_neg (by omega)]
  dsimp only
  rw [if_pos (by omega)]

theorem aguWrap_down_from_gap {r m : Addr} {d : Int} (hr : bufferUpper r m < r.toNat) (hd : d < 0) :
    aguWrap r d m = .draw := by
  rw [aguWrap, if_pos ⟨hr, hd⟩]

/-- Settles O3: a step within the modulus wraps at most once. -/
theorem moduloStepGoesRoundBuffer : Obligations.ModuloStepGoesRoundBuffer := by
  intro r n m step h hp
  rw [aguAdd_of_proper h hp]
  exact ⟨fun hr => aguWrap_in_buffer h hr hp, fun hr hd => aguWrap_up_from_gap hr hd⟩

/-- Settles O4: D8's draw. -/
theorem stepDownFromGapIsUnpredictable : Obligations.StepDownFromGapIsUnpredictable := by
  intro r n m step h hp hr hd
  rw [aguAdd_of_proper h hp]
  exact aguWrap_down_from_gap hr hd

/-! ### Offsets larger than the modulus (R97) -/

theorem isProperOffset_eq_false {n m : Addr} (h : modulus m < n.toInt.natAbs) : isProperOffset n m = false :=
  decide_eq_false (by omega)

/-- With an offset larger than the modulus only block jumps have a value. -/
theorem aguAdd_of_large {r n m : Addr} (h : isModulo m = true) (hn : modulus m < n.toInt.natAbs) :
    aguAdd r .plusN n m = (if isBlockJump n m then .value (r + n) else .draw) ∧
      aguAdd r .minusN n m = (if isBlockJump n m then .value (r - n) else .draw) := by
  simp [aguAdd_modulo r n m _ h, aguModulo, isProperOffset_eq_false hn]

theorem isBlockJump_iff {n m : Addr} (hn : modulus m < n.toInt.natAbs) :
    isBlockJump n m = true ↔ ∃ p : Nat, 0 < p ∧ n.toInt = p * blockSize m := by
  rw [isBlockJump, decide_eq_true_iff]
  constructor
  · rintro ⟨hlt, hmod⟩
    obtain ⟨p, hp⟩ := Int.dvd_of_emod_eq_zero hmod
    have hblock : (0 : Int) < blockSize m := by exact_mod_cast blockSize_pos m
    have hpos : 0 < p := (mul_pos_iff_of_pos_left hblock).1 (by omega)
    exact ⟨p.toNat, by omega, by rw [hp, Int.toNat_of_nonneg hpos.le, Int.mul_comm]⟩
  · rintro ⟨p, -, hp⟩
    have hnonneg : 0 ≤ n.toInt := by rw [hp]; positivity
    exact ⟨by omega, by rw [hp, Int.mul_emod_left]⟩

theorem eq_ofNat_of_toInt_eq {n : Addr} {k : Nat} (h : n.toInt = k) : n = BitVec.ofNat 16 k := by
  rw [← BitVec.ofInt_toInt (x := n), h, BitVec.ofInt_natCast]

/-- A block divides the address space, so a jump by whole blocks keeps the relative address, also where it wraps. -/
theorem jump_mod_blockSize {r n m : Addr} (h : isModulo m = true) (hn : blockSize m ∣ n.toNat) :
    (r + n).toNat % blockSize m = r.toNat % blockSize m ∧ (r - n).toNat % blockSize m = r.toNat % blockSize m := by
  have hspace := blockSize_dvd m h
  have hback : blockSize m ∣ 65536 - n.toNat := Nat.dvd_sub hspace hn
  rw [BitVec.toNat_add, BitVec.toNat_sub, Nat.mod_mod_of_dvd _ hspace, Nat.mod_mod_of_dvd _ hspace]
  refine ⟨?_, ?_⟩
  · rw [Nat.add_mod, Nat.mod_eq_zero_of_dvd hn, Nat.add_zero, Nat.mod_mod]
  · rw [Nat.add_mod, Nat.mod_eq_zero_of_dvd hback, Nat.zero_add, Nat.mod_mod]

/-- Settles O5: of the offsets larger than the modulus, the block jumps are the positive multiples of the block. -/
theorem largeOffsetJumpsBlocksOrIsUnpredictable : Obligations.LargeOffsetJumpsBlocksOrIsUnpredictable := by
  intro r n m h hn
  obtain ⟨hplus, hminus⟩ := aguAdd_of_large (r := r) h hn
  rw [hplus, hminus]
  refine ⟨fun p hpos hp => ?_, fun hnone => ?_⟩
  · have hoffset : n = BitVec.ofNat 16 (p * blockSize m) := eq_ofNat_of_toInt_eq (by rw [hp]; push_cast; rfl)
    have hdvd : blockSize m ∣ n.toNat := by
      rw [hoffset, BitVec.toNat_ofNat]
      exact (Nat.dvd_mod_iff (blockSize_dvd m h)).2 (Nat.dvd_mul_left _ _)
    rw [if_pos ((isBlockJump_iff hn).2 ⟨p, hpos, hp⟩), if_pos ((isBlockJump_iff hn).2 ⟨p, hpos, hp⟩), ← hoffset]
    exact ⟨rfl, rfl, jump_mod_blockSize h hdvd⟩
  · have hjump : ¬ isBlockJump n m = true := by
      rw [isBlockJump_iff hn]
      rintro ⟨p, hpos, hp⟩
      exact hnone p hpos hp
    rw [if_neg hjump, if_neg hjump]
    exact ⟨rfl, rfl⟩

/-! ### A whole turn (R100) -/

/-- A step of a whole modulus, up or down, brings a pointer in its buffer back. -/
theorem aguWrap_whole_turn {r m : Addr} {d turns : Int} (h : isModulo m = true) (hr : r.toNat ≤ bufferUpper r m)
    (hd : d.natAbs ≤ modulus m) (hturns : d = modulus m * turns) : aguWrap r d m = .value r := by
  obtain ⟨v, hv, -, -, hdist⟩ := aguWrap_in_buffer h hr hd
  obtain ⟨-, -, hle, -, -, -⟩ := buffer_bounds (r := r) h
  have hM := modulus_eq m
  have hu := bufferUpper_eq r m
  rw [hturns, Int.add_mul_emod_self_left, Int.emod_eq_of_lt (by omega) (by omega)] at hdist
  rw [hv, show v = r from BitVec.eq_of_toNat_eq (by omega)]

/-- Settles O6: a buffer of a whole power of two fills its block, so that no pointer stands above it. -/
theorem offsetOfWholePowerOfTwoBufferReturns : Obligations.OffsetOfWholePowerOfTwoBufferReturns := by
  intro r n m h hblock hn
  obtain ⟨-, -, -, hlt, -, -⟩ := buffer_bounds (r := r) h
  have hM := modulus_eq m
  have hr : r.toNat ≤ bufferUpper r m := by
    rw [bufferUpper_eq]
    omega
  have hup : (signedStep .plusN n).natAbs ≤ modulus m := by rw [signedStep, hn]; omega
  have hdown : (signedStep .minusN n).natAbs ≤ modulus m := by rw [signedStep, hn]; omega
  rw [aguAdd_of_proper h hup, aguAdd_of_proper h hdown]
  exact ⟨aguWrap_whole_turn (turns := 1) h hr hup (by rw [signedStep, hn]; omega),
    aguWrap_whole_turn (turns := -1) h hr hdown (by rw [signedStep, hn]; omega)⟩

end Sys2Proof.Claims
end

section
/-! SUPPORT. The statements on reverse-carry arithmetic, on how a modifier selects the arithmetic of a mode, and on the
modes' operand addresses. -/

namespace Sys2Proof.Claims

open Sys2Proof.Machine

/-! ### Reverse carry (R98) -/

/-- Reversing the low bits of a reversal gives the high bits in their order. -/
theorem reverse_setWidth_reverse {w j : Nat} (x : BitVec w) (hj : j ≤ w) :
    (x.reverse.setWidth j).reverse = x.extractLsb' (w - j) j := by
  ext i hi
  grind [BitVec.getMsbD_eq_getLsbD]

theorem reverse_twoPow {w j : Nat} (hj : 1 ≤ j) (hw : j ≤ w) :
    (BitVec.twoPow w (j - 1)).reverse = BitVec.twoPow w (w - j) := by
  ext i hi
  grind [BitVec.getMsbD_eq_getLsbD]

/-- Adding a power of two leaves the bits below it. -/
theorem setWidth_add_twoPow {w k : Nat} (x : BitVec w) (hk : k ≤ w) :
    (x + BitVec.twoPow w k).setWidth k = x.setWidth k := by
  apply BitVec.eq_of_toNat_eq
  simp [BitVec.toNat_add, BitVec.toNat_twoPow, Nat.mod_mod_of_dvd _ (Nat.pow_dvd_pow 2 hk)]

/-- Adding a power of two adds one to the bits from it on. -/
theorem extractLsb'_add_twoPow {k j : Nat} (x : BitVec (k + j)) :
    (x + BitVec.twoPow (k + j) k).extractLsb' k j = x.extractLsb' k j + 1#j := by
  apply BitVec.eq_of_toNat_eq
  simp only [BitVec.extractLsb'_toNat, BitVec.toNat_add, BitVec.toNat_twoPow, BitVec.toNat_ofNat,
    Nat.shiftRight_eq_div_pow, Nat.add_mod_mod, Nat.mod_add_mod]
  rw [Nat.pow_add, Nat.mod_mul_right_div_self, Nat.mod_mod, Nat.add_div_right _ (by positivity)]

/-- The bits from `j` on, as a number. -/
theorem toNat_extractLsb'_high {k j : Nat} (x : BitVec (k + j)) : (x.extractLsb' j k).toNat = x.toNat / 2 ^ j := by
  have hx : x.toNat < 2 ^ j * 2 ^ k := by
    rw [← Nat.pow_add, Nat.add_comm j k]
    exact x.isLt
  rw [BitVec.extractLsb'_toNat, Nat.shiftRight_eq_div_pow]
  exact Nat.mod_eq_of_lt (Nat.div_lt_of_lt_mul hx)

/-- Adding a power of two in reversal keeps the bits above it and adds one to the reversal of the bits up to it. -/
theorem reverse_add_twoPow {w k j : Nat} (hw : w = k + j) (r : BitVec w) :
    (r.reverse + BitVec.twoPow w k).reverse.toNat / 2 ^ j = r.toNat / 2 ^ j ∧
      ((r.reverse + BitVec.twoPow w k).reverse.setWidth j).reverse = (r.setWidth j).reverse + 1#j := by
  subst hw
  have high (x : BitVec (k + j)) : x.extractLsb' j k = (x.reverse.setWidth k).reverse := by
    rw [reverse_setWidth_reverse x (by omega), Nat.add_sub_cancel_left]
  have low (x : BitVec (k + j)) : (x.setWidth j).reverse = x.reverse.extractLsb' k j := by
    have h := reverse_setWidth_reverse x.reverse (j := j) (by omega)
    rwa [BitVec.reverse_reverse_eq, Nat.add_sub_cancel] at h
  constructor
  · rw [← toNat_extractLsb'_high, ← toNat_extractLsb'_high, high, high, BitVec.reverse_reverse_eq,
      setWidth_add_twoPow _ (by omega)]
  · rw [low, low, BitVec.reverse_reverse_eq, extractLsb'_add_twoPow]

/-- Settles O7: the offset `2 ^ (j - 1)` reversed is `2 ^ (16 - j)`, of which the addition changes the bits from
`16 - j` on only. -/
theorem reverseCarryStepsBitReversed : Obligations.ReverseCarryStepsBitReversed := by
  intro r j hj1 hj16
  have hn : (BitVec.ofNat 16 (2 ^ (j - 1))).reverse = BitVec.twoPow 16 (16 - j) := by
    rw [← reverse_twoPow hj1 hj16]
    congr 1
    exact BitVec.eq_of_toNat_eq (by simp [BitVec.toNat_twoPow])
  refine ⟨_, aguAdd_reverse r _ 0 .plusN rfl, ?_⟩
  rw [aguReverse, hn]
  exact reverse_add_twoPow (by omega) r

/-! ### The modifier selects the arithmetic (R90) -/

/-- A mode that computes makes its step in the arithmetic of `AguAdd`; the sum of `(Rn+Nn)` under reverse carry is a
parameter (U4). -/
theorem aguFor_of_modeStep {s : State} {k : AguNum} {mode : Mode} {step : AguStep} (h : modeStep mode = some step) :
    s.aguFor ⟨mode, k⟩ = some (if mode = .indexed ∧ (s.M k).toNat = 0 then
      .value (Config.revCarryOther (s.R k) .plusN (s.N k)) else aguAdd (s.R k) step (s.N k) (s.M k)) := by
  cases mode <;> cases h
  case indexed => simp [State.aguFor, modeArith, aguIndexed, isReverse_iff]
  all_goals rfl

/-- Settles O8: the four ranges of the modifier. -/
theorem modifierSelectsOneArithmetic : Obligations.ModifierSelectsOneArithmetic := by
  intro s k mode step hstep
  rw [aguFor_of_modeStep hstep]
  refine ⟨fun h => ?linear, fun h1 h2 => ⟨?modulo, rfl⟩, fun h => ?reverse, fun h1 h2 => ?reserved⟩
  case linear => rw [if_neg (by omega), aguAdd_linear _ _ _ _ h]
  case modulo => rw [if_neg (by omega), aguAdd_modulo _ _ _ _ ((isModulo_iff _).2 ⟨h1, h2⟩)]
  case reverse =>
    rw [aguAdd_reverse _ _ _ _ h]
    by_cases hm : mode = .indexed <;> simp [hm, h]
  case reserved => rw [if_neg (by omega), aguAdd_reserved _ _ _ _ ((isReserved_iff _).2 ⟨h1, h2⟩)]

/-- Settles O9, by evaluation. -/
theorem workedExamplesOfAddressArithmetic : Obligations.WorkedExamplesOfAddressArithmetic := by
  refine ⟨?_, ?_, ?_, ?_, ?_⟩ <;> decide

/-! ### Operand addresses (R72 to R78) -/

/-- The steps of one do not read the offset register. -/
theorem aguAdd_one_congr (r n n' m : Addr) :
    aguAdd r .plusOne n m = aguAdd r .plusOne n' m ∧ aguAdd r .minusOne n m = aguAdd r .minusOne n' m := by
  constructor <;> rfl

theorem aguIndexed_of_ne_zero {r n m : Addr} (h : m ≠ 0) : aguIndexed r n m = aguAdd r .plusN n m :=
  if_neg fun hr => h (eq_of_beq hr)

theorem eaAddr_of_value {s : State} {sp : Space} {e : Ea} {v : Addr} (he : e.mode = .indexed ∨ e.mode = .preDec)
    (hv : s.aguFor e = some (.value v)) : s.eaAddr sp e = v := by
  rw [← aguValue_of_value (sp := sp) hv]
  obtain ⟨mode, k⟩ := e
  rcases he with rfl | rfl <;> rfl

/-- Settles O10: each mode's address and arithmetic are the cases of their definitions. -/
theorem modesGiveOperandAddress : Obligations.ModesGiveOperandAddress := by
  intro s sp k v
  refine ⟨rfl, rfl, rfl, rfl, rfl, fun hm hv => eaAddr_of_value (.inl rfl) ?_, fun n => aguAdd_one_congr _ n _ _,
    fun hv => eaAddr_of_value (.inr rfl) ?_, rfl, rfl, rfl, rfl, rfl⟩
  · rw [← hv, ← aguIndexed_of_ne_zero hm]
    rfl
  · rw [← hv]
    rfl

end Sys2Proof.Claims
end

section
/-! SUPPORT. When the modes and the accesses of an instruction stop it, said once for every instruction, and the
statements that follow. -/

namespace Sys2Proof.Claims

open Sys2Proof.Machine

/-! ### A mode that stops stops its instruction -/

theorem easOf_of_fieldOf {i : Instr} {alu : List Reg} {mv : Moves} (hf : fieldOf i = some (alu, mv)) :
    easOf i = mv.eas := by
  cases i <;> cases hf <;> rfl

theorem eaUsable_of_movesUsable {s : State} {mv : Moves} (h : MovesUsable s mv) : ∀ e ∈ mv.eas, EaUsable s e := by
  cases mv with
  | none | i _ _ | r _ _ => simp [Moves.eas]
  | u e => simpa [Moves.eas, MovesUsable] using h
  | x mm | y mm => simpa [Moves.eas] using h.1
  | xy mx my =>
    obtain ⟨hx, hy⟩ := h
    simpa [Moves.eas] using ⟨hx.1, hy.1⟩
  | ry src d my => simpa [Moves.eas] using h.1

theorem movesUsable_of_exec {i : Instr} {s t : State} {alu : List Reg} {mv : Moves}
    (hf : fieldOf i = some (alu, mv)) (h : exec i s = .next t) : MovesUsable s mv := by
  rw [exec_of_fieldOf hf] at h
  exact (s.movesStop_eq_none mv).1 ((outcome_eq_next _ _ _).1 h).1

/-- Every mode of an instruction that completes is usable. -/
theorem eaUsable_of_exec {i : Instr} {s t : State} (h : exec i s = .next t) : ∀ e ∈ easOf i, EaUsable s e := by
  cases hf : fieldOf i with
  | some p =>
    rw [easOf_of_fieldOf hf]
    exact eaUsable_of_movesUsable (movesUsable_of_exec hf h)
  | none =>
    cases i with
    | movepMem pp e =>
      obtain ⟨hstop, -⟩ := (outcome_eq_next _ _ _).1 h
      have hea := ((firstHalt_eq_none _ _).1 hstop).2
      cases hs : s.eaStops e with
      | some f => simp [hs] at hea
      | none => simpa [easOf] using (s.eaStops_eq_none e).1 hs
    | lua e d =>
      obtain ⟨hstop, -⟩ := (outcome_eq_next _ _ _).1 h
      simpa [easOf] using (s.eaStops_eq_none e).1 (Option.map_eq_none_iff.1 hstop)
    | movepReg _ _ | movepOut _ _ | rep _ | doImm _ _ | doReg _ _ | jmp _ | ori _ => simp [easOf]
    | _ => cases hf

theorem exec_ne_next_of_eaStops {i : Instr} {s : State} {e : Ea} {f : Refusal} (he : e ∈ easOf i)
    (hs : s.eaStops e = some f) (t : State) : exec i s ≠ .next t := by
  intro h
  rw [(s.eaStops_eq_none e).2 (eaUsable_of_exec h e he)] at hs
  cases hs

theorem memMoveStops_of_eaStops {s : State} {sp : Space} {mm : MemMove} {f : Refusal}
    (hs : s.eaStops mm.ea = some f) : s.memMoveStops sp mm = some (.refuse f) := by
  simp [State.memMoveStops, hs]

theorem movesStop_of_eaStops {s : State} {mv : Moves} {e : Ea} {f : Refusal} (he : mv.eas = [e])
    (hs : s.eaStops e = some f) : s.movesStop mv = some (.refuse f) := by
  cases mv with
  | none | i _ _ | r _ _ | xy _ _ => simp [Moves.eas] at he
  | u e' =>
    cases he
    simp [State.movesStop, hs]
  | x mm | y mm | ry _ _ mm =>
    cases he
    exact memMoveStops_of_eaStops hs

/-- An instruction whose only mode stops is refused with that mode's reason. -/
theorem exec_refused_of_eaStops {i : Instr} {s : State} {e : Ea} {f : Refusal} (he : easOf i = [e])
    (hs : s.eaStops e = some f) (hm : ∀ pp, i = .movepMem pp e → MovepUsable s pp) : exec i s = .refused f := by
  cases hf : fieldOf i with
  | some p =>
    rw [easOf_of_fieldOf hf] at he
    rw [exec_of_fieldOf hf, movesStop_of_eaStops he hs]
    rfl
  | none =>
    cases i with
    | movepMem pp e' =>
      cases he
      have hpp := (s.movepStops_eq_none pp).2 (hm pp rfl)
      simp [exec, execMovepMem, hpp, firstHalt, hs, outcome]
    | lua e' d =>
      cases he
      simp [exec, execLua, hs, outcome]
    | movepReg _ _ | movepOut _ _ | rep _ | doImm _ _ | doReg _ _ | jmp _ | ori _ => cases he
    | _ => cases hf

/-! ### Why a mode stops -/

theorem eaStops_of_written {s : State} {e : Ea} (h : e.k ∈ s.aguWritten) : s.eaStops e = some .aguWriteThenUse := by
  simp [State.eaStops, h]

theorem eaStops_of_aguFor {s : State} {e : Ea} {g : AguResult} (hk : e.k ∉ s.aguWritten) (hg : s.aguFor e = some g) :
    s.eaStops e = aguStops e.mode g := by
  simp [State.eaStops, hk, hg]

theorem aguFor_of_reserved {s : State} {e : Ea} (h : isReserved (s.M e.k) = true) (hmode : e.mode ≠ .noUpdate) :
    s.aguFor e = some .reserved := by
  obtain ⟨mode, k⟩ := e
  cases mode
  case noUpdate => exact absurd rfl hmode
  case indexed => exact congrArg some ((aguIndexed_eq_reserved_iff _ _ _).2 h)
  all_goals exact congrArg some (aguAdd_reserved _ _ _ _ h)

theorem aguFor_of_draw {s : State} {k : AguNum} (h : aguAdd (s.R k) .plusN (s.N k) (s.M k) = .draw) :
    s.aguFor ⟨.indexed, k⟩ = some .draw :=
  congrArg some ((aguIndexed_eq_draw_iff _ _ _).2 h)

/-- A stop of a mode that does not depend on what the statement before wrote is one in any case: where the number was
written, that is the stop. -/
theorem exists_eaStops_of_aguFor {s : State} {e : Ea} {g : AguResult} (hg : s.aguFor e = some g)
    (hstop : aguStops e.mode g ≠ none) : ∃ f, s.eaStops e = some f := by
  by_cases hk : e.k ∈ s.aguWritten
  · exact ⟨_, eaStops_of_written hk⟩
  · rw [eaStops_of_aguFor hk hg]
    exact Option.ne_none_iff_exists'.1 hstop

/-- Settles O14: the hazard is the first stop of every mode. -/
theorem useAfterAguWriteIsRefused : Obligations.UseAfterAguWriteIsRefused := by
  intro s e i he hk
  have hs := eaStops_of_written hk
  exact ⟨exec_ne_next_of_eaStops he hs, fun hone hm => exec_refused_of_eaStops hone hs hm⟩

theorem memInstr_field (sp : Space) (mm : MemMove) : fieldOf (memInstr sp mm) = some ([], memField sp mm) := by
  cases sp <;> rfl

theorem movesUsable_memField {s : State} {sp : Space} {mm : MemMove} :
    MovesUsable s (memField sp mm) ↔ MemMoveUsable s sp mm := by
  cases sp <;> rfl

theorem movesEffect_memField {s t : State} {sp : Space} {mm : MemMove} :
    MovesEffect s t (memField sp mm) ↔ MemMoveEffect s t sp mm := by
  cases sp <;> rfl

/-- Mode `(Rn)` computes nothing, so only the hazard can stop it. -/
theorem eaUsable_of_noUpdate {s : State} {e : Ea} (hmode : e.mode = .noUpdate) (hk : e.k ∉ s.aguWritten) :
    EaUsable s e :=
  ⟨hk, fun h => absurd hmode h, fun h => by simp [hmode] at h⟩

theorem eaAddr_of_noUpdate {s : State} {sp : Space} {e : Ea} (hmode : e.mode = .noUpdate) :
    s.eaAddr sp e = s.R e.k := by
  simp [State.eaAddr, hmode]

/-- A move of an integer leaves it, modulo 65536, in a modifier register. -/
theorem exec_moveI_M (s : State) (k : AguNum) (v : Int) :
    ∃ t, exec (.moveI (.int v) (.m k)) s = .next t ∧ t.M k = BitVec.ofInt 16 v := by
  refine ⟨_, exec_eq_next_of_fieldOf (alu := []) (mv := .i (.int v) (.m k)) rfl trivial, ?_⟩
  have heffect : MovesEffect s (fieldNext s (.moveI (.int v) (.m k)) (.i (.int v) (.m k))) (.i (.int v) (.m k)) :=
    movesEffect_of_wf (alu := []) rfl rfl
  simpa [MovesEffect, State.read, received, immValue] using heffect

/-- Settles O13: a reserved modifier stops every mode that computes, and no other. -/
theorem reservedModifierIsRefused : Obligations.ReservedModifierIsRefused := by
  intro s e hreserved
  refine ⟨fun i he hmode => ?_, fun sp d hmode hk hmem => ?_, fun k v hlow hup => ?_⟩
  · have hg := aguFor_of_reserved hreserved hmode
    obtain ⟨f, hf⟩ := exists_eaStops_of_aguFor hg (by simp [aguStops])
    exact ⟨exec_ne_next_of_eaStops he hf,
      fun hone hk hm => exec_refused_of_eaStops hone (eaStops_of_aguFor hk hg) hm⟩
  · refine ⟨_, exec_eq_next_of_fieldOf (memInstr_field sp _) (movesUsable_memField.2 ?_)⟩
    exact ⟨eaUsable_of_noUpdate hmode hk, (eaAddr_of_noUpdate (sp := sp) hmode).symm ▸ hmem⟩
  · obtain ⟨t, ht, hM⟩ := exec_moveI_M s k v
    refine ⟨t, ht, ?_⟩
    rw [hM, BitVec.ofInt_natCast, BitVec.toNat_ofNat]
    omega

/-- Settles O16: the sum of `(Rn+Nn)` that is a draw stops its mode. -/
theorem unpredictableIndexIsRefused : Obligations.UnpredictableIndexIsRefused := by
  intro s k
  refine ⟨fun hmodulo hcases => ?_, fun hdraw i he => ?_⟩
  · rcases hcases with ⟨hlarge, hjump⟩ | ⟨hproper, hgap, hneg⟩
    · have hjump' : ¬ isBlockJump (s.N k) (s.M k) = true := by
        rw [isBlockJump, decide_eq_true_iff]
        rintro ⟨hpos, hmod⟩
        exact hjump ⟨by omega, hmod⟩
      rw [(aguAdd_of_large hmodulo hlarge).1, if_neg hjump']
    · exact stepDownFromGapIsUnpredictable _ _ _ .plusN hmodulo hproper hgap hneg
  · have hg := aguFor_of_draw hdraw
    obtain ⟨f, hf⟩ := exists_eaStops_of_aguFor hg (by simp [aguStops])
    exact ⟨exec_ne_next_of_eaStops he hf,
      fun hone hk hm => exec_refused_of_eaStops hone (eaStops_of_aguFor hk hg) hm⟩

/-! ### Accesses that stop -/

/-- Why an access of an ordinary move stops, its mode aside (D26, R114). -/
def memoryStops (s : State) (p : Space × Addr) : Option Halt :=
  if s.isPeriph p.1 p.2 then some (.refuse .peripheralMove) else (s.accessStops p.1 p.2).map .fault

theorem memMoveStops_of_eaUsable {s : State} {sp : Space} {mm : MemMove} (h : EaUsable s mm.ea) :
    s.memMoveStops sp mm = memoryStops s (sp, s.eaAddr sp mm.ea) := by
  rw [State.memMoveStops, (s.eaStops_eq_none _).2 h]
  rfl

/-- Where the modes run, a move field stops at the first of its accesses that stops. -/
theorem movesStop_of_easUsable {s : State} {mv : Moves} (h : ∀ e ∈ mv.eas, EaUsable s e) :
    s.movesStop mv = (accessed s mv).findSome? (memoryStops s) := by
  cases mv with
  | none | i _ _ | r _ _ => rfl
  | u e =>
    have he : s.eaStops e = none := (s.eaStops_eq_none e).2 (h e (by simp [Moves.eas]))
    simp [State.movesStop, he, accessed]
  | x mm | y mm | ry _ _ mm =>
    have hm := h mm.ea (by simp [Moves.eas])
    rw [State.movesStop, memMoveStops_of_eaUsable hm, accessed, List.findSome?_singleton]
  | xy mx my =>
    have hx := h mx.ea (by simp [Moves.eas])
    have hy := h my.ea (by simp [Moves.eas])
    rw [State.movesStop, memMoveStops_of_eaUsable hx, memMoveStops_of_eaUsable hy, accessed, List.findSome?_cons,
      List.findSome?_singleton]
    cases memoryStops s (.x, s.eaAddr .x mx.ea) <;> rfl

theorem accessStops_of_not_usable {s : State} {sp : Space} {a : Addr} (h : ¬ AccessUsable s sp a) :
    s.accessStops sp a = some (.unallocated sp a) := by
  rw [← State.accessStops_eq_none] at h
  unfold State.accessStops at h ⊢
  split <;> simp_all

theorem memoryStops_eq_none {s : State} {p : Space × Addr} : memoryStops s p = none ↔ MemoryUsable s p.1 p.2 := by
  unfold memoryStops MemoryUsable
  cases hp : s.isPeriph p.1 p.2 <;> simp [State.accessStops_eq_none, AccessUsable, hp]

/-- If one of the accesses stops, the move field stops with the stop of one of them. -/
theorem exists_movesStop_of_memoryStops {s : State} {mv : Moves} (h : ∀ e ∈ mv.eas, EaUsable s e)
    {p : Space × Addr} (hp : p ∈ accessed s mv) (hstop : memoryStops s p ≠ none) :
    ∃ q ∈ accessed s mv, ∃ x, memoryStops s q = some x ∧ s.movesStop mv = some x := by
  rw [movesStop_of_easUsable h]
  cases hfind : (accessed s mv).findSome? (memoryStops s) with
  | none => exact absurd (List.findSome?_eq_none_iff.1 hfind p hp) hstop
  | some x =>
    obtain ⟨q, hq, hx⟩ := List.exists_of_findSome?_eq_some hfind
    exact ⟨q, hq, x, hx, rfl⟩

theorem accessesOf_of_fieldOf {s : State} {i : Instr} {alu : List Reg} {mv : Moves}
    (hf : fieldOf i = some (alu, mv)) : accessesOf s i = accessed s mv := by
  simp [accessesOf, hf]

theorem mnemonic_of_fieldOf {i : Instr} {alu : List Reg} {mv : Moves} (hf : fieldOf i = some (alu, mv)) :
    i.mnemonic ≠ .movep := by
  cases i <;> cases hf <;> simp [Instr.mnemonic]

/-- Settles O21: past the modes, MOVEP's own conditions and device registers only the accesses can stop. -/
theorem unallocatedAccessIsStuck : Obligations.UnallocatedAccessIsStuck := by
  intro s i heas hmovep hdevice ⟨p, hp, hbad⟩
  cases hf : fieldOf i with
  | some field =>
    obtain ⟨alu, mv⟩ := field
    rw [accessesOf_of_fieldOf hf] at hp hdevice ⊢
    rw [easOf_of_fieldOf hf] at heas
    have hstop : memoryStops s p ≠ none := fun h => hbad (.inr (memoryStops_eq_none.1 h).2)
    obtain ⟨q, hq, x, hx, hmv⟩ := exists_movesStop_of_memoryStops heas hp hstop
    have hmemory : ¬ s.isPeriph q.1 q.2 = true := fun h => mnemonic_of_fieldOf hf (hdevice q hq h)
    have hbad' : ¬ AccessUsable s q.1 q.2 := by
      rintro (h | h)
      · exact hmemory h
      · rw [memoryStops_eq_none.2 ⟨by simpa using hmemory, h⟩] at hx
        cases hx
    rw [memoryStops, if_neg hmemory, accessStops_of_not_usable hbad'] at hx
    cases hx
    exact ⟨q, hq, hbad', by rw [exec_of_fieldOf hf, hmv]; rfl⟩
  | none =>
    cases i with
    | movepMem pp e =>
      have hpp := (s.movepStops_eq_none pp).2 (hmovep pp e rfl)
      have hea := (s.eaStops_eq_none e).2 (heas e (by simp [easOf]))
      refine ⟨p, hp, hbad, ?_⟩
      rw [show p = (.x, s.eaAddr .x e) by simpa [accessesOf, fieldOf] using hp] at hbad ⊢
      simp [exec, execMovepMem, hpp, firstHalt, hea, accessStops_of_not_usable hbad, outcome]
    | movepReg _ _ | movepOut _ _ | lua _ _ | rep _ | doImm _ _ | doReg _ _ | jmp _ | ori _ => cases hp
    | _ => cases hf

theorem memoryUsable_of_movesUsable {s : State} {mv : Moves} (h : MovesUsable s mv) :
    ∀ p ∈ accessed s mv, MemoryUsable s p.1 p.2 := by
  have heas := eaUsable_of_movesUsable h
  rw [← State.movesStop_eq_none, movesStop_of_easUsable heas, List.findSome?_eq_none_iff] at h
  exact fun p hp => memoryStops_eq_none.1 (h p hp)

/-- Settles O22: the access at a device register is not one of memory, and where all could be made it is the stop. -/
theorem ordinaryMovesLeaveDevicesAlone : Obligations.OrdinaryMovesLeaveDevicesAlone := by
  intro s i alu mv sp a hf hin hdevice
  refine ⟨fun t ht => ?_, fun heas husable => ?_⟩
  · have hmem := memoryUsable_of_movesUsable (movesUsable_of_exec hf ht) _ hin
    rw [hmem.1] at hdevice
    cases hdevice
  · have hstop : memoryStops s (sp, a) ≠ none := by simp [memoryStops, hdevice]
    obtain ⟨q, hq, x, hx, hmv⟩ := exists_movesStop_of_memoryStops heas hin hstop
    rw [memoryStops, (s.accessStops_eq_none _ _).2 (husable q hq), Option.map_none,
      Option.ite_none_right_eq_some] at hx
    rw [exec_of_fieldOf hf, hmv, ← Option.some.inj hx.2]
    rfl

/-! ### The AGU numbers held against the next statement (R165) -/

theorem mem_aguNums {k : AguNum} {ds : List Reg} :
    k ∈ Machine.aguNums ds ↔ ∃ d ∈ ds, d = .r k ∨ d = .n k ∨ d = .m k := by
  have hnum (d : Reg) : d.aguNum = some k ↔ d = .r k ∨ d = .n k ∨ d = .m k := by cases d <;> simp [Reg.aguNum]
  simp [Machine.aguNums, hnum]

theorem mem_aguWritesOf {i : Instr} {k : AguNum} :
    k ∈ aguWritesOf i ↔ (∃ d ∈ dstsOf i, d = .r k ∨ d = .n k ∨ d = .m k) ∨ ∃ e, i = .lua e k := by
  cases i
  case lua e d => simp [aguWritesOf, dstsOf, eq_comm]
  case moveU | movepMem | movepOut | rep | doImm | doReg | jmp | ori => simp [aguWritesOf, dstsOf]
  all_goals simp [aguWritesOf, dstsOf, mem_aguNums]

/-- Settles O15: an instruction that completes leaves its own set. -/
theorem aguWritesAreRemembered : Obligations.AguWritesAreRemembered := by
  intro i s t h k
  have hw : t.aguWritten = aguWritesOf i := by
    cases hws : writesOf s i with
    | some ws =>
      obtain ⟨-, -, -, -, hagu, -⟩ := s.retire_fields ws (aguWritesOf i)
      rw [exec_eq_retire i s t ws h hws, hagu]
    | none =>
      obtain ⟨loops, rep, pc, sr, rfl, -⟩ := exec_control i s t h hws
      cases i
      case rep | doImm | doReg | jmp => rfl
      all_goals simp [writesOf] at hws
  rw [hw, mem_aguWritesOf]

end Sys2Proof.Claims
end

section
/-! SUPPORT. The statements on MOVE: each follows from what a well-formed statement with a move field does. -/

namespace Sys2Proof.Claims

open Sys2Proof.Machine

/-! ### Reading a field of the state after a statement -/

theorem mul_of_read {t : State} {q : MulReg} {v : Word} (h : t.read (.mul q) = .bits .word v) : t.mul q = v := by
  simpa [State.read] using h

theorem acc_retire (s : State) (ws : List Write) (w : List AguNum) (d : AccName) :
    (s.retire ws w).acc d = (s.commit ws).acc d := by
  simpa [State.read] using s.read_retire ws w (.acc d) (by simp)

theorem R_of_frame {s t : State} {regs : List Reg} {cells : List (Space × Addr)} (h : Frame s t regs cells)
    {k : AguNum} (hk : ∀ d ∈ regs, (Reg.r k).overlaps d = false) : t.R k = s.R k := by
  obtain ⟨hread, -⟩ := h
  simpa [State.read] using hread (.r k) (by simp) hk

theorem sr_of_frame {s t : State} {regs : List Reg} {cells : List (Space × Addr)} (h : Frame s t regs cells)
    (hsr : ∀ d ∈ regs, Reg.sr.overlaps d = false) : t.sr = s.sr := by
  obtain ⟨hread, -⟩ := h
  simpa [State.read] using hread .sr (by simp) hsr

theorem mem_updated {e : Ea} {d : Reg} (h : d ∈ updated e) : d = .r e.k := by
  unfold updated at h
  split at h <;> simp_all

/-! ### The modes alone (R78, R79) -/

theorem aguAdd_value_not_reserved {r n m v : Addr} {step : AguStep} (h : aguAdd r step n m = .value v) :
    isReserved m = false := by
  rw [← Bool.not_eq_true, ← aguAdd_eq_reserved_iff r n m step, h]
  simp

/-- Settles O11: the mode's value is its operand address and its update. -/
theorem predecrementUsesNewPointer : Obligations.PredecrementUsesNewPointer := by
  intro s sp k d v hv hwf hk hmem
  have hf := memInstr_field sp (.load ⟨.preDec, k⟩ d)
  have hagu : s.aguFor ⟨.preDec, k⟩ = some (.value v) := congrArg some hv
  have haddr : s.eaAddr sp ⟨.preDec, k⟩ = v := eaAddr_of_value (.inr rfl) hagu
  have hea : EaUsable s ⟨.preDec, k⟩ := ⟨hk, fun _ => aguAdd_value_not_reserved hv, fun h => by cases h⟩
  have husable : MemMoveUsable s sp (.load ⟨.preDec, k⟩ d) := ⟨hea, haddr.symm ▸ hmem⟩
  obtain ⟨hread, hptr⟩ := movesEffect_memField.1 (movesEffect_of_wf (s := s) hf hwf)
  refine ⟨_, exec_eq_next_of_fieldOf hf (movesUsable_memField.2 husable), hptr rfl v hagu, ?_⟩
  rw [hread, haddr]

theorem standsAlone_iff_mem (mode : Mode) :
    mode.standsAlone = true ↔ mode ∈ [Mode.postInc, .postDec, .postIncN, .postDecN] := by
  cases mode <;> decide

theorem updates_of_standsAlone {mode : Mode} (h : mode.standsAlone = true) : mode.updates = true := by
  cases mode
  case noUpdate | indexed | preDec => cases h
  all_goals rfl

theorem apart_of_fieldOf {i : Instr} {alu : List Reg} {mv : Moves} (hf : fieldOf i = some (alu, mv)) : Apart alu := by
  rw [← clash_eq_false]
  cases i <;> cases hf <;> rfl

/-- A mode alone in the move field writes no register that a move names, so that only the mode can be wrong. -/
theorem wf_update_iff {i : Instr} {alu : List Reg} {e : Ea} (hf : fieldOf i = some (alu, .u e)) :
    i.wf = true ↔ e.mode.standsAlone = true := by
  rw [Instr.wf, illFormed_of_fieldOf hf, Option.isNone_iff_eq_none, movesIllFormed_eq_none]
  simp [Moves.modesIllFormed, regsIllFormed, Moves.srcs, Moves.dsts, apart_of_fieldOf hf]

theorem overlaps_r_of_aluDst {i : Instr} {alu : List Reg} {mv : Moves} (hf : fieldOf i = some (alu, mv)) {d : Reg}
    (hd : d ∈ alu) (k : AguNum) : (Reg.r k).overlaps d = false := by
  rw [Reg.overlaps_symm]
  exact overlaps_r d k (by simp [aguNum_of_fieldOf hf d hd])

/-- Settles O12: the update is the move field's only effect. -/
theorem updateOnlyMoveStepsPointer : Obligations.UpdateOnlyMoveStepsPointer := by
  intro s i alu e hf
  refine ⟨(wf_update_iff hf).trans (standsAlone_iff_mem _), fun hwf hu => ?_⟩
  have hframe := frame_of_fieldOf (s := s) hf
  have heffect : PtrEffect s (fieldNext s i (.u e)) e := movesEffect_of_wf hf hwf
  refine ⟨_, exec_eq_next_of_fieldOf hf hu, heffect (updates_of_standsAlone ((wf_update_iff hf).1 hwf)),
    fun k hk => R_of_frame hframe ?_, fun sp a => ?_, events_of_fieldOf hf, ?_⟩
  · intro d hd
    rcases List.mem_append.1 hd with hd | hd
    · exact overlaps_r_of_aluDst hf hd k
    · obtain rfl : d = .r e.k := mem_updated (by simpa [touched, Moves.dsts, Moves.eas] using hd)
      exact overlaps_r _ _ (by simpa [Reg.aguNum] using hk)
  · obtain ⟨-, -, hpeek, -⟩ := hframe
    exact hpeek sp a (by simp [stored])
  · rintro rfl
    exact moveEffect_of_wf rfl hwf

/-! ### MOVE (R112 to R114) -/

theorem ofInt_emod (i : Int) : BitVec.ofInt 16 (i % 65536) = BitVec.ofInt 16 i := by
  apply BitVec.eq_of_toNat_eq
  simp [BitVec.toNat_ofInt]

/-- Settles O17: an immediate needs no mode and no access. -/
theorem moveImmediateWritesDestination : Obligations.MoveImmediateWritesDestination := by
  intro s v d hwf
  have heffect : MoveEffect s (fieldNext s (.moveI v d) (.i v d)) (.i v d) := moveEffect_of_wf rfl hwf
  refine ⟨_, exec_eq_next_of_fieldOf (alu := []) (mv := .i v d) rfl trivial, heffect, ?_⟩
  obtain ⟨hread, -⟩ := heffect
  rintro i k rfl hd
  rw [ofInt_emod, hread]
  rcases hd with rfl | rfl | rfl <;> rfl

/-- A register of known width holds bits of that width. -/
theorem read_of_width {s : State} {q : Reg} {n : Nat} (h : width q = some n) :
    ∃ (w : Width) (v : BitVec w.bits), s.read q = .bits w v ∧ w.bits = n := by
  cases q <;> cases h <;> exact ⟨_, _, rfl, rfl⟩

/-- Bits enter a register of known width as `toBits` gives them. -/
theorem received_of_width {src : Place} {d : Reg} {n : Nat} (h : width d = some n) (hd : d.writable = true)
    {u : Width} (v : BitVec u.bits) :
    ∃ w : Width, received src d (.bits u v) = .bits w (toBits w src (.reg d) (.bits u v)) ∧ w.bits = n := by
  cases d <;> cases h
  case pc => cases hd
  all_goals exact ⟨_, rfl, rfl⟩

theorem eq_acc_of_width {q : Reg} (h : width q = none) : ∃ d, q = .acc d := by
  cases q <;> cases h
  exact ⟨_, rfl⟩

/-- A transfer between registers of one width keeps the bits (R112). -/
theorem sameBits_received {s : State} {src d : Reg} (hd : d.writable = true) (h : width src = width d) :
    sameBits (received (.reg src) d (s.read src)) (s.read src) := by
  cases hw : width d with
  | none =>
    obtain ⟨c, rfl⟩ := eq_acc_of_width hw
    obtain ⟨c', rfl⟩ := eq_acc_of_width (h.trans hw)
    rfl
  | some n =>
    obtain ⟨u, v, hread, hu⟩ := read_of_width (s := s) (h.trans hw)
    obtain ⟨w, hrec, hwn⟩ := received_of_width (src := .reg src) hw hd v
    rw [hread, hrec]
    exact toBits_toNat u w _ _ v (hu.trans hwn.symm)

/-- Settles O18: a register move needs no mode and no access. -/
theorem moveRegisterTransfers : Obligations.MoveRegisterTransfers := by
  intro s src d hwf
  have heffect : MoveEffect s (fieldNext s (.moveR src d) (.r src d)) (.r src d) := moveEffect_of_wf rfl hwf
  obtain ⟨-, hregs, -, -⟩ := (movesIllFormed_eq_none [] _).1 (movesIllFormed_of_wf (mv := .r src d) rfl hwf)
  have hd : d.writable = true := ((regsIllFormed_eq_none _ _).1 hregs).2 d (by simp [Moves.dsts])
  refine ⟨_, exec_eq_next_of_fieldOf (alu := []) (mv := .r src d) rfl trivial, heffect, fun hwidth => ?_⟩
  obtain ⟨hread, -⟩ := heffect
  rw [hread]
  exact sameBits_received hd hwidth

/-- Settles O19: in both spaces, MOVE with one memory operand makes its move. -/
theorem memoryMoveTransfersWord : Obligations.MemoryMoveTransfersWord := by
  intro s mm
  exact ⟨fun hwf hu => ⟨_, exec_eq_next_of_fieldOf (mv := .x mm) rfl hu, moveEffect_of_wf rfl hwf⟩,
    fun hwf hu => ⟨_, exec_eq_next_of_fieldOf (mv := .y mm) rfl hu, moveEffect_of_wf rfl hwf⟩⟩

theorem exec_eq_next_iff_of_fieldOf {i : Instr} {s t : State} {alu : List Reg} {mv : Moves}
    (hf : fieldOf i = some (alu, mv)) : exec i s = .next t ↔ MovesUsable s mv ∧ fieldNext s i mv = t := by
  rw [exec_of_fieldOf hf, outcome_eq_next, State.movesStop_eq_none]

/-- Which addresses may be used is the launch's matter. -/
theorem memoryUsable_congr {s t : State} (h : t.launch = s.launch) (sp : Space) (a : Addr) :
    MemoryUsable t sp a ↔ MemoryUsable s sp a := by
  simp only [MemoryUsable, State.isPeriph, State.isRam, h]

/-- Settles O23: the load finds the word where the store left it. -/
theorem loadReadsLastStore : Obligations.LoadReadsLastStore := by
  intro s t sp q p j k hstore hR hk
  have hf := memInstr_field sp (.store (.mul q) ⟨.noUpdate, j⟩)
  obtain ⟨husable, rfl⟩ := (exec_eq_next_iff_of_fieldOf hf).1 hstore
  have hwf : (memInstr sp (.store (.mul q) ⟨.noUpdate, j⟩)).wf = true := by cases sp <;> rfl
  obtain ⟨heffect, hframe, -, -⟩ := moveEffect_of_wf (s := s) hf hwf
  obtain ⟨hpeek, -⟩ := movesEffect_memField.1 heffect
  generalize fieldNext s _ _ = t at *
  have htR : t.R k = s.R k := R_of_frame hframe (by cases sp <;> simp [memField, touched, Moves.dsts, Moves.eas,
    MemMove.dst, MemMove.ea, updated, Mode.updates])
  have haddr : t.eaAddr sp ⟨.noUpdate, k⟩ = s.eaAddr sp ⟨.noUpdate, j⟩ := htR.trans hR.symm
  have hload : MemMoveUsable t sp (.load ⟨.noUpdate, k⟩ (.mul p)) := by
    refine ⟨eaUsable_of_noUpdate rfl hk, ?_⟩
    obtain ⟨-, -, -, -, hlaunch⟩ := hframe
    rw [memoryUsable_congr hlaunch]
    exact haddr ▸ (movesUsable_memField.1 husable).2
  have hf' := memInstr_field sp (.load ⟨.noUpdate, k⟩ (.mul p))
  have hwf' : (memInstr sp (.load ⟨.noUpdate, k⟩ (.mul p))).wf = true := by cases sp <;> rfl
  obtain ⟨hread, -⟩ := movesEffect_memField.1 (movesEffect_of_wf (s := t) hf' hwf')
  refine ⟨_, exec_eq_next_of_fieldOf hf' (movesUsable_memField.2 hload), mul_of_read ?_⟩
  rw [hread, haddr, hpeek]
  simp [received, State.storeWord, State.read]

end Sys2Proof.Claims
end

section
/-! SUPPORT. The statements on the data-ALU operations and ORI: the accumulator and `sr` hold the operation's result
beside the moves' effects. -/

namespace Sys2Proof.Claims

open Sys2Proof.Machine

/-! ### A data-ALU operation beside its moves -/

theorem aluWrites_of_aluResult {s : State} {i : Instr} {d : AccName} {g : Acc × Status}
    (hg : aluResult s i = some (d, g)) : aluWrites s i = [.acc d g.1, .status g.2] := by
  simp [aluWrites, hg]

theorem acc_sr_of_wf {s : State} {i : Instr} {alu : List Reg} {mv : Moves} {d : AccName} {g : Acc × Status}
    (hf : fieldOf i = some (alu, mv)) (hwf : i.wf = true) (hg : aluResult s i = some (d, g)) :
    (fieldNext s i mv).acc d = g.1 ∧ (fieldNext s i mv).sr = g.2 := by
  have hp : Apart ((fieldWrites s i mv).flatMap Write.regs) := by
    rw [(fieldWrites_spec s hf).1]
    exact apart_of_wellFormed alu mv (aguNum_of_fieldOf hf) (movesIllFormed_of_wf hf hwf)
  have hin : [.acc d g.1, .status g.2] ⊆ fieldWrites s i mv := by
    rw [fieldWrites, aluWrites_of_aluResult hg]
    exact List.subset_append_left _ _
  obtain ⟨-, -, -, hsr, -⟩ := s.retire_fields (fieldWrites s i mv) (Machine.aguNums mv.dsts)
  constructor
  · rw [fieldNext, acc_retire]
    exact s.acc_commit_of_mem _ d g.1 (hin (by simp)) hp
  · rw [fieldNext, hsr]
    exact s.sr_commit_of_mem _ g.2 (hin (by simp)) hp

theorem aluEffect_of_wf {s : State} {i : Instr} {mv : Moves} {d : AccName} {g : Acc × Status}
    (hf : fieldOf i = some (aluDsts d, mv)) (hwf : i.wf = true) (hg : aluResult s i = some (d, g)) :
    AluEffect s (fieldNext s i mv) d g mv := by
  obtain ⟨hacc, hsr⟩ := acc_sr_of_wf hf hwf hg
  exact ⟨hacc, hsr, movesEffect_of_wf hf hwf, frame_of_fieldOf hf, events_of_fieldOf hf, flow_retire _ _ _⟩

/-- A well-formed data-ALU operation whose moves may run completes with its result and its moves' effects. -/
theorem exists_aluEffect {s : State} {i : Instr} {mv : Moves} {d : AccName} {g : Acc × Status}
    (hf : fieldOf i = some (aluDsts d, mv)) (hg : aluResult s i = some (d, g)) (hwf : i.wf = true)
    (hu : MovesUsable s mv) : ∃ t, exec i s = .next t ∧ AluEffect s t d g mv :=
  ⟨_, exec_eq_next_of_fieldOf hf hu, aluEffect_of_wf hf hwf hg⟩

/-- Settles O25: CLR's result for the accumulator is zero. -/
theorem clrZeroesAccumulator : Obligations.ClrZeroesAccumulator := by
  intro s d mv hwf hu
  exact exists_aluEffect (i := .clr d mv) rfl rfl hwf hu

/-- Settles O26: the two results are their functions'. -/
theorem macAndMacrApplyTheirFunctions : Obligations.MacAndMacrApplyTheirFunctions := by
  intro s neg p q d mv hu
  exact ⟨fun hwf => exists_aluEffect (i := .mac neg p q d mv) rfl rfl hwf hu,
    fun hwf => exists_aluEffect (i := .macr neg p q d mv) rfl rfl hwf hu⟩

/-- Settles O27: the result is `alu_mpy`'s. -/
theorem mpyAppliesItsFunction : Obligations.MpyAppliesItsFunction := by
  intro s neg p q d mv hwf hu
  exact exists_aluEffect (i := .mpy neg p q d mv) rfl rfl hwf hu

/-- Settles O28: the two results are their functions'. -/
theorem rndAndSublApplyTheirFunctions : Obligations.RndAndSublApplyTheirFunctions := by
  intro s src d mv hu
  exact ⟨fun hwf => exists_aluEffect (i := .rnd d mv) rfl rfl hwf hu,
    fun hwf => exists_aluEffect (i := .subl src d mv) rfl rfl hwf hu⟩

/-! ### The shifts of the middle part (R121, R122) -/

theorem shiftedLeft_eq (v : BitVec Config.highBits) : shiftedLeft v = BitVec.ofNat Config.highBits (2 * v.toNat) := by
  apply BitVec.eq_of_toNat_eq
  simp [shiftedLeft, Nat.shiftLeft_eq, Nat.mul_comm]

/-- Settles O29: the middle part of LSL's result is the old one shifted left. -/
theorem lslDoublesMiddlePart : Obligations.LslDoublesMiddlePart := by
  intro s d mv hwf hu
  obtain ⟨t, ht, heffect⟩ := exists_aluEffect (s := s) (i := .lsl d mv) rfl rfl hwf hu
  refine ⟨t, ht, ?_, heffect⟩
  obtain ⟨hacc, -⟩ := heffect
  rw [hacc, ← shiftedLeft_eq]
  rfl

/-- The bit that may enter is the top one. -/
theorem getLsbD_shiftedRight (v other : BitVec Config.highBits) (j : Nat) (hj : j + 1 ≠ Config.highBits) :
    (shiftedRight v other).getLsbD j = v.getLsbD (j + 1) := by
  have hshift : (v >>> 1).getLsbD j = v.getLsbD (j + 1) := by rw [BitVec.getLsbD_ushiftRight, Nat.add_comm]
  unfold shiftedRight
  split
  · have htop : (BitVec.twoPow Config.highBits (Config.highBits - 1)).getLsbD j = false := by
      rw [BitVec.getLsbD_twoPow, Bool.and_eq_false_iff, decide_eq_false_iff_not, decide_eq_false_iff_not]
      omega
    rw [BitVec.getLsbD_or, hshift, htop, Bool.or_false]
  · exact hshift

theorem toNat_shiftedRight (v other : BitVec Config.highBits) (hv : 2 * v.toNat < 2 ^ Config.highBits) :
    (shiftedRight v other).toNat = v.toNat / 2 := by
  have hmsb : v.msb = false := BitVec.msb_eq_false_iff_two_mul_lt.2 hv
  simp [shiftedRight, hmsb, Nat.shiftRight_eq_div_pow]

/-- Settles O30: the middle part of LSR's result is the old one shifted right. -/
theorem lsrHalvesMiddlePart : Obligations.LsrHalvesMiddlePart := by
  intro s d mv hwf hu
  obtain ⟨t, ht, heffect⟩ := exists_aluEffect (s := s) (i := .lsr d mv) rfl rfl hwf hu
  refine ⟨t, ht, fun j hj => ?_, fun hv => ?_, heffect⟩
  · obtain ⟨hacc, -⟩ := heffect
    rw [hacc]
    exact getLsbD_shiftedRight _ _ j hj
  · obtain ⟨hacc, -⟩ := heffect
    rw [hacc]
    exact toNat_shiftedRight _ _ hv

/-! ### Reads before writes (R111) -/

/-- The register is an address register, which a mode may update. -/
def isPointer : Reg → Bool
  | .r _ => true
  | .n _ | .m _ | .mul _ | .acc _ | .ext _ | .high _ | .low _ | .sr | .mr | .pc => false

/-- The registers of a list that no mode updates. -/
def dataRegs (ds : List Reg) : List Reg := ds.filter fun d => !isPointer d

theorem overlaps_pointer {d q : Reg} (hd : isPointer d = false) (hq : isPointer q = true) : d.overlaps q = false := by
  cases q <;> cases hq
  cases d <;> simp_all [isPointer, Reg.overlaps, Reg.accOf]

/-- Where the data registers written are apart, no later write touches one of them, whatever the modes update. -/
theorem overlaps_of_later {d : Reg} {ls rs : List Reg} (hd : isPointer d = false)
    (hp : Apart (dataRegs (ls ++ d :: rs))) : ∀ q ∈ rs, d.overlaps q = false := by
  intro q hq
  cases hptr : isPointer q with
  | true => exact overlaps_pointer hd hptr
  | false =>
    rw [dataRegs, List.filter_append, List.filter_cons_of_pos (by simp [hd])] at hp
    obtain ⟨-, hlater, -⟩ := List.pairwise_append.1 hp
    exact (List.pairwise_cons.1 hlater).1 q (List.mem_filter.2 ⟨hq, by simp [hptr]⟩)

theorem dataRegs_updated (e : Ea) : dataRegs (updated e) = [] := by
  unfold updated
  split <;> rfl

theorem dataRegs_append (ds es : List Reg) : dataRegs (ds ++ es) = dataRegs ds ++ dataRegs es :=
  List.filter_append ..

theorem dataRegs_memMove (mm : MemMove) : dataRegs (memMoveRegs mm) = dataRegs mm.dst := by
  cases mm with
  | load e d =>
    have h := dataRegs_append [d] (updated e)
    rwa [dataRegs_updated, List.append_nil] at h
  | store src e => exact dataRegs_updated e

theorem dataRegs_moves (mv : Moves) : dataRegs (movesRegs mv) = dataRegs mv.dsts := by
  cases mv with
  | none | i _ _ | r _ _ => rfl
  | u e => exact dataRegs_updated e
  | x mm | y mm => exact dataRegs_memMove mm
  | xy mx my => simp [movesRegs, Moves.dsts, dataRegs_append, dataRegs_memMove]
  | ry src d my =>
    have h := dataRegs_append [d] (memMoveRegs my)
    have h' := dataRegs_append [d] my.dst
    rw [dataRegs_memMove] at h
    exact h.trans h'.symm

/-- The data registers a statement writes are apart if its own and its moves' destinations are. -/
theorem apart_data_of_fieldOf {s : State} {i : Instr} {alu : List Reg} {mv : Moves} (hf : fieldOf i = some (alu, mv))
    (hc : clash (dataRegs (alu ++ mv.dsts)) = false) :
    Apart (dataRegs ((fieldWrites s i mv).flatMap Write.regs)) := by
  rw [(fieldWrites_spec s hf).1, dataRegs_append, dataRegs_moves, ← dataRegs_append]
  exact (clash_eq_false _).1 hc

section

variable {s : State} {i : Instr} {alu : List Reg} {mv : Moves}

theorem read_fieldNext_of_data {d : Reg} {src : Place} {v : Value} (hf : fieldOf i = some (alu, mv))
    (hin : .reg d src v ∈ s.movesWrites mv) (hd : isPointer d = false) (hwritable : d.writable = true)
    (hc : clash (dataRegs (alu ++ mv.dsts)) = false) : (fieldNext s i mv).read d = received src d v := by
  have hp := apart_data_of_fieldOf (s := s) hf hc
  rw [fieldNext, s.read_retire _ _ d (ne_pc_of_writable hwritable)]
  obtain ⟨ls, rs, hws⟩ := List.append_of_mem (List.mem_append_right (aluWrites s i) hin)
  rw [fieldWrites, hws] at hp ⊢
  refine s.read_commit_reg ls rs d src v (overlaps_of_later (ls := ls.flatMap Write.regs) hd ?_) hwritable
  simpa [Write.regs] using hp

theorem acc_fieldNext_of_data {d : AccName} {g : Acc × Status} (hf : fieldOf i = some (alu, mv))
    (hg : aluResult s i = some (d, g)) (hc : clash (dataRegs (alu ++ mv.dsts)) = false) :
    (fieldNext s i mv).acc d = g.1 := by
  have hp := apart_data_of_fieldOf (s := s) hf hc
  rw [fieldNext, acc_retire]
  rw [fieldWrites, aluWrites_of_aluResult hg] at hp ⊢
  exact s.acc_commit_acc [] _ d g.1 (overlaps_of_later (ls := []) rfl (by simpa [Write.regs] using hp))

theorem peek_fieldNext_of_store {sp : Space} {a : Addr} {v : Word} (hf : fieldOf i = some (alu, mv))
    (hin : .mem sp a v ∈ s.movesWrites mv) : (fieldNext s i mv).peek sp a = v := by
  rw [fieldNext, s.peek_retire]
  refine s.peek_commit_of_mem _ sp a v (List.mem_append_right _ hin) ?_
  rw [(fieldWrites_spec s hf).2.1]
  exact stored_nodup s mv

end

theorem acc_of_read {t : State} {d : AccName} {v : Acc} (h : t.read (.acc d) = .acc v) : t.acc d = v := by
  simpa [State.read] using h

theorem macr_beside_store_and_load (s : State) (neg : Bool) (p q : MulReg) (e f : Ea)
    (hu : MovesUsable s (.xy (.store (.acc .a) e) (.load f (.acc .a)))) :
    ∃ t, exec (.macr neg p q .b (.xy (.store (.acc .a) e) (.load f (.acc .a)))) s = .next t ∧
      t.peek .x (s.eaAddr .x e) = toWord (.reg (.acc .a)) .word (.acc s.a) ∧
      t.a = toAcc .word (.reg (.acc .a)) (.bits .word (s.peek .y (s.eaAddr .y f))) ∧
      t.b = (Config.aluMacr neg (s.mul p) (s.mul q) s.b s.sr).1 := by
  have hf : fieldOf (.macr neg p q .b (.xy (.store (.acc .a) e) (.load f (.acc .a)))) = some (aluDsts .b, _) := rfl
  exact ⟨_, exec_eq_next_of_fieldOf hf hu,
    peek_fieldNext_of_store hf
      (by simp [State.movesWrites, State.memMoveWrites, State.storeWord, State.read, State.acc]),
    acc_of_read (d := .a) (read_fieldNext_of_data hf (by simp [State.movesWrites, State.memMoveWrites]) rfl rfl rfl),
    acc_fieldNext_of_data (d := .b) hf rfl rfl⟩

theorem mac_beside_loads_of_inputs (s : State) (neg : Bool) (d : AccName) (e f : Ea)
    (hu : MovesUsable s (.xy (.load e (.mul .x0)) (.load f (.mul .y0)))) :
    ∃ t, exec (.mac neg .x0 .y0 d (.xy (.load e (.mul .x0)) (.load f (.mul .y0)))) s = .next t ∧
      t.acc d = (Config.aluMac neg s.x0 s.y0 (s.acc d) s.sr).1 ∧
      t.x0 = s.peek .x (s.eaAddr .x e) ∧ t.y0 = s.peek .y (s.eaAddr .y f) := by
  have hf : fieldOf (.mac neg .x0 .y0 d (.xy (.load e (.mul .x0)) (.load f (.mul .y0)))) = some (aluDsts d, _) := rfl
  have hx := read_fieldNext_of_data (s := s) (d := .mul .x0) (src := .word)
    (v := .bits .word (s.peek .x (s.eaAddr .x e))) hf (by simp [State.movesWrites, State.memMoveWrites]) rfl rfl rfl
  have hy := read_fieldNext_of_data (s := s) (d := .mul .y0) (src := .word)
    (v := .bits .word (s.peek .y (s.eaAddr .y f))) hf (by simp [State.movesWrites, State.memMoveWrites]) rfl rfl rfl
  exact ⟨_, exec_eq_next_of_fieldOf hf hu, acc_fieldNext_of_data hf rfl rfl,
    (mul_of_read hx).trans (toWord_bits _ _ _), (mul_of_read hy).trans (toWord_bits _ _ _)⟩

theorem mac_beside_store_of_destination (s : State) (neg : Bool) (p q : MulReg) (d : AccName) (e : Ea)
    (hu : MemMoveUsable s .x (.store (.acc d) e)) :
    ∃ t, exec (.mac neg p q d (.x (.store (.acc d) e))) s = .next t ∧
      t.peek .x (s.eaAddr .x e) = toWord (.reg (.acc d)) .word (.acc (s.acc d)) ∧
      t.acc d = (Config.aluMac neg (s.mul p) (s.mul q) (s.acc d) s.sr).1 := by
  have hf : fieldOf (.mac neg p q d (.x (.store (.acc d) e))) = some (aluDsts d, _) := rfl
  exact ⟨_, exec_eq_next_of_fieldOf hf hu,
    peek_fieldNext_of_store hf (by simp [State.movesWrites, State.memMoveWrites, State.storeWord, State.read]),
    acc_fieldNext_of_data hf rfl rfl⟩

/-- Settles O24: all writes are computed from the state before the statement; in the three particular statements no
data register is written twice, whatever their modes update. -/
theorem sourcesAreReadBeforeWrites : Obligations.SourcesAreReadBeforeWrites := by
  refine ⟨fun s i alu mv hf hwf hu => ?_, fun s neg p q d e f => ?_⟩
  · exact ⟨_, exec_eq_next_of_fieldOf hf hu, movesEffect_of_wf hf hwf, fun d g hg => acc_sr_of_wf hf hwf hg⟩
  · exact ⟨macr_beside_store_and_load s neg p q e f, mac_beside_loads_of_inputs s neg d e f,
      mac_beside_store_of_destination s neg p q d e⟩

/-! ### ORI (R125) -/

theorem getLsbD_mrOf_orMr (sr : Status) (mask : BitVec 8) (j : Nat) :
    (mrOf (orMr sr mask)).getLsbD j = ((mrOf sr).getLsbD j || mask.getLsbD j) := by
  rw [orMr, mrOf_withMr, BitVec.getLsbD_or]

/-- A register that shares no storage with `mr` shares none with `sr`. -/
theorem overlaps_sr_of_mr {q : Reg} (h : q.overlaps .mr = false) : q.overlaps .sr = false := by
  cases q <;> simp_all [Reg.overlaps, Reg.accOf]

/-- Settles O31: ORI writes `sr`, of which it changes the part `mr` only. -/
theorem oriSetsMaskBitsOfMr : Obligations.OriSetsMaskBitsOfMr := by
  intro s mask
  have hsr : (s.retire [.status (orMr s.sr mask)] []).sr = orMr s.sr mask := by
    obtain ⟨-, -, -, hsr, -⟩ := s.retire_fields [.status (orMr s.sr mask)] []
    rw [hsr]
    rfl
  have hframe : Frame s (s.retire [.status (orMr s.sr mask)] []) [.sr] [] :=
    frame_retire (ws := [.status (orMr s.sr mask)]) (List.Subset.refl _)
  obtain ⟨hread, -, hpeek, hprog, hlaunch⟩ := hframe
  have hlow : ∀ j, j < 8 → (orMr s.sr mask).getLsbD j = s.sr.getLsbD j := getLsbD_withMr s.sr _
  obtain ⟨-, -, -, -, -, -, -, -, hevents⟩ := s.retire_fields [.status (orMr s.sr mask)] []
  refine ⟨_, rfl, ?mr, ?low, ?scaling, ⟨fun q hq hother => ?regs, fun _ => ?low, hpeek, hprog, hlaunch⟩, ?events,
    flow_retire _ _ _⟩
  case mr =>
    rw [hsr]
    exact fun j _ => getLsbD_mrOf_orMr s.sr mask j
  case low =>
    rw [hsr]
    exact hlow
  case scaling =>
    intro hbit
    rw [hsr, scalingMode, getLsbD_mrOf_orMr, hbit, Bool.or_true]
  case regs =>
    exact hread q hq (by simpa using overlaps_sr_of_mr (hother .mr (by simp)))
  case events => simpa [Write.recorded] using hevents

end Sys2Proof.Claims
end

section
/-! SUPPORT. The statements on MOVEP and LUA: the registers, words and events of their writes. -/

namespace Sys2Proof.Claims

open Sys2Proof.Machine

/-! ### Accesses of MOVEP (R36, R123) -/

theorem memRead_of_periph {s : State} {sp : Space} {a : Addr} (h : s.isPeriph sp a = true) :
    s.memRead sp a = Config.drawWord (s.drawIndex sp) := by
  simp [State.memRead, h]

theorem readWrites_of_periph {s : State} {sp : Space} {a : Addr} (h : s.isPeriph sp a = true) :
    s.readWrites sp a = [.event (.input sp a (Config.drawWord (s.drawIndex sp)))] := by
  simp [State.readWrites, h, memRead_of_periph h]

theorem memWrites_of_periph {s : State} {sp : Space} {a : Addr} (v : Word) (h : s.isPeriph sp a = true) :
    s.memWrites sp a v = [.event (.output sp a v)] := by
  simp [State.memWrites, h]

theorem memWrites_of_memory {s : State} {sp : Space} {a : Addr} (v : Word) (h : s.isPeriph sp a = false) :
    s.memWrites sp a v = [.mem sp a v] := by
  simp [State.memWrites, h]

theorem memWrites_regs (s : State) (sp : Space) (a : Addr) (v : Word) :
    (s.memWrites sp a v).flatMap Write.regs = [] := by
  cases h : s.isPeriph sp a <;> simp [State.memWrites, h, Write.regs]

/-- The writes of `movep y:pp,x:ea` at a device register `y:pp`. -/
def movepMemWrites (s : State) (pp : Addr) (e : Ea) : List Write :=
  .event (.input .y pp (Config.drawWord (s.drawIndex .y))) ::
    (s.memWrites .x (s.eaAddr .x e) (Config.drawWord (s.drawIndex .y)) ++ s.eaWrites .x e)

theorem exec_movepReg {s : State} {pp : Addr} {d : Reg} (h : MovepUsable s pp) :
    exec (.movepReg pp d) s = .next (s.retire [.reg d .word (.bits .word (Config.drawWord (s.drawIndex .y))),
      .event (.input .y pp (Config.drawWord (s.drawIndex .y)))] (Machine.aguNums [d])) := by
  rw [exec, execMovepReg, (s.movepStops_eq_none pp).2 h, memRead_of_periph h.2, readWrites_of_periph h.2,
    outcome_none]

theorem exec_movepMem {s : State} {pp : Addr} {e : Ea} (h : MovepUsable s pp) (he : EaUsable s e)
    (ha : AccessUsable s .x (s.eaAddr .x e)) :
    exec (.movepMem pp e) s = .next (s.retire (movepMemWrites s pp e) []) := by
  rw [exec, execMovepMem, (s.movepStops_eq_none pp).2 h, (s.eaStops_eq_none e).2 he,
    (s.accessStops_eq_none _ _).2 ha, memRead_of_periph h.2, readWrites_of_periph h.2]
  rfl

theorem exec_movepOut {s : State} {pp : Addr} {src : Reg} (h : MovepUsable s pp) :
    exec (.movepOut src pp) s = .next (s.retire [.event (.output .y pp (s.storeWord src))] []) := by
  rw [exec, execMovepOut, (s.movepStops_eq_none pp).2 h, memWrites_of_periph _ h.2, outcome_none]

theorem events_retire (s : State) (ws : List Write) (w : List AguNum) :
    (s.retire ws w).events = s.events ++ ws.flatMap Write.recorded := by
  obtain ⟨-, -, -, -, -, -, -, -, hevents⟩ := s.retire_fields ws w
  exact hevents

theorem apart_singleton (d : Reg) : Apart [d] := List.pairwise_singleton _ d

/-- Settles O32: one write of the register and one event. -/
theorem movepReadsDeviceToRegister : Obligations.MovepReadsDeviceToRegister := by
  intro s pp d hwf hu
  have hregs : regsIllFormed [] [d] = none := Option.isNone_iff_eq_none.1 hwf
  have hd : d.writable = true := ((regsIllFormed_eq_none _ _).1 hregs).2 d (by simp)
  refine ⟨_, exec_movepReg hu, read_retire_of_mem (by simp) ?_ hd, ?_, frame_retire (by simp [Write.regs]),
    flow_retire _ _ _⟩
  · simpa [Write.regs] using apart_singleton d
  · simp [events_retire, Write.recorded]

theorem frame_mono {s t : State} {regs : List Reg} {cells cells' : List (Space × Addr)} (h : Frame s t regs cells)
    (hc : cells ⊆ cells') : Frame s t regs cells' := by
  obtain ⟨hread, hsr, hpeek, hfields⟩ := h
  exact ⟨hread, hsr, fun sp a hother => hpeek sp a fun hin => hother (hc hin), hfields⟩

theorem movepMemWrites_regs (s : State) (pp : Addr) (e : Ea) :
    (movepMemWrites s pp e).flatMap Write.regs = updated e := by
  simp [movepMemWrites, Write.regs, memWrites_regs, (s.eaWrites_spec .x e).1]

theorem apart_updated (e : Ea) : Apart (updated e) := by
  unfold updated
  split
  · exact apart_singleton _
  · exact List.Pairwise.nil

theorem movepMemWrites_of_memory {s : State} {pp : Addr} {e : Ea} (h : s.isPeriph .x (s.eaAddr .x e) = false) :
    (movepMemWrites s pp e).flatMap Write.cells = [(.x, s.eaAddr .x e)] ∧
    (movepMemWrites s pp e).flatMap Write.recorded = [.input .y pp (Config.drawWord (s.drawIndex .y))] := by
  obtain ⟨-, hcells, hrecorded⟩ := s.eaWrites_spec .x e
  simp [movepMemWrites, memWrites_of_memory _ h, Write.cells, Write.recorded, hcells, hrecorded]

theorem movepMemWrites_of_periph {s : State} {pp : Addr} {e : Ea} (h : s.isPeriph .x (s.eaAddr .x e) = true) :
    (movepMemWrites s pp e).flatMap Write.cells = [] ∧
    (movepMemWrites s pp e).flatMap Write.recorded = [.input .y pp (Config.drawWord (s.drawIndex .y)),
      .output .x (s.eaAddr .x e) (Config.drawWord (s.drawIndex .y))] := by
  obtain ⟨-, hcells, hrecorded⟩ := s.eaWrites_spec .x e
  simp [movepMemWrites, memWrites_of_periph _ h, Write.cells, Write.recorded, hcells, hrecorded]

theorem movepMemWrites_cells_subset (s : State) (pp : Addr) (e : Ea) :
    (movepMemWrites s pp e).flatMap Write.cells ⊆ [(.x, s.eaAddr .x e)] := by
  cases h : s.isPeriph .x (s.eaAddr .x e) with
  | true => simp [(movepMemWrites_of_periph h).1]
  | false =>
    rw [(movepMemWrites_of_memory h).1]
    exact List.Subset.refl _

/-- Settles O33: the two kinds of X: address differ in the one write to it. -/
theorem movepReadsDeviceToMemory : Obligations.MovepReadsDeviceToMemory := by
  intro s pp e hu he ha
  have hregs := movepMemWrites_regs s pp e
  have hframe : Frame s (s.retire (movepMemWrites s pp e) []) (updated e) [(.x, s.eaAddr .x e)] :=
    frame_mono (frame_retire (hregs ▸ List.Subset.refl _)) (movepMemWrites_cells_subset s pp e)
  refine ⟨_, exec_movepMem hu he ha, ptrEffect_retire (sp := .x) ?_ ?_, fun h => ⟨?_, ?_⟩, fun h => ⟨?_, ?_⟩, hframe,
    sr_of_frame hframe fun d hd => ?_, flow_retire _ _ _⟩
  · exact List.Subset.trans (List.subset_append_right _ _) (List.subset_cons_self _ _)
  · rw [hregs]
    exact apart_updated e
  · rw [s.peek_retire]
    refine s.peek_commit_of_mem _ _ _ _ ?_ (by simp [(movepMemWrites_of_memory h).1])
    simp [movepMemWrites, memWrites_of_memory _ h]
  · rw [events_retire, (movepMemWrites_of_memory h).2]
  · rw [s.peek_retire]
    exact s.peek_commit_other _ _ _ (by simp [(movepMemWrites_of_periph h).1])
  · rw [events_retire, (movepMemWrites_of_periph h).2]
  · rw [mem_updated hd]
    rfl

/-- Settles O34: one event is all that is written. -/
theorem movepWritesDevice : Obligations.MovepWritesDevice := by
  intro s src pp hu
  have hframe : Frame s (s.retire [.event (.output .y pp (s.storeWord src))] []) [] [] :=
    frame_retire (ws := [.event (.output .y pp (s.storeWord src))]) (List.Subset.refl _)
  exact ⟨_, exec_movepOut hu, events_retire _ _ _, hframe, sr_of_frame hframe (by simp), flow_retire _ _ _⟩

/-- The three forms of MOVEP with the address `y:pp`. -/
theorem exec_movep_of_stops {s : State} {pp : Addr} {h : Halt} (hs : s.movepStops pp = some h) (q : Reg) (e : Ea) :
    exec (.movepReg pp q) s = outcome (some h) s ∧ exec (.movepMem pp e) s = outcome (some h) s ∧
      exec (.movepOut q pp) s = outcome (some h) s := by
  simp only [exec, execMovepReg, execMovepMem, execMovepOut, hs, firstHalt]
  cases h <;> exact ⟨rfl, rfl, rfl⟩

/-- Settles O35: past REP the address is the first thing tested. -/
theorem movepOutsideDevicesIsRefused : Obligations.MovepOutsideDevicesIsRefused := by
  intro s pp q e hrep hperiph
  exact exec_movep_of_stops (h := .refuse .notPeripheral) (by simp [State.movepStops, hrep, hperiph]) q e

/-! ### LUA (R124) -/

theorem exec_lua {s : State} {e : Ea} (d : AguNum) (he : EaUsable s e) :
    exec (.lua e d) s = .next (s.retire [.ptr d (s.aguValue .x e)] [d]) := by
  rw [exec, execLua, (s.eaStops_eq_none e).2 he, Option.map_none, outcome_none]

theorem lua_wf {e : Ea} {d : AguNum} (h : (Instr.lua e d).wf = true) : e.k ≠ d := by
  rintro rfl
  cases hmode : e.mode.standsAlone <;> simp [Instr.wf, Instr.illFormed, hmode] at h

/-- Settles O36: LUA's one write is of `Rd`. -/
theorem luaLoadsUpdatedAddress : Obligations.LuaLoadsUpdatedAddress := by
  intro s e d hwf he
  have hframe : Frame s (s.retire [.ptr d (s.aguValue .x e)] [d]) [.r d] [] :=
    frame_retire (ws := [.ptr d (s.aguValue .x e)]) (List.Subset.refl _)
  refine ⟨_, exec_lua d he, fun v hv => ?_, R_of_frame hframe ?_, hframe, sr_of_frame hframe ?_, ?_, flow_retire _ _ _⟩
  · rw [R_retire, aguValue_of_value hv]
    exact s.R_commit_ptr [] [] d v (by simp)
  · simpa using overlaps_r (.r e.k) d (by simpa [Reg.aguNum] using lua_wf hwf)
  · simp [Reg.overlaps, Reg.accOf]
  · simp [events_retire, Write.recorded]

end Sys2Proof.Claims
end

section
/-! SUPPORT. The statements on REP, DO and JMP: what they write, how often a repeated statement and a loop's body run,
and where the three are refused. -/

namespace Sys2Proof.Claims

open Sys2Proof.Machine

/-! ### What a step keeps (D16, D19) -/

/-- An instruction that completes keeps the program and the launch parameters, and counts its draws. -/
theorem exec_fields {i : Instr} {s t : State} (h : exec i s = .next t) :
    t.prog = s.prog ∧ t.launch = s.launch ∧ t.draws = s.draws + 1 := by
  cases hws : writesOf s i with
  | some ws =>
    obtain ⟨-, -, -, -, -, hprog, hdraws, hlaunch, -⟩ := s.retire_fields ws (aguWritesOf i)
    rw [exec_eq_retire i s t ws h hws]
    exact ⟨hprog, hlaunch, hdraws⟩
  | none =>
    obtain ⟨loops, rep, pc, sr, rfl, -⟩ := exec_control i s t h hws
    exact ⟨rfl, rfl, rfl⟩

/-- An instruction that completes and is none of REP, DO and JMP goes on as the advance of the pc does. -/
theorem flow_of_exec {i : Instr} {s t : State} (h : exec i s = .next t) (hc : isControl i = false) : Flow s t := by
  cases hws : writesOf s i with
  | some ws =>
    rw [exec_eq_retire i s t ws h hws]
    exact flow_retire _ _ _
  | none =>
    cases i
    case rep | doImm | doReg | jmp => cases hc
    all_goals simp [writesOf] at hws

/-! ### The statements without moves (R126 to R128) -/

theorem frame_repNext (s : State) (count : Nat) : Frame s (repNext s count) [] [] := by
  refine ⟨fun q hq _ => ?_, fun _ _ _ => rfl, fun sp a _ => State.peek_congr _ _ _ _ (by simp [repNext]), rfl, rfl⟩
  simp [repNext, State.read_ran _ _ _ hq]

/-- Settles O37: REP writes the repeat counter and the pc. -/
theorem repStartsRepeat : Obligations.RepStartsRepeat := by
  intro s count hu hcount
  exact ⟨_, (execRep_eq_next_iff s _ count).2 ⟨⟨hu, hcount⟩, rfl⟩, rfl, rfl, rfl, frame_repNext s count, rfl, rfl⟩

theorem frame_doNext (s : State) (count target : Nat) : Frame s (doNext s count target) [.sr] [] := by
  refine ⟨fun q hq hother => ?_, fun hsr => absurd (by simp) hsr,
    fun sp a _ => State.peek_congr _ _ _ _ (by simp [doNext]), rfl, rfl⟩
  rw [doNext, State.read_ran _ _ _ hq, State.read_setSr_other _ _ _ (hother .sr (by simp)), State.read_setPc,
    State.read_setLoops]

theorem rep_doNext {s : State} {count target : Nat} (h : DoUsable s count target) :
    (doNext s count target).rep = none := by
  obtain ⟨⟨hrep, -⟩, -⟩ := h
  exact hrep

/-- Settles O39: DO writes the loops, the pc and `sr`. -/
theorem doPushesLoop : Obligations.DoPushesLoop := by
  intro s count target hu
  refine ⟨_, (doStatement_eq_next_iff s _ count target).2 ⟨hu, rfl⟩, rfl, rep_doNext hu, rfl, ?_,
    frame_doNext s count target, rfl⟩
  simp [doNext, State.stackUsed, Nat.mul_add]

/-- Settles O40: the same with the register's value. -/
theorem doTakesRegisterCount : Obligations.DoTakesRegisterCount := by
  intro s src target hu
  refine ⟨_, (doStatement_eq_next_iff s _ (s.unsigned src) target).2 ⟨hu, rfl⟩, rfl, rep_doNext hu, rfl, ?_,
    frame_doNext s _ target, rfl⟩
  rintro k rfl
  rfl

/-- Settles O42: JMP writes the pc. -/
theorem jmpGoesToLabel : Obligations.JmpGoesToLabel := by
  intro s target hu hloops
  have hframe : Frame s ((s.setPc target).ran []) [] [] := by
    refine ⟨fun q hq _ => ?_, fun _ _ _ => rfl, fun sp a _ => State.peek_congr _ _ _ _ (by simp), rfl, rfl⟩
    simp [State.read_ran _ _ _ hq]
  exact ⟨_, (execJmp_eq_next_iff s _ target).2 ⟨⟨hu, hloops⟩, rfl⟩, rfl, hloops, hu.1, hframe, rfl, rfl⟩

/-! ### Runs that follow the advance of the pc -/

/-- The two states stand at one statement with the same loops and the same repeat. -/
def SameControl (s t : State) : Prop := t.pc = s.pc ∧ t.loops = s.loops ∧ t.rep = s.rep

theorem sameControl_of_flow {r s t : State} (hs : SameControl r s) (hf : Flow s t) : SameControl r.advance t := by
  obtain ⟨spc, sloops, srep⟩ := hs
  obtain ⟨hpc, hloops, hrep⟩ := State.advance_congr r s spc sloops srep
  obtain ⟨fpc, floops, frep⟩ := hf
  exact ⟨fpc.trans hpc, floops.trans hloops, frep.trans hrep⟩

/-- A run none of whose steps runs REP, DO or JMP follows the advance of the pc. That a step runs none may be concluded
from where the advance stands. -/
theorem sameControl_of_runs {s : State} {n : Nat} {run : Nat → State} (h : Runs s n run)
    (hc : ∀ j u i, j < n → SameControl (State.advance^[j] s) (run j) → s.prog[(run j).pc]? = some u →
      decode u = .ok i → exec i (run j) = .next (run (j + 1)) → isControl i = false) :
    ∀ j, j ≤ n → SameControl (State.advance^[j] s) (run j) ∧ (run j).prog = s.prog := by
  obtain ⟨h0, hstep⟩ := h
  intro j
  induction j with
  | zero =>
    intro _
    rw [h0]
    exact ⟨⟨rfl, rfl, rfl⟩, rfl⟩
  | succ j ih =>
    intro hj
    obtain ⟨hsame, hprog⟩ := ih (by omega)
    obtain ⟨u, i, hu, hi, hx⟩ := step_eq_next _ _ (hstep j hj)
    have hflow := flow_of_exec hx (hc j u i hj hsame (hprog ▸ hu) hi hx)
    rw [Function.iterate_succ_apply']
    exact ⟨sameControl_of_flow hsame hflow, (exec_fields hx).1.trans hprog⟩

/-! ### A repeated statement (R126) -/

theorem advance_iterate_rep {s : State} {count : Nat} (h : s.rep = some count) {j : Nat} (hj : j < count) :
    State.advance^[j] s = s.setRep (some (count - j)) := by
  induction j with
  | zero =>
    rw [Nat.sub_zero, ← h]
    rfl
  | succ j ih =>
    rw [Function.iterate_succ_apply', ih (by omega), advance_of_more (c := count - j) rfl (by omega)]
    rfl

theorem advance_iterate_rep_last {s : State} {count : Nat} (h : s.rep = some count) (hcount : 1 ≤ count) :
    State.advance^[count] s = (s.setRep none).leave := by
  obtain ⟨c, rfl⟩ : ∃ c, count = c + 1 := ⟨count - 1, by omega⟩
  rw [Function.iterate_succ_apply', advance_iterate_rep h (by omega), advance_of_last (c := c + 1 - c) rfl (by omega)]
  rfl

/-- Under REP no REP, DO or JMP completes. -/
theorem isControl_eq_false_of_rep {i : Instr} {s t : State} (hr : s.rep ≠ none) (h : exec i s = .next t) :
    isControl i = false := by
  have hu : ¬ ControlUsable s := fun hu => hr hu.1
  cases i with
  | rep c => exact absurd ((execRep_eq_next_iff s t c).1 h).1.1 hu
  | doImm c l => exact absurd ((doStatement_eq_next_iff s t c l).1 h).1.1 hu
  | doReg q l => exact absurd ((doStatement_eq_next_iff s t _ l).1 h).1.1 hu
  | jmp l => exact absurd ((execJmp_eq_next_iff s t l).1 h).1.1 hu
  | _ => rfl

/-- Settles O38: the advance counts the repetitions down, and a run under REP follows it. -/
theorem repeatedStatementRunsCountTimes : Obligations.RepeatedStatementRunsCountTimes := by
  intro s count hrep hcount
  have hlast := advance_iterate_rep_last hrep hcount
  refine ⟨⟨fun j hj => ?_, hlast⟩, fun run hrun => ?_⟩
  · rw [advance_iterate_rep hrep hj]
    rfl
  · have hsame := sameControl_of_runs hrun fun j u i hj hsame _ _ hx => by
      refine isControl_eq_false_of_rep ?_ hx
      rw [hsame.2.2, advance_iterate_rep hrep hj]
      simp
    refine ⟨fun j hj => ?_, ?_⟩
    · obtain ⟨⟨hpc, -, hr⟩, -⟩ := hsame j hj.le
      rw [hpc, hr, advance_iterate_rep hrep hj]
      exact ⟨rfl, rfl⟩
    · obtain ⟨⟨hpc, hloops, hr⟩, -⟩ := hsame count le_rfl
      rw [hpc, hloops, hr, hlast]
      exact ⟨rfl, rfl, by simp⟩

/-! ### The body of a loop (R127) -/

/-- The state `s` at the first statement of the loop `g`, which has the loops `rest` around it. -/
def atFirst (s : State) (g : LoopRecord) (rest : List LoopRecord) : State := (s.setLoops (g :: rest)).setPc g.first

theorem advance_iterate_in_body {s : State} {g : LoopRecord} {rest : List LoopRecord} (hrep : s.rep = none) {i : Nat}
    (hi : g.first + i ≤ g.last) :
    State.advance^[i] (atFirst s g rest) = (atFirst s g rest).setPc (g.first + i) := by
  induction i with
  | zero => rfl
  | succ i ih =>
    rw [Function.iterate_succ_apply', ih (by omega), advance_of_rep_none (by exact hrep), leave_of_not_last]
    · rfl
    · intro top rest' hl
      cases hl
      simp only [State.setPc_pc]
      omega

theorem advance_iterate_body {s : State} {g : LoopRecord} {rest : List LoopRecord} (hrep : s.rep = none)
    (hbody : g.first ≤ g.last) :
    State.advance^[g.last - g.first + 1] (atFirst s g rest) =
      if 1 < g.count then atFirst s { g with count := g.count - 1 } rest
      else (s.setLoops rest).setPc (g.last + 1) := by
  rw [Function.iterate_succ_apply', advance_iterate_in_body hrep (by omega), Nat.add_sub_of_le hbody,
    advance_of_rep_none (by exact hrep)]
  split
  · exact leave_of_more (top := g) rfl rfl ‹_›
  · exact leave_of_done (top := g) rfl rfl ‹_›

/-- The advance walks the body `count` times and leaves the loop. -/
theorem advance_iterate_loop {s : State} {first last : Nat} {rest : List LoopRecord} (hrep : s.rep = none)
    (hbody : first ≤ last) (count : Nat) :
    (∀ j, j < (count + 1) * (last - first + 1) →
      (State.advance^[j] (atFirst s ⟨count + 1, first, last⟩ rest)).pc = first + j % (last - first + 1) ∧
      (State.advance^[j] (atFirst s ⟨count + 1, first, last⟩ rest)).loops.tail = rest) ∧
    State.advance^[(count + 1) * (last - first + 1)] (atFirst s ⟨count + 1, first, last⟩ rest) =
      (s.setLoops rest).setPc (last + 1) := by
  have hfirst (c j : Nat) (hj : j < last - first + 1) :
      (State.advance^[j] (atFirst s ⟨c, first, last⟩ rest)).pc = first + j % (last - first + 1) ∧
      (State.advance^[j] (atFirst s ⟨c, first, last⟩ rest)).loops.tail = rest := by
    rw [advance_iterate_in_body hrep (by dsimp only; omega), Nat.mod_eq_of_lt hj]
    exact ⟨rfl, rfl⟩
  have hturn (c : Nat) := advance_iterate_body (g := ⟨c, first, last⟩) (rest := rest) hrep hbody
  dsimp only at hturn
  induction count with
  | zero =>
    rw [Nat.zero_add, Nat.one_mul]
    exact ⟨hfirst 1, hturn 1⟩
  | succ count ih =>
    obtain ⟨ihwalk, ihend⟩ := ih
    have hagain : State.advance^[last - first + 1] (atFirst s ⟨count + 2, first, last⟩ rest) =
        atFirst s ⟨count + 1, first, last⟩ rest := by
      rw [hturn, if_pos (by omega)]
      rfl
    refine ⟨fun j hj => ?_, ?_⟩
    · by_cases hlt : j < last - first + 1
      · exact hfirst _ j hlt
      · obtain ⟨i, rfl⟩ : ∃ i, j = i + (last - first + 1) := ⟨j - (last - first + 1), by omega⟩
        rw [Nat.add_mul, Nat.one_mul] at hj
        rw [Function.iterate_add_apply, hagain, Nat.add_mod_right]
        exact ihwalk i (by omega)
    · rw [Nat.add_mul, Nat.one_mul, Function.iterate_add_apply, hagain]
      exact ihend

theorem eq_atFirst {s : State} {g : LoopRecord} {rest : List LoopRecord} (hl : s.loops = g :: rest)
    (hpc : s.pc = g.first) : s = atFirst s g rest := by
  rw [atFirst, ← hl, ← hpc]
  rfl

/-- Settles O41: the advance walks the body `count` times, and a run through a body without control instructions
follows it. -/
theorem loopBodyRunsCountTimes : Obligations.LoopBodyRunsCountTimes := by
  intro s count first last rest hl hpc hbody hcount hrep
  obtain ⟨c, rfl⟩ : ∃ c, count = c + 1 := ⟨count - 1, by omega⟩
  have hadvance := advance_iterate_loop (rest := rest) hrep hbody c
  rw [← eq_atFirst hl hpc] at hadvance
  obtain ⟨hwalk, hend⟩ := hadvance
  refine ⟨⟨hwalk, hend⟩, fun hplain run hrun => ?_⟩
  have hsame := sameControl_of_runs hrun fun j u i hj hsame hu hi _ => by
    have hmod : j % (last - first + 1) < last - first + 1 := Nat.mod_lt j (by omega)
    rw [hsame.1, (hwalk j hj).1] at hu
    exact hplain _ u i (by omega) (by omega) hu hi
  refine ⟨fun j hj => ?_, ?_⟩
  · obtain ⟨⟨hpc, hloops, -⟩, -⟩ := hsame j hj.le
    rw [hpc, hloops]
    exact hwalk j hj
  · obtain ⟨⟨hpc, hloops, hr⟩, -⟩ := hsame _ le_rfl
    rw [hpc, hloops, hr, hend]
    exact ⟨rfl, rfl, hrep⟩

/-! ### Refusals (D22, R166) -/

theorem exec_rep_refused {s : State} {count : Nat} {f : Refusal} (h : s.repStops count = some f) :
    exec (.rep count) s = .refused f := by
  simp [exec, execRep, h, outcome]

theorem doStatement_refused {s : State} {count target : Nat} {f : Refusal} (h : s.doStops count target = some f) :
    s.doStatement count target = .refused f := by
  simp [State.doStatement, h, outcome]

theorem exec_jmp_refused {s : State} {target : Nat} {f : Refusal} (h : s.jmpStops = some f) :
    exec (.jmp target) s = .refused f := by
  simp [exec, execJmp, h, outcome]

/-- Where REP, DO and JMP may not stand, all three are refused alike. -/
theorem exec_control_refused {s : State} {f : Refusal} (h : s.controlStops = some f) (count target : Nat) (q : Reg) :
    exec (.rep count) s = .refused f ∧ exec (.doImm count target) s = .refused f ∧
      exec (.doReg q target) s = .refused f ∧ exec (.jmp target) s = .refused f :=
  ⟨exec_rep_refused (by simp [State.repStops, h]), doStatement_refused (by simp [State.doStops, h]),
    doStatement_refused (by simp [State.doStops, h]), exec_jmp_refused (by simp [State.jmpStops, h])⟩

theorem doStops_zero {s : State} (hu : ControlUsable s) (target : Nat) : s.doStops 0 target = some .doCountZero := by
  simp [State.doStops, s.controlStops_eq_none.2 hu]

theorem doStops_full {s : State} (hu : ControlUsable s) {count : Nat} (hcount : count ≠ 0) (target : Nat)
    (hfull : s.launch.stackDepth < 2 * (s.loops.length + 1)) : s.doStops count target = some .stackOverflow := by
  have hmax : s.maxLoops ≤ s.loops.length := by
    unfold State.maxLoops
    omega
  simp [State.doStops, s.controlStops_eq_none.2 hu, hcount, hmax]

/-- Settles O43: where DO may stand, the count is tested first and the stack next. -/
theorem zeroCountAndFullStackAreRefused : Obligations.ZeroCountAndFullStackAreRefused := by
  intro s src count target hu
  refine ⟨exec_rep_refused (by simp [State.repStops, s.controlStops_eq_none.2 hu]),
    doStatement_refused (doStops_zero hu target), fun hzero => ?_, fun hfull => ⟨fun hcount => ?_, fun hcount => ?_⟩⟩
  · refine doStatement_refused ?_
    rw [hzero]
    exact doStops_zero hu target
  · exact doStatement_refused (doStops_full hu hcount target hfull)
  · exact doStatement_refused (doStops_full hu hcount target hfull)

theorem controlStops_of_rep {s : State} (h : s.rep ≠ none) : s.controlStops = some .repeatedControl := by
  simp [State.controlStops, Option.isSome_iff_ne_none.2 h]

theorem controlStops_of_not_usable {s : State} (hrep : s.rep = none) (h : ¬ ControlUsable s) :
    s.controlStops = some .loopEndRestriction := by
  rw [← State.controlStops_eq_none] at h
  unfold State.controlStops at h ⊢
  simp_all

/-- Past the count and the stack DO stops at its label: before the body, at an empty one, or at another loop's end. -/
theorem doStops_of_room {s : State} (hu : ControlUsable s) {count : Nat} (hcount : count ≠ 0) (target : Nat)
    (hroom : 2 * (s.loops.length + 1) ≤ s.launch.stackDepth) :
    s.doStops count target =
      if target ≤ s.pc then some .labelBeforeDo
      else if target = s.pc + 1 then some .loopEndRestriction
      else if s.loops.any fun g => g.last == target - 1 then some .sharedLoopEnd
      else none := by
  have hmax : ¬ s.maxLoops ≤ s.loops.length := by
    unfold State.maxLoops
    omega
  simp [State.doStops, s.controlStops_eq_none.2 hu, hcount, hmax]

theorem doStatement_refused_of_label {s : State} (hu : ControlUsable s) {count target : Nat} (hcount : count ≠ 0)
    (hroom : 2 * (s.loops.length + 1) ≤ s.launch.stackDepth) (g : LoopRecord) :
    (target ≤ s.pc → s.doStatement count target = .refused .labelBeforeDo) ∧
    (target = s.pc + 1 → s.doStatement count target = .refused .loopEndRestriction) ∧
    (s.pc + 2 ≤ target → g ∈ s.loops → g.last = target - 1 →
      s.doStatement count target = .refused .sharedLoopEnd) := by
  have hstops := doStops_of_room hu hcount target hroom
  refine ⟨fun h => doStatement_refused ?_, fun h => doStatement_refused ?_, fun h hg hlast => doStatement_refused ?_⟩
  · rw [hstops, if_pos h]
  · rw [hstops, if_neg (by omega), if_pos h]
  · rw [hstops, if_neg (by omega), if_neg (by omega), if_pos (List.any_eq_true.2 ⟨g, hg, by simp [hlast]⟩)]

/-- Settles O44: the placements in the order in which they are tested. -/
theorem loopPlacementsAreRefused : Obligations.LoopPlacementsAreRefused := by
  intro s g d label count target pp q e
  refine ⟨fun hrep => ?_, fun hrep hplace => ?_, fun hu hg => ?_, fun hu hroom i hi => ?_⟩
  · obtain ⟨hrepeat, hdoImm, hdoReg, hjmp⟩ := exec_control_refused (controlStops_of_rep hrep) count target q
    have hmovep : s.movepStops pp = some (.refuse .repeatedControl) := by
      simp [State.movepStops, Option.isSome_iff_ne_none.2 hrep]
    exact ⟨hrepeat, hdoImm, hdoReg, hjmp, exec_movep_of_stops hmovep q e⟩
  · refine exec_control_refused (controlStops_of_not_usable hrep ?_) count target q
    rintro ⟨-, hprogram, hactive⟩
    rcases hplace with ⟨hdo, hd, hlabel⟩ | ⟨hg, hfirst, hlast⟩
    · have := hprogram d label hdo hd
      omega
    · have := hactive g hg hfirst
      omega
  · refine exec_jmp_refused ?_
    simp [State.jmpStops, s.controlStops_eq_none.2 hu, List.ne_nil_of_mem hg]
  · rcases hi with ⟨rfl, hcount⟩ | ⟨rfl, hcount⟩
    · exact doStatement_refused_of_label hu hcount hroom g
    · exact doStatement_refused_of_label hu hcount hroom g

end Sys2Proof.Claims
end

section
/-! SUPPORT. The statements on the step and on the whole machine: what a step runs, and what every instruction keeps. -/

namespace Sys2Proof.Claims

open Sys2Proof.Machine

/-! ### The step (D1, D21) -/

/-- Settles O51: the fetch finds the text, and the decoder the instruction. -/
theorem stepRunsDecodedInstruction : Obligations.StepRunsDecodedInstruction := by
  intro s u i hu hi
  simp [step, State.fetch, hu, hi]

/-- Settles O52: the two other outcomes of fetch and decode. -/
theorem stepEndsPastLastStatement : Obligations.StepEndsPastLastStatement := by
  intro s
  refine ⟨fun hpc => ?_, fun u e hu he => ?_⟩
  · simp [step, State.fetch, List.getElem?_eq_none hpc]
  · simp [step, State.fetch, hu, he]

/-- Settles O55, by the values of the reset state. -/
theorem runStartsAtFirstStatement : Obligations.RunStartsAtFirstStatement := ⟨rfl, rfl, rfl, rfl⟩

/-- Settles O56: a completed step is a completed instruction, and a draw's number is twice the counter, or one more. -/
theorem stepKeepsProgramAndNumbersDrawsAnew : Obligations.StepKeepsProgramAndNumbersDrawsAnew := by
  intro s t hstep
  obtain ⟨u, i, -, -, hx⟩ := step_eq_next s t hstep
  obtain ⟨hprog, hlaunch, hdraws⟩ := exec_fields hx
  refine ⟨hprog, hlaunch, hdraws, fun sp sp' => ?_⟩
  have hlow : s.drawIndex sp ≤ 2 * s.draws + 1 := by cases sp <;> simp [State.drawIndex]
  have hhigh : 2 * t.draws ≤ t.drawIndex sp' := by cases sp' <;> simp [State.drawIndex]
  omega

/-! ### What an instruction writes -/

/-- The registers an instruction writes on its own account: those of its data-ALU operation, and `sr` for ORI. -/
def ownDsts (i : Instr) : List Reg :=
  match fieldOf i, i with
  | some (alu, _), _ => alu
  | none, .ori _ => [.sr]
  | none, _ => []

theorem ownDsts_of_fieldOf {i : Instr} {alu : List Reg} {mv : Moves} (hf : fieldOf i = some (alu, mv)) :
    ownDsts i = alu := by
  simp [ownDsts, hf]

theorem writesOf_of_fieldOf {s : State} {i : Instr} {alu : List Reg} {mv : Moves} (hf : fieldOf i = some (alu, mv)) :
    writesOf s i = some (fieldWrites s i mv) := by
  cases i <;> cases hf <;> rfl

/-- Why a register is among those an instruction writes. -/
inductive Writes (i : Instr) (d : Reg) : Prop
  | named (h : d ∈ dstsOf i)
  | own (h : d ∈ ownDsts i)
  | mode (e : Ea) (he : e ∈ easOf i) (hd : d ∈ updated e)
  | lua (e : Ea) (k : AguNum) (hi : i = .lua e k) (hd : d = .r k)

theorem writes_of_fieldOf {s : State} {i : Instr} {alu : List Reg} {mv : Moves} (hf : fieldOf i = some (alu, mv))
    {d : Reg} (hd : d ∈ (fieldWrites s i mv).flatMap Write.regs) : Writes i d := by
  rw [(fieldWrites_spec s hf).1, List.mem_append, mem_movesRegs, touched, List.mem_append] at hd
  rcases hd with hown | hnamed | hmode
  · exact .own (ownDsts_of_fieldOf hf ▸ hown)
  · exact .named ((srcs_dsts_of_fieldOf hf).2 ▸ hnamed)
  · obtain ⟨e, he, hd⟩ := List.mem_flatMap.1 hmode
    exact .mode e (easOf_of_fieldOf hf ▸ he) hd

theorem readWrites_regs (s : State) (sp : Space) (a : Addr) : (s.readWrites sp a).flatMap Write.regs = [] := by
  cases h : s.isPeriph sp a <;> simp [State.readWrites, h, Write.regs]

theorem writes_of_mem_regs {s : State} {i : Instr} {ws : List Write} (hws : writesOf s i = some ws) {d : Reg}
    (hd : d ∈ ws.flatMap Write.regs) : Writes i d := by
  cases hf : fieldOf i with
  | some field =>
    obtain ⟨alu, mv⟩ := field
    rw [writesOf_of_fieldOf hf] at hws
    cases hws
    exact writes_of_fieldOf hf hd
  | none =>
    cases i with
    | movepReg pp q =>
      cases hws
      exact .named (by simpa [dstsOf, Write.regs, readWrites_regs] using hd)
    | movepMem pp e =>
      cases hws
      exact .mode e (by simp [easOf])
        (by simpa [readWrites_regs, memWrites_regs, (s.eaWrites_spec .x e).1] using hd)
    | movepOut src pp =>
      cases hws
      simp [memWrites_regs] at hd
    | lua e k =>
      cases hws
      exact .lua e k rfl (by simpa [Write.regs] using hd)
    | ori mask =>
      cases hws
      exact .own (by simpa [ownDsts, fieldOf, Write.regs] using hd)
    | rep _ | doImm _ _ | doReg _ _ | jmp _ => cases hws
    | _ => cases hf

/-- A register other than `pc` and `sr` that an instruction changes shares storage with one it writes; so does `sr`,
unless the instruction is a DO. -/
theorem exists_writes_of_read_ne {i : Instr} {s t : State} (h : exec i s = .next t) {q : Reg} (hpc : q ≠ .pc)
    (hsr : q.overlaps .sr = false ∨ i.mnemonic ≠ .do_) (hne : t.read q ≠ s.read q) :
    ∃ d, Writes i d ∧ q.overlaps d = true := by
  cases hws : writesOf s i with
  | some ws =>
    by_contra hnone
    refine hne ?_
    rw [exec_eq_retire i s t ws h hws, s.read_retire ws _ q hpc]
    refine s.read_commit_other ws q fun d hd => ?_
    by_contra hover
    exact hnone ⟨d, writes_of_mem_regs hws hd, by simpa using hover⟩
  | none =>
    obtain ⟨loops, rep, pc, sr, rfl, hdo⟩ := exec_control i s t h hws
    refine absurd ?_ hne
    rw [State.read_ran _ _ _ hpc]
    rcases hsr with hsr | hnotdo
    · rw [State.read_setSr_other _ _ _ hsr, State.read_setPc, State.read_setRep, State.read_setLoops]
    · obtain rfl := hdo.resolve_right hnotdo
      cases q <;> simp [State.read]

/-- No instruction writes an AGU register on its own account. -/
theorem aguNum_of_ownDsts {i : Instr} {d : Reg} (hd : d ∈ ownDsts i) : d.aguNum = none := by
  cases hf : fieldOf i with
  | some field =>
    rw [ownDsts_of_fieldOf (alu := field.1) (mv := field.2) hf] at hd
    exact aguNum_of_fieldOf (alu := field.1) (mv := field.2) hf d hd
  | none =>
    have hsr : d = .sr := by
      cases i <;> simp_all [ownDsts]
    rw [hsr]
    rfl

theorem eq_of_overlaps_agu {q d : Reg} (hq : q.aguNum ≠ none) (h : q.overlaps d = true) : d = q := by
  cases q <;> cases d <;> simp_all [Reg.overlaps, Reg.aguNum, Reg.accOf]

/-- An AGU register an instruction changes is named as a destination, is LUA's, or is updated by a mode. -/
theorem writes_agu_of_read_ne {i : Instr} {s t : State} (h : exec i s = .next t) {q : Reg} (hq : q.aguNum ≠ none)
    (hne : t.read q ≠ s.read q) :
    q ∈ dstsOf i ∨ (∃ e k, i = .lua e k ∧ q = .r k) ∨ ∃ e ∈ easOf i, q ∈ updated e := by
  have hpc : q ≠ .pc := by
    rintro rfl
    exact hq rfl
  have hsr : q.overlaps .sr = false := by cases q <;> simp_all [Reg.overlaps, Reg.aguNum]
  obtain ⟨d, hd, hover⟩ := exists_writes_of_read_ne h hpc (.inl hsr) hne
  obtain rfl := eq_of_overlaps_agu hq hover
  cases hd with
  | named hd => exact .inl hd
  | own hd => exact absurd (aguNum_of_ownDsts hd) hq
  | mode e he hd => exact .inr (.inr ⟨e, he, hd⟩)
  | lua e k hi hd => exact .inr (.inl ⟨e, k, hi, hd⟩)

/-- An offset or modifier register an instruction changes is named as a destination. -/
theorem named_of_read_ne {i : Instr} {s t : State} (h : exec i s = .next t) {q : Reg} (hq : q.aguNum ≠ none)
    (hptr : isPointer q = false) (hne : t.read q ≠ s.read q) : q ∈ dstsOf i := by
  rcases writes_agu_of_read_ne h hq hne with hd | ⟨e, k, -, rfl⟩ | ⟨e, -, hd⟩
  · exact hd
  · cases hptr
  · obtain rfl := mem_updated hd
    cases hptr

theorem updates_of_mem_updated {e : Ea} {d : Reg} (h : d ∈ updated e) : e.mode.updates = true := by
  unfold updated at h
  split at h
  · assumption
  · cases h

/-- Settles O57: modes and LUA write address registers only. -/
theorem modesLeaveOffsetsAndModifiers : Obligations.ModesLeaveOffsetsAndModifiers := by
  intro i s t k h
  refine ⟨fun hN => ?_, fun hM => ?_, fun hR => ?_⟩
  · exact named_of_read_ne (q := .n k) h (by simp [Reg.aguNum]) rfl (by simpa [State.read] using hN)
  · exact named_of_read_ne (q := .m k) h (by simp [Reg.aguNum]) rfl (by simpa [State.read] using hM)
  · rcases writes_agu_of_read_ne (q := .r k) h (by simp [Reg.aguNum]) (by simpa [State.read] using hR) with
      hd | ⟨e, j, hi, hd⟩ | ⟨e, he, hd⟩
    · exact .inl hd
    · cases hd
      exact .inr (.inl ⟨e, hi⟩)
    · cases mem_updated hd
      exact .inr (.inr ⟨e, he, rfl, updates_of_mem_updated hd⟩)

/-! ### The status register -/

theorem mnemonic_of_mem_ownDsts {i : Instr} {d : Reg} (hd : d ∈ ownDsts i) :
    i.mnemonic ∈ [Mnemonic.clr, .mac, .macr, .mpy, .rnd, .subl, .lsl, .lsr, .do_, .ori] := by
  cases i
  case clr | mac | macr | mpy | rnd | subl | lsl | lsr | ori => simp [Instr.mnemonic]
  all_goals cases hd

theorem eq_status_of_overlaps_sr {d : Reg} (h : Reg.sr.overlaps d = true) : d = .sr ∨ d = .mr := by
  cases d <;> simp_all [Reg.overlaps, Reg.accOf]

/-- Settles O58: of what an instruction writes, only its own destinations and those it names can be `sr` or `mr`. -/
theorem onlyAluDoAndOriChangeStatus : Obligations.OnlyAluDoAndOriChangeStatus := by
  intro i s t h hne
  by_cases hdo : i.mnemonic = .do_
  · simp [hdo]
  obtain ⟨d, hd, hover⟩ := exists_writes_of_read_ne (q := .sr) h (by simp) (.inr hdo) (by simpa [State.read] using hne)
  have hstatus := eq_status_of_overlaps_sr hover
  cases hd with
  | named hd => rcases hstatus with rfl | rfl <;> simp [hd]
  | own hd => exact .inl (mnemonic_of_mem_ownDsts hd)
  | mode e _ hd => rcases hstatus with rfl | rfl <;> cases mem_updated hd
  | lua e k _ hd => rcases hstatus with rfl | rfl <;> cases hd

/-! ### Events (R36, D26) -/

/-- The event is of a device register. -/
def AtDevice (s : State) : Event → Prop
  | .input sp a _ | .output sp a _ => s.isPeriph sp a = true

/-- Reading an address records at most one event, at a device register. -/
theorem readWrites_recorded (s : State) (sp : Space) (a : Addr) :
    ((s.readWrites sp a).flatMap Write.recorded).length ≤ 1 ∧
      ∀ e ∈ (s.readWrites sp a).flatMap Write.recorded, AtDevice s e := by
  cases h : s.isPeriph sp a <;> simp [State.readWrites, h, Write.recorded, AtDevice]

/-- So does writing one. -/
theorem memWrites_recorded (s : State) (sp : Space) (a : Addr) (v : Word) :
    ((s.memWrites sp a v).flatMap Write.recorded).length ≤ 1 ∧
      ∀ e ∈ (s.memWrites sp a v).flatMap Write.recorded, AtDevice s e := by
  cases h : s.isPeriph sp a <;> simp [State.memWrites, h, Write.recorded, AtDevice]

theorem recorded_of_not_movep {s : State} {i : Instr} {ws : List Write} (hws : writesOf s i = some ws)
    (hi : i.mnemonic ≠ .movep) : ws.flatMap Write.recorded = [] := by
  cases hf : fieldOf i with
  | some field =>
    rw [writesOf_of_fieldOf (alu := field.1) (mv := field.2) hf] at hws
    cases hws
    exact (fieldWrites_spec (alu := field.1) s hf).2.2
  | none =>
    cases i with
    | lua e k | ori mask =>
      cases hws
      rfl
    | movepReg _ _ | movepMem _ _ | movepOut _ _ => exact absurd rfl hi
    | rep _ | doImm _ _ | doReg _ _ | jmp _ => cases hws
    | _ => cases hf

theorem recorded_writesOf {s : State} {i : Instr} {ws : List Write} (hws : writesOf s i = some ws) :
    (ws.flatMap Write.recorded).length ≤ 2 ∧ ∀ e ∈ ws.flatMap Write.recorded, AtDevice s e := by
  by_cases hi : i.mnemonic = .movep
  · cases i with
    | movepReg pp d =>
      cases hws
      obtain ⟨hlength, hdevice⟩ := readWrites_recorded s .y pp
      exact ⟨hlength.trans (by decide), hdevice⟩
    | movepOut src pp =>
      cases hws
      obtain ⟨hlength, hdevice⟩ := memWrites_recorded s .y pp (s.storeWord src)
      exact ⟨hlength.trans (by decide), hdevice⟩
    | movepMem pp e =>
      cases hws
      obtain ⟨hlength, hdevice⟩ := readWrites_recorded s .y pp
      obtain ⟨hlength', hdevice'⟩ := memWrites_recorded s .x (s.eaAddr .x e) (s.memRead .y pp)
      rw [List.flatMap_append, List.flatMap_append, (s.eaWrites_spec .x e).2.2, List.append_nil, List.length_append]
      exact ⟨by omega, List.forall_mem_append.2 ⟨hdevice, hdevice'⟩⟩
    | _ => cases hi
  · rw [recorded_of_not_movep hws hi]
    simp

/-- Settles O59: the new events are those the instruction's writes record. -/
theorem eventsAreKeptInOrder : Obligations.EventsAreKeptInOrder := by
  intro s t hstep
  obtain ⟨u, i, hu, hi, hx⟩ := step_eq_next s t hstep
  have hsame : ∀ u' i', s.prog[s.pc]? = some u' → decode u' = .ok i' → i' = i := by
    intro u' i' hu' hi'
    rw [hu] at hu'
    cases hu'
    rw [hi] at hi'
    cases hi'
    rfl
  cases hws : writesOf s i with
  | some ws =>
    obtain ⟨hlength, hdevice⟩ := recorded_writesOf hws
    refine ⟨ws.flatMap Write.recorded, ?_, hlength, fun e he => ?_, fun u' i' hu' hi' hne => ?_⟩
    · rw [exec_eq_retire i s t ws hx hws, events_retire]
    · have := hdevice e he
      cases e <;> exact this
    · rw [hsame u' i' hu' hi'] at hne
      exact recorded_of_not_movep hws hne
  | none =>
    obtain ⟨loops, rep, pc, sr, rfl, -⟩ := exec_control i s t hx hws
    exact ⟨[], (List.append_nil _).symm, by simp, by simp, fun _ _ _ _ _ => rfl⟩

/-- Settles O60: reading after a write, and the canonical form kept by it. -/
theorem memoryKeepsLastWrite : Obligations.MemoryKeepsLastWrite := by
  intro mem a b v
  refine ⟨by rw [Memory.get_put, if_pos rfl], fun hne => ?_, Memory.wf_put mem a v⟩
  rw [Memory.get_put, if_neg fun h => hne (BitVec.eq_of_toNat_eq h.symm)]

end Sys2Proof.Claims
end
